-- ==== Sys2Proof/Word.lean ====
section
/-! DEFINITION. The bit vectors and the word width of SHAENG (spec/00_scope.md R8, R9, R10; spec/10_state.md R16). -/

namespace Sys2Proof

/-- A byte of a message, of the block buffer or of the digest latch (R10). -/
abbrev Byte := BitVec 8

/-- The value of one host transfer on the 32-bit data bus (R7, R35). -/
abbrev BusWord := BitVec 32

/-- One storage cell of H, WR, WS, DIV224 or DIV256: 64 bits whatever the algorithm (R16). -/
abbrev Cell := BitVec 64

/-- The word width W of an algorithm (R6). -/
inductive Width where
  | w32
  | w64
  deriving DecidableEq, Repr

/-- W in bits. -/
@[reducible] def Width.bits : Width → Nat
  | .w32 => 32
  | .w64 => 64

/-- W / 8: the bytes of one word. -/
@[reducible] def Width.bytes : Width → Nat
  | .w32 => 4
  | .w64 => 8

end Sys2Proof
end

