-- ==== Sys2Proof/Config.lean ====
section
/-! DEFINITION. What an implementation fixes (spec/00_scope.md R7), and the free values the spec leaves open
(spec/70_reset_and_hazards.md R143; spec/93_implementation_defined.md U13 to U15). -/

namespace Sys2Proof

/-- The parameters of an implementation. Of the open ones, BASE is a host address (D1); STEP_TIME (D27) is a duration,
which no rule of the model reads, and is left out. -/
structure Config where
  /-- BASE: the window's address on the host bus, any multiple of 128 (R7, R34). -/
  base : Nat
  deriving DecidableEq, Repr

/-- BASE is aligned to the window's size (R34). -/
abbrev Config.wf (c : Config) : Prop := c.base % 128 = 0

/-! The values a hardware reset leaves unspecified: "a draw at reset under no law" (U13). Each is an uninterpreted
function of the number of the reset, so that no proof can lean on a value (log entry 3). -/

opaque Config.drawH : Nat → Vector Cell 8
opaque Config.drawWR : Nat → Vector Cell 8
opaque Config.drawWS : Nat → Vector Cell 80
opaque Config.drawBUF : Nat → Vector Byte 128
opaque Config.drawDIG : Nat → Vector Byte 64
opaque Config.drawDIV224 : Nat → Vector Cell 8
opaque Config.drawDIV256 : Nat → Vector Cell 8
opaque Config.drawT : Nat → Fin 80
opaque Config.drawPB : Nat → Fin 2
/-- SEQ.NPB after a reset: `false` for 1, `true` for 2. -/
opaque Config.drawNPB : Nat → Bool
/-- SEQ.PH after a reset, by the phase's place in R18's list. -/
opaque Config.drawPH : Nat → Fin 6

end Sys2Proof
end

