-- ==== Sys2Proof/Syntax.lean ====
section
/-! DEFINITION. The host operations of SHAENG: one constructor per row of spec/opcode_table.json
(spec/30_encoding.md R51 to R57). The eight bus rows carry what the transaction carries beside its fixed bits;
the seven cmd rows carry the fields of the command word. -/

namespace Sys2Proof

/-- A host operation. An access to the register window is one of the eight bus rows; `wrCmd` selects one of the
seven cmd rows by its value (R118), and each cmd row is a constructor of its own as well. -/
inductive Instr where
  /-- WR.CMD (R118): a write of `v` to CMD. -/
  | wrCmd (v : BusWord)
  /-- WR.DATA (R123): a write of four message bytes to DATA. -/
  | wrData (v : BusWord)
  /-- RD.STATUS (R124). -/
  | rdStatus
  /-- RD.MSGLEN_LO (R125). -/
  | rdMsglenLo
  /-- RD.MSGLEN_HI (R125). -/
  | rdMsglenHi
  /-- RD.DIGEST (R126): a read of digest word `i`. -/
  | rdDigest (i : BitVec 4)
  /-- WR.IGNORED (R36): a write of `v` to a read-only or reserved offset. -/
  | wrIgnored (off : BitVec 7) (v : BusWord)
  /-- RD.ZERO (R37): a read of a write-only or reserved offset. -/
  | rdZero (off : BitVec 7)
  /-- NOP (R119). -/
  | nop
  /-- INIT (R120) of algorithm code `a`. -/
  | init (a : BitVec 3)
  /-- FINAL (R121) with `nb` tail bytes out of `tb0`, `tb1`, `tb2`. -/
  | final (nb : BitVec 2) (tb0 tb1 tb2 : Byte)
  /-- CMD.BADBITS.NOP (R122): opcode 0 with a reserved bit set; `v` is the whole command word. -/
  | badBitsNop (v : BusWord)
  /-- CMD.BADBITS.INIT (R122): opcode 1 with a reserved bit set. -/
  | badBitsInit (v : BusWord)
  /-- CMD.BADBITS.FINAL (R122): opcode 2 with a reserved bit set. -/
  | badBitsFinal (v : BusWord)
  /-- CMD.RSVD (R122): a reserved opcode, 3 to 15. -/
  | cmdRsvd (v : BusWord)
  deriving DecidableEq, Repr

end Sys2Proof
end

