-- ==== Sys2Proof/WellFormed.lean ====
section
/-! DEFINITION. Which terms of `Instr` stand for an operation of SHAENG (spec/30_encoding.md R56, R58). -/

namespace Sys2Proof

/-- The opcode OP = v[3:0] of a command word (R52). -/
def opcodeOf (v : BusWord) : BitVec 4 := v.extractLsb' 0 4

/-- An offset of an aligned 32-bit register: OFF[1:0] = 00 (R35, R51). -/
def alignedOffset (off : BitVec 7) : Bool := off.extractLsb' 0 2 == 0

/-- The write-only and reserved offsets, which read as zero: 0x00, 0x08 and 0x14 to 0x3C (R34, R37). -/
def readsZero (off : BitVec 7) : Bool :=
  off == 0x00 || off == 0x08 || (0x14 ≤ off.toNat && off.toNat ≤ 0x3C)

/-- The read-only and reserved offsets, whose writes are ignored: 0x04, 0x0C, 0x10, 0x14 to 0x3C and 0x40 to 0x7C
(R34, R36). -/
def ignoresWrites (off : BitVec 7) : Bool :=
  off == 0x04 || (0x0C ≤ off.toNat && off.toNat ≤ 0x7C)

/-- The terms that some transfer encodes. The four malformed command words carry their word whole, so each is checked
against its opcode and its reserved bits (R58); the two rows over many offsets are checked against their offsets (R56). -/
def Instr.wf : Instr → Bool
  | .wrCmd _ => true
  | .wrData _ => true
  | .rdStatus => true
  | .rdMsglenLo => true
  | .rdMsglenHi => true
  | .rdDigest _ => true
  | .wrIgnored off _ => alignedOffset off && ignoresWrites off
  | .rdZero off => alignedOffset off && readsZero off
  | .nop => true
  | .init _ => true
  | .final _ _ _ _ => true
  | .badBitsNop v => opcodeOf v == 0 && v.extractLsb' 4 28 != 0
  | .badBitsInit v => opcodeOf v == 1 && v.extractLsb' 7 25 != 0
  | .badBitsFinal v => opcodeOf v == 2 && v.extractLsb' 6 2 != 0
  | .cmdRsvd v => 3 ≤ (opcodeOf v).toNat

end Sys2Proof
end

