-- ==== Sys2Proof/Decode.lean ====
section
/-! DEFINITION. Decoding of host accesses and command words, and the encoder (spec/30_encoding.md R51 to R58;
spec/20_memory.md R34, R35; spec/opcode_table.json). -/

namespace Sys2Proof

/-! ## The rows of the opcode table -/

/-- One row of the opcode table: the word must equal `value` on the bits of `mask` (R57). -/
structure Pattern (n : Nat) where
  value : BitVec n
  mask : BitVec n
  deriving DecidableEq, Repr

/-- Whether a row selects a word: `(w & mask) = match` (R57). -/
def Pattern.hits {n : Nat} (p : Pattern n) (w : BitVec n) : Bool := (w &&& p.mask) == p.value

/-- The bus rows, which match the transaction descriptor TD. -/
def rowWrCmd : Pattern 8 := ⟨0x80, 0xFF⟩
def rowWrData : Pattern 8 := ⟨0x88, 0xFF⟩
def rowRdStatus : Pattern 8 := ⟨0x04, 0xFF⟩
def rowRdMsglenLo : Pattern 8 := ⟨0x0C, 0xFF⟩
def rowRdMsglenHi : Pattern 8 := ⟨0x10, 0xFF⟩
def rowRdDigest : Pattern 8 := ⟨0x40, 0xC3⟩
def rowWrIgnored : Pattern 8 := ⟨0x80, 0x83⟩
def rowRdZero : Pattern 8 := ⟨0x00, 0x83⟩

/-- The cmd rows, which match the value written to CMD. -/
def rowNop : Pattern 32 := ⟨0x00000000, 0xFFFFFFFF⟩
def rowInit : Pattern 32 := ⟨0x00000001, 0xFFFFFF8F⟩
def rowFinal : Pattern 32 := ⟨0x00000002, 0x000000CF⟩
def rowBadBitsNop : Pattern 32 := ⟨0x00000000, 0x0000000F⟩
def rowBadBitsInit : Pattern 32 := ⟨0x00000001, 0x0000000F⟩
def rowBadBitsFinal : Pattern 32 := ⟨0x00000002, 0x0000000F⟩
def rowCmdRsvd : Pattern 32 := ⟨0x00000000, 0x00000000⟩

/-! ## Decoding -/

/-- A command word is given to the first cmd row that matches it, in the table's order (R57); each row's operands are
assembled as R55 says. It is a choice between the values given for the seven rows, so that the decoder and the
meaning of WR.CMD share one chain. The last row's mask is 0, so the chain is total. -/
def selectCmd {α : Type} (v : BusWord) (nop : α) (init : BitVec 3 → α)
    (final : BitVec 2 → Byte → Byte → Byte → α) (badNop badInit badFinal rsvd : α) : α :=
  if rowNop.hits v then nop
  else if rowInit.hits v then init (v.extractLsb' 4 3)
  else if rowFinal.hits v then
    final (v.extractLsb' 4 2) (v.extractLsb' 24 8) (v.extractLsb' 16 8) (v.extractLsb' 8 8)
  else if rowBadBitsNop.hits v then badNop
  else if rowBadBitsInit.hits v then badInit
  else if rowBadBitsFinal.hits v then badFinal
  else rsvd

/-- The command a word written to CMD selects (R57, R118). -/
def decodeCmd (v : BusWord) : Instr :=
  selectCmd v .nop .init .final (.badBitsNop v) (.badBitsInit v) (.badBitsFinal v) (.cmdRsvd v)

/-- The operation of a transaction descriptor and the value a write carries: the first bus row that matches TD, in the
table's order; TD[1:0] ≠ 00 matches no row (R57). -/
def decodeBus (td : BitVec 8) (v : BusWord) : Option Instr :=
  if rowWrCmd.hits td then some (.wrCmd v)
  else if rowWrData.hits td then some (.wrData v)
  else if rowRdStatus.hits td then some .rdStatus
  else if rowRdMsglenLo.hits td then some .rdMsglenLo
  else if rowRdMsglenHi.hits td then some .rdMsglenHi
  else if rowRdDigest.hits td then some (.rdDigest (td.extractLsb' 2 4))
  else if rowWrIgnored.hits td then some (.wrIgnored (td.extractLsb' 0 7) v)
  else if rowRdZero.hits td then some (.rdZero (td.extractLsb' 0 7))
  else none

/-- What encodes an operation: a bus transaction (TD and the value of a write; a read's value is 0), or a command word,
which is written to CMD (R51, R52). -/
inductive Transfer where
  | bus (td : BitVec 8) (v : BusWord)
  | cmd (v : BusWord)
  deriving DecidableEq, Repr

/-- The operation a transfer stands for. -/
def decode : Transfer → Option Instr
  | .bus td v => decodeBus td v
  | .cmd v => some (decodeCmd v)

/-! ## Encoding -/

/-- TD = {WE, OFF} (R51). -/
def descriptor (we : Bool) (off : BitVec 7) : BitVec 8 := BitVec.ofBool we ++ off

/-- The transfer of a well-formed operation, from the encoding tables of R51 to R53 and R56. -/
def encode : Instr → Transfer
  | .wrCmd v => .bus (descriptor true 0x00) v
  | .wrData v => .bus (descriptor true 0x08) v
  | .rdStatus => .bus (descriptor false 0x04) 0
  | .rdMsglenLo => .bus (descriptor false 0x0C) 0
  | .rdMsglenHi => .bus (descriptor false 0x10) 0
  | .rdDigest i => .bus (descriptor false ((1 : BitVec 1) ++ i ++ (0 : BitVec 2))) 0
  | .wrIgnored off v => .bus (descriptor true off) v
  | .rdZero off => .bus (descriptor false off) 0
  | .nop => .cmd 0
  | .init a => .cmd ((0 : BitVec 25) ++ a ++ (1 : BitVec 4))
  | .final nb tb0 tb1 tb2 => .cmd (tb0 ++ tb1 ++ tb2 ++ (0 : BitVec 2) ++ nb ++ (2 : BitVec 4))
  | .badBitsNop v => .cmd v
  | .badBitsInit v => .cmd v
  | .badBitsFinal v => .cmd v
  | .cmdRsvd v => .cmd v

/-! ## Words numbered as the opcode table numbers them -/

/-- The transfer of a table word: a 32-bit row is a command word; an 8-bit row is a TD, with the value of a write in the
bits above it (zero where the table gives the row 8 bits). -/
def transferOfWord (nbits w : Nat) : Transfer :=
  if nbits = 32 then .cmd (BitVec.ofNat 32 w)
  else .bus (BitVec.ofNat 8 w) (BitVec.ofNat 32 (w >>> 8))

/-- The instruction the decoder reads from an instruction of `nbits` bits whose bits are `w`, numbered as
spec/opcode_table.json numbers them. -/
def decodeTableWord (nbits w : Nat) : Option Instr := decode (transferOfWord nbits w)

/-! ## Accesses at host addresses -/

/-- One access as the host issues it: its address on the host bus, its width in bytes, its direction, and the value of
a write. -/
structure BusAccess where
  addr : Nat
  bytes : Nat
  we : Bool
  v : BusWord
  deriving DecidableEq, Repr

/-- Why a host access is no operation of SHAENG. -/
inductive Reject where
  /-- An access that is not 32 bits wide (R35). -/
  | notWordWide
  /-- An access outside BASE to BASE + 0x7F, which belongs to the platform (R34). -/
  | outsideWindow
  /-- An access whose offset is no multiple of 4 (R35, R57). -/
  | misaligned
  deriving DecidableEq, Repr

/-- The operation of a host access to the window at `base`, or why it has none (R34, R35, R51, R57). -/
def decodeAccess (base : Nat) (a : BusAccess) : Except Reject Instr :=
  if a.bytes ≠ 4 then .error .notWordWide
  else if a.addr < base ∨ base + 0x7F < a.addr then .error .outsideWindow
  else
    match decodeBus (descriptor a.we (BitVec.ofNat 7 (a.addr - base))) a.v with
    | some i => .ok i
    | none => .error .misaligned

/-- Whether a host access is held while BUSY = 1: every operation but a STATUS read is (R116). An access that is no
operation is never held: it is refused at once (R35; log entry 13). -/
def waitsWhileBusy (base : Nat) (a : BusAccess) : Bool :=
  match decodeAccess base a with
  | .ok .rdStatus => false
  | .ok _ => true
  | .error _ => false

/-- The host access that carries a transfer to the window at `base`: a bus transaction at its offset, a command word as a
write to CMD (R51, R52). -/
def accessOf (base : Nat) : Transfer → BusAccess
  | .bus td v => ⟨base + (td.extractLsb' 0 7).toNat, 4, td.extractLsb' 7 1 == 1, v⟩
  | .cmd v => ⟨base, 4, true, v⟩

end Sys2Proof
end

