-- ==== Sys2Proof/Machine/State.lean ====
section
/-! DEFINITION. The state of SHAENG (spec/10_state.md R13 to R33), the host's side of the bus, the reasons a step can
stop, and the state after power-up. -/

namespace Sys2Proof.Machine

/-- SEQ.OPK: the engine operation in progress (R18). -/
inductive Op where
  | none
  | block
  | final
  | derive
  deriving DecidableEq, Repr

/-- SEQ.PH: the phase within the current block (R18). -/
inductive Phase where
  | load
  | expand
  | wrload
  | round
  | feed
  | next
  deriving DecidableEq, Repr

/-- SEQ.NPB: how many padded blocks FINAL processes, 1 or 2 (R18). -/
inductive PadBlocks where
  | one
  | two
  deriving DecidableEq, Repr

/-- JS: the job state (R20). -/
inductive JobState where
  | none
  | active
  | done
  | error
  deriving DecidableEq, Repr

/-- ERRCODE: the code of the first error recorded, or none (R21, R128). Codes 5 to 15 are never recorded (U11), so
they have no constructor. -/
inductive ErrCode where
  | none
  | badCmd
  | badAlg
  | notActive
  | lenOverflow
  deriving DecidableEq, Repr

/-- The environment's choice of what happens at a transition (R13, R116, R143): the host's next access is let through
before the engine's next step, the engine steps first, or a hardware reset comes (log entry 2). -/
inductive Turn where
  | host
  | engine
  | reset
  deriving DecidableEq, Repr

/-- SHAENG's state. BUSY is not stored: it is 1 exactly when OPK ≠ NONE (R18, R19); STATUS is a view of the fields
(R24). The first twenty fields are the hardware's; `cfg` is the implementation's parameter; `bus`, `turns` and
`rdata` are the host's side of the bus; `draws` counts the resets that have drawn free values. -/
@[ext]
structure State where
  /-- H[0..7], the HashState (R14). -/
  h : Vector Cell 8
  /-- WR[0..7], the working registers a to h (R15). -/
  wr : Vector Cell 8
  /-- WS[0..79], the schedule RAM (R26). -/
  ws : Vector Cell 80
  /-- T, the round and schedule index, in [0, 80) (R17). -/
  t : Fin 80
  /-- SEQ.OPK (R18). -/
  opk : Op
  /-- SEQ.PB, the padded block FINAL is processing (R18). -/
  pb : Fin 2
  /-- SEQ.NPB (R18). -/
  npb : PadBlocks
  /-- SEQ.PH (R18). -/
  ph : Phase
  /-- JS (R20). -/
  js : JobState
  /-- ERRCODE (R21). -/
  errcode : ErrCode
  /-- ALG, the algorithm code of the current or last job; 7 is no algorithm (R22). -/
  alg : BitVec 3
  /-- MSGLEN, the message bytes accepted for the current job (R23). -/
  msglen : BitVec 64
  /-- BUF[0..127], the block buffer (R27). -/
  buf : Vector Byte 128
  /-- BUFCNT, the message bytes of the current block already in BUF (R27). -/
  bufcnt : BitVec 8
  /-- DIG[0..63], the digest latch (R28). -/
  dig : Vector Byte 64
  /-- DIV224[0..7], the cached SHA-512/224 IV (R29). -/
  div224 : Vector Cell 8
  /-- DIV256[0..7], the cached SHA-512/256 IV (R29). -/
  div256 : Vector Cell 8
  /-- DIVV224: DIV224 holds the derived IV (R29). -/
  divv224 : Bool
  /-- DIVV256: DIV256 holds the derived IV (R29). -/
  divv256 : Bool
  /-- The value the last completed read returned to the host (R51). -/
  rdata : BusWord
  /-- The parameters of the implementation (R7). -/
  cfg : Config
  /-- The host's accesses that have not taken effect, in issue order; while BUSY = 1 the first is held unless it is a
  STATUS read, or is no operation and is refused (R13, R35, R45, R116). -/
  bus : List BusAccess
  /-- The environment's choices for the next transitions. -/
  turns : List Turn
  /-- How many hardware resets have drawn free values. -/
  draws : Nat
  deriving DecidableEq, Repr

/-- SHAENG never stops with a fault: its errors are recorded in STATUS and the host goes on (R134, U1), and the engine
has no fault transition (R131, U4). -/
inductive Fault where
  deriving DecidableEq, Repr

/-- The accesses that have no meaning, and the instructions not modelled. -/
inductive Refusal where
  /-- Raised by `exec` for an instruction without a meaning; no arm is left so. Safe. -/
  | notModelled (mnemonic : String)
  /-- Raised by `step` for a host access that is not 32 bits wide, which R35 tells a model to refuse, whatever BUSY is.
  Safe. -/
  | notWordWide
  /-- Raised by `step` for a host access whose offset is no multiple of 4, which R35 tells a model to refuse, whatever BUSY
  is. Safe. -/
  | misaligned
  /-- Raised by `step` for a host access outside the window, which belongs to the platform (R34), whatever BUSY is.
  Safe. -/
  | outsideWindow
  deriving DecidableEq, Repr

/-- The state after power-up (R33, R144): every valued element has R33's value. H, WR, WS, BUF, DIG, DIV224, DIV256, T,
SEQ.PB, SEQ.NPB and SEQ.PH are unspecified; here they are zero, or the first of their names (log entry 1). BASE is 0
(log entry 4), and the host has issued nothing. -/
def State.reset : State where
  h := Vector.replicate 8 0
  wr := Vector.replicate 8 0
  ws := Vector.replicate 80 0
  t := 0
  opk := .none
  pb := 0
  npb := .one
  ph := .load
  js := .none
  errcode := .none
  alg := 7
  msglen := 0
  buf := Vector.replicate 128 0
  bufcnt := 0
  dig := Vector.replicate 64 0
  div224 := Vector.replicate 8 0
  div256 := Vector.replicate 8 0
  divv224 := false
  divv256 := false
  rdata := 0
  cfg := ⟨0⟩
  bus := []
  turns := []
  draws := 0

end Sys2Proof.Machine
end

