-- ==== Sys2Proof/Machine/Params.lean ====
section
/-! DEFINITION. The per-algorithm parameters (spec/00_scope.md R6, R7; spec/44_variants.md R104). -/

namespace Sys2Proof.Machine

/-- One row of R6's table. -/
structure Params where
  /-- W, the word width. -/
  width : Width
  /-- B, the block size in bytes. -/
  blockBytes : Nat
  /-- F, the length-field size in bytes. -/
  lenBytes : Nat
  /-- R, the round count. -/
  rounds : Nat
  /-- NH, the number of HashState words. -/
  nh : Nat
  /-- NS, the number of schedule entries. -/
  ns : Nat
  /-- DLEN, the digest length in bytes. -/
  dlen : Nat
  deriving DecidableEq, Repr

/-- R6's table. Code 7 names no algorithm and has no row (R104); only its DLEN = 0 is read, by STATUS (R24). Its other
entries are those of the 64-bit machinery, which no run reads (log entry 7). -/
def params (alg : BitVec 3) : Params :=
  match alg.toNat with
  | 0 => ⟨.w32, 64, 8, 80, 5, 80, 20⟩
  | 1 => ⟨.w32, 64, 8, 64, 8, 64, 28⟩
  | 2 => ⟨.w32, 64, 8, 64, 8, 64, 32⟩
  | 3 => ⟨.w64, 128, 16, 80, 8, 80, 48⟩
  | 4 => ⟨.w64, 128, 16, 80, 8, 80, 64⟩
  | 5 => ⟨.w64, 128, 16, 80, 8, 80, 28⟩
  | 6 => ⟨.w64, 128, 16, 80, 8, 80, 32⟩
  | _ => ⟨.w64, 128, 16, 80, 8, 80, 0⟩

/-- LMAX: the largest accepted message length in bytes (R7, R86, R130). -/
def lmax (alg : BitVec 3) : Nat :=
  match (params alg).width with
  | .w32 => 2 ^ 61 - 1
  | .w64 => 2 ^ 64 - 1

end Sys2Proof.Machine
end

