-- ==== Sys2Proof/Machine/Roms.lean ====
section
/-! DEFINITION. The read-only tables K256, K512, K1 and IVROM (spec/10_state.md R30; spec/42_schedule.md R91 to R94;
spec/44_variants.md R105). The spec supplies the values from general knowledge (G1 to G3, G5) and checked them by
the known answers of spec/95_test_vectors.md. -/

namespace Sys2Proof.Machine

/-- k256[0..15]. -/
def k256_0 : List (BitVec 32) :=
  [0x428A2F98, 0x71374491, 0xB5C0FBCF, 0xE9B5DBA5,
   0x3956C25B, 0x59F111F1, 0x923F82A4, 0xAB1C5ED5,
   0xD807AA98, 0x12835B01, 0x243185BE, 0x550C7DC3,
   0x72BE5D74, 0x80DEB1FE, 0x9BDC06A7, 0xC19BF174]

/-- k256[16..31]. -/
def k256_16 : List (BitVec 32) :=
  [0xE49B69C1, 0xEFBE4786, 0x0FC19DC6, 0x240CA1CC,
   0x2DE92C6F, 0x4A7484AA, 0x5CB0A9DC, 0x76F988DA,
   0x983E5152, 0xA831C66D, 0xB00327C8, 0xBF597FC7,
   0xC6E00BF3, 0xD5A79147, 0x06CA6351, 0x14292967]

/-- k256[32..47]. -/
def k256_32 : List (BitVec 32) :=
  [0x27B70A85, 0x2E1B2138, 0x4D2C6DFC, 0x53380D13,
   0x650A7354, 0x766A0ABB, 0x81C2C92E, 0x92722C85,
   0xA2BFE8A1, 0xA81A664B, 0xC24B8B70, 0xC76C51A3,
   0xD192E819, 0xD6990624, 0xF40E3585, 0x106AA070]

/-- k256[48..63]. -/
def k256_48 : List (BitVec 32) :=
  [0x19A4C116, 0x1E376C08, 0x2748774C, 0x34B0BCB5,
   0x391C0CB3, 0x4ED8AA4A, 0x5B9CCA4F, 0x682E6FF3,
   0x748F82EE, 0x78A5636F, 0x84C87814, 0x8CC70208,
   0x90BEFFFA, 0xA4506CEB, 0xBEF9A3F7, 0xC67178F2]

/-- K256: the 64 round constants of SHA-224 and SHA-256 (R91). -/
def k256 : List (BitVec 32) := k256_0 ++ k256_16 ++ k256_32 ++ k256_48

/-- k512[0..15]. -/
def k512_0 : List (BitVec 64) :=
  [0x428A2F98D728AE22, 0x7137449123EF65CD, 0xB5C0FBCFEC4D3B2F, 0xE9B5DBA58189DBBC,
   0x3956C25BF348B538, 0x59F111F1B605D019, 0x923F82A4AF194F9B, 0xAB1C5ED5DA6D8118,
   0xD807AA98A3030242, 0x12835B0145706FBE, 0x243185BE4EE4B28C, 0x550C7DC3D5FFB4E2,
   0x72BE5D74F27B896F, 0x80DEB1FE3B1696B1, 0x9BDC06A725C71235, 0xC19BF174CF692694]

/-- k512[16..31]. -/
def k512_16 : List (BitVec 64) :=
  [0xE49B69C19EF14AD2, 0xEFBE4786384F25E3, 0x0FC19DC68B8CD5B5, 0x240CA1CC77AC9C65,
   0x2DE92C6F592B0275, 0x4A7484AA6EA6E483, 0x5CB0A9DCBD41FBD4, 0x76F988DA831153B5,
   0x983E5152EE66DFAB, 0xA831C66D2DB43210, 0xB00327C898FB213F, 0xBF597FC7BEEF0EE4,
   0xC6E00BF33DA88FC2, 0xD5A79147930AA725, 0x06CA6351E003826F, 0x142929670A0E6E70]

/-- k512[32..47]. -/
def k512_32 : List (BitVec 64) :=
  [0x27B70A8546D22FFC, 0x2E1B21385C26C926, 0x4D2C6DFC5AC42AED, 0x53380D139D95B3DF,
   0x650A73548BAF63DE, 0x766A0ABB3C77B2A8, 0x81C2C92E47EDAEE6, 0x92722C851482353B,
   0xA2BFE8A14CF10364, 0xA81A664BBC423001, 0xC24B8B70D0F89791, 0xC76C51A30654BE30,
   0xD192E819D6EF5218, 0xD69906245565A910, 0xF40E35855771202A, 0x106AA07032BBD1B8]

/-- k512[48..63]. -/
def k512_48 : List (BitVec 64) :=
  [0x19A4C116B8D2D0C8, 0x1E376C085141AB53, 0x2748774CDF8EEB99, 0x34B0BCB5E19B48A8,
   0x391C0CB3C5C95A63, 0x4ED8AA4AE3418ACB, 0x5B9CCA4F7763E373, 0x682E6FF3D6B2B8A3,
   0x748F82EE5DEFB2FC, 0x78A5636F43172F60, 0x84C87814A1F0AB72, 0x8CC702081A6439EC,
   0x90BEFFFA23631E28, 0xA4506CEBDE82BDE9, 0xBEF9A3F7B2C67915, 0xC67178F2E372532B]

/-- k512[64..79]. -/
def k512_64 : List (BitVec 64) :=
  [0xCA273ECEEA26619C, 0xD186B8C721C0C207, 0xEADA7DD6CDE0EB1E, 0xF57D4F7FEE6ED178,
   0x06F067AA72176FBA, 0x0A637DC5A2C898A6, 0x113F9804BEF90DAE, 0x1B710B35131C471B,
   0x28DB77F523047D84, 0x32CAAB7B40C72493, 0x3C9EBE0A15C9BEBC, 0x431D67C49C100D4C,
   0x4CC5D4BECB3E42B6, 0x597F299CFC657E2A, 0x5FCB6FAB3AD6FAEC, 0x6C44198C4A475817]

/-- K512: the 80 round constants of the 64-bit algorithms and of the derivation (R92). -/
def k512 : List (BitVec 64) := k512_0 ++ k512_16 ++ k512_32 ++ k512_48 ++ k512_64

/-- K1: the four round constants of SHA-1 (R93). -/
def k1 : List (BitVec 32) := [0x5A827999, 0x6ED9EBA1, 0x8F1BBCDC, 0xCA62C1D6]

/-- K[t] of a SHA-2 round, selected by the word width: K256 for ALG 1 and 2, K512 for ALG 3 to 6 and during a derivation
(R94). -/
def roundConstant2 : (W : Width) → Nat → BitVec W.bits
  | .w32, t => k256.getD t 0
  | .w64, t => k512.getD t 0

/-- K_t of a SHA-1 round: K1[floor(t / 20)] (R93, R97). -/
def roundConstant1 (t : Nat) : BitVec 32 := k1.getD (t / 20) 0

/-- The published IV of ALG 0 (R105), stored zero-extended in 64-bit cells (R16). -/
def iv1 : List Cell :=
  [0x67452301, 0xEFCDAB89, 0x98BADCFE, 0x10325476,
   0xC3D2E1F0]

/-- The published IV of ALG 1 (R105), stored zero-extended in 64-bit cells (R16). -/
def iv224 : List Cell :=
  [0xC1059ED8, 0x367CD507, 0x3070DD17, 0xF70E5939,
   0xFFC00B31, 0x68581511, 0x64F98FA7, 0xBEFA4FA4]

/-- The published IV of ALG 2 (R105), stored zero-extended in 64-bit cells (R16). -/
def iv256 : List Cell :=
  [0x6A09E667, 0xBB67AE85, 0x3C6EF372, 0xA54FF53A,
   0x510E527F, 0x9B05688C, 0x1F83D9AB, 0x5BE0CD19]

/-- The published IV of ALG 3 (R105). -/
def iv384 : List Cell :=
  [0xCBBB9D5DC1059ED8, 0x629A292A367CD507, 0x9159015A3070DD17, 0x152FECD8F70E5939,
   0x67332667FFC00B31, 0x8EB44A8768581511, 0xDB0C2E0D64F98FA7, 0x47B5481DBEFA4FA4]

/-- The published IV of ALG 4 (R105). -/
def iv512 : List Cell :=
  [0x6A09E667F3BCC908, 0xBB67AE8584CAA73B, 0x3C6EF372FE94F82B, 0xA54FF53A5F1D36F1,
   0x510E527FADE682D1, 0x9B05688C2B3E6C1F, 0x1F83D9ABFB41BD6B, 0x5BE0CD19137E2179]

/-- IVROM: the published IV of ALG 0 to 4 (R105, R106). ALG 5 and 6 have a derived IV and 7 has none. -/
def ivRom (alg : BitVec 3) : List Cell :=
  match alg.toNat with
  | 0 => iv1
  | 1 => iv224
  | 2 => iv256
  | 3 => iv384
  | 4 => iv512
  | _ => []

end Sys2Proof.Machine
end

