-- ==== Sys2Proof/Machine/Primitives.lean ====
section
/-! DEFINITION. The word datapath (spec/40_primitives.md R62 to R79). Addition mod 2^W (R64) is `+` on `BitVec W`. -/

namespace Sys2Proof.Machine

/-! ## The wired rotate and shift amounts (R79, U3) -/

/-- The amounts of ROTR, by width (R71 to R78). -/
def rotrAmounts : Nat → List Nat
  | 32 => [2, 13, 22, 6, 11, 25, 7, 18, 17, 19]
  | 64 => [28, 34, 39, 14, 18, 41, 1, 8, 19, 61]
  | _ => []

/-- The amounts of SHR, by width (R75 to R78). -/
def shrAmounts : Nat → List Nat
  | 32 => [3, 10]
  | 64 => [7, 6]
  | _ => []

/-- The amounts of ROTL, which SHA-1 alone uses (R69). -/
def rotlAmounts : Nat → List Nat
  | 32 => [1, 5, 30]
  | _ => []

/-- ROTR (R68). Only a wired amount is accepted; any other does not typecheck (U3). -/
def rotr {w : Nat} (x : BitVec w) (n : Nat) (_wired : n ∈ rotrAmounts w := by decide) : BitVec w :=
  (x >>> n) ||| (x <<< (w - n))

/-- ROTL, as a left rotation (R69, D24). -/
def rotl {w : Nat} (x : BitVec w) (n : Nat) (_wired : n ∈ rotlAmounts w := by decide) : BitVec w :=
  (x <<< n) ||| (x >>> (w - n))

/-- SHR (R70). -/
def shr {w : Nat} (x : BitVec w) (n : Nat) (_wired : n ∈ shrAmounts w := by decide) : BitVec w :=
  x >>> n

/-! ## The bitwise functions -/

/-- CH (R65). -/
def ch {w : Nat} (x y z : BitVec w) : BitVec w := (x &&& y) ^^^ (~~~x &&& z)

/-- MAJ (R66). -/
def maj {w : Nat} (x y z : BitVec w) : BitVec w := (x &&& y) ^^^ (x &&& z) ^^^ (y &&& z)

/-- PARITY (R67). -/
def parity {w : Nat} (x y z : BitVec w) : BitVec w := x ^^^ y ^^^ z

/-! ## The sigma functions -/

/-- Σ0 (R71, R73). -/
def ucSigma0 : (W : Width) → BitVec W.bits → BitVec W.bits
  | .w32, x => rotr (w := 32) x 2 ^^^ rotr (w := 32) x 13 ^^^ rotr (w := 32) x 22
  | .w64, x => rotr (w := 64) x 28 ^^^ rotr (w := 64) x 34 ^^^ rotr (w := 64) x 39

/-- Σ1 (R72, R74). -/
def ucSigma1 : (W : Width) → BitVec W.bits → BitVec W.bits
  | .w32, x => rotr (w := 32) x 6 ^^^ rotr (w := 32) x 11 ^^^ rotr (w := 32) x 25
  | .w64, x => rotr (w := 64) x 14 ^^^ rotr (w := 64) x 18 ^^^ rotr (w := 64) x 41

/-- σ0 (R75, R77). -/
def lcSigma0 : (W : Width) → BitVec W.bits → BitVec W.bits
  | .w32, x => rotr (w := 32) x 7 ^^^ rotr (w := 32) x 18 ^^^ shr (w := 32) x 3
  | .w64, x => rotr (w := 64) x 1 ^^^ rotr (w := 64) x 8 ^^^ shr (w := 64) x 7

/-- σ1 (R76, R78). -/
def lcSigma1 : (W : Width) → BitVec W.bits → BitVec W.bits
  | .w32, x => rotr (w := 32) x 17 ^^^ rotr (w := 32) x 19 ^^^ shr (w := 32) x 10
  | .w64, x => rotr (w := 64) x 19 ^^^ rotr (w := 64) x 61 ^^^ shr (w := 64) x 6

end Sys2Proof.Machine
end

