-- ==== Sys2Proof/Machine/Operands.lean ====
section
/-! DEFINITION. Operand forms: cells read and written at the algorithm's width (spec/10_state.md R16), big-endian bytes and
words (spec/00_scope.md R10; spec/20_memory.md R40 to R43), and the bytes of command and data words
(spec/30_encoding.md R53, R55). -/

namespace Sys2Proof.Machine

/-- A cell read under width W: its low W bits (R16). -/
def readCell (W : Width) (c : Cell) : BitVec W.bits := c.setWidth W.bits

/-- A W-bit result as a cell stores it: zero-extended (R16). -/
def writeCell (W : Width) (x : BitVec W.bits) : Cell := x.setWidth 64

/-- Word i of a register array, read under width W. Every index the rules use is in range (R50). -/
def word {n : Nat} (W : Width) (v : Vector Cell n) (i : Nat) : BitVec W.bits := readCell W (v.getD i 0)

/-- `for i in [lo, hi): v[i] <- f i` (R11). Every index the rules use is in range (R50). -/
def fill {α : Type} {n : Nat} (v : Vector α n) (lo hi : Nat) (f : Nat → α) : Vector α n :=
  Vector.ofFn fun i : Fin n => if lo ≤ i.val ∧ i.val < hi then f i.val else v[i]

/-- Byte i of BE_n(v), the n-byte big-endian encoding of v (R10); of v mod 2^(8n) for a larger v (log entry 23). -/
def beByte (n v i : Nat) : Byte := BitVec.ofNat 8 (v >>> (8 * (n - 1 - i)))

/-- BEword_W of the W/8 bytes `f 0`, `f 1`, …: the first is the most significant (R10). -/
def beWord (W : Width) (f : Nat → Byte) : BitVec W.bits :=
  BitVec.ofNat W.bits ((List.range W.bytes).foldl (fun acc k => acc * 256 + (f k).toNat) 0)

/-- Message byte j of a DATA value, and tail byte j of a FINAL word: v[31−8j : 24−8j] (R53, R55). -/
def laneByte (v : BusWord) (j : Nat) : Byte := v.extractLsb' (24 - 8 * j) 8

/-- Tail byte j of FINAL: TB0, TB1, TB2 in that order (R55). -/
def tailByte (tb0 tb1 tb2 : Byte) : Nat → Byte
  | 0 => tb0
  | 1 => tb1
  | _ => tb2

/-- The value of a DIGESTi read: {DIG[4i], DIG[4i+1], DIG[4i+2], DIG[4i+3]} (R43, R54). -/
def digestWord (dig : Vector Byte 64) (i : BitVec 4) : BusWord :=
  dig.getD (4 * i.toNat) 0 ++ dig.getD (4 * i.toNat + 1) 0 ++ dig.getD (4 * i.toNat + 2) 0 ++
    dig.getD (4 * i.toNat + 3) 0

end Sys2Proof.Machine
end

