-- ==== Sys2Proof/Machine/Flags.lean ====
section
/-! DEFINITION. The STATUS register and its fields (spec/10_state.md R18 to R24; spec/60_exceptions.md R128). SHAENG has
no arithmetic flags (R63). -/

namespace Sys2Proof.Machine

/-- BUSY is 1 exactly when OPK ≠ NONE (R18, R19). -/
def State.busy (s : State) : Bool := s.opk != .none

/-- The code of a job state (R20). -/
def JobState.code : JobState → BitVec 2
  | .none => 0
  | .active => 1
  | .done => 2
  | .error => 3

/-- The code of an error (R128). -/
def ErrCode.code : ErrCode → BitVec 4
  | .none => 0
  | .badCmd => 1
  | .badAlg => 2
  | .notActive => 3
  | .lenOverflow => 4

/-- STATUS as a read returns it: {0^9, DLEN[6:0], 0^3, DIVV256, DIVV224, ALG, ERRCODE, 0, JS, BUSY} (R24, R124). -/
def State.status (s : State) : BusWord :=
  (0 : BitVec 9) ++ BitVec.ofNat 7 (params s.alg).dlen ++ (0 : BitVec 3) ++ BitVec.ofBool s.divv256 ++
    BitVec.ofBool s.divv224 ++ s.alg ++ s.errcode.code ++ (0 : BitVec 1) ++ s.js.code ++ BitVec.ofBool s.busy

end Sys2Proof.Machine
end

