-- ==== Sys2Proof/Machine/Ops.lean ====
section
/-! DEFINITION. The named operations on the state: recording an error, the padding unit, the start of engine work, the
derivation, serialization, and a hardware reset (spec/41_padding.md R83; spec/44_variants.md R107 to R112;
spec/60_exceptions.md R129; spec/70_reset_and_hazards.md R143). -/

namespace Sys2Proof.Machine

/-! ## Errors -/

/-- `raise HashError(code)` (R129): the first error since the last INIT or reset is kept, JS becomes ERROR, and nothing
else changes. SHAENG takes no trap (R134), so this is its whole error entry; the way back is INIT or a reset (R135). -/
def raiseError (code : ErrCode) (s : State) : State :=
  { s with
    errcode := if s.js = .error then s.errcode else code
    js := .error }

/-! ## The block buffer and the padding unit -/

/-- Append `n` message bytes to BUF and count them: `BUF[BUFCNT + j] <- f j`, BUFCNT and MSGLEN grow by n (R121,
R123). -/
def appendBytes (n : Nat) (f : Nat → Byte) (s : State) : State :=
  { s with
    buf := fill s.buf s.bufcnt.toNat (s.bufcnt.toNat + n) fun i => f (i - s.bufcnt.toNat)
    bufcnt := s.bufcnt + BitVec.ofNat 8 n
    msglen := s.msglen + BitVec.ofNat 64 n }

/-- Whether `n` more message bytes would take MSGLEN past LMAX, the sum taken as an exact integer (R130). -/
def lenOverflows (n : Nat) (s : State) : Bool := lmax s.alg < s.msglen.toNat + n

/-- `BUF[B−F .. B) <- BE_F(8 · MSGLEN)` (R84). For F = 16 and MSGLEN ≥ 2^61, R84's formula puts MSGLEN[63:61] in byte 7 of
the field, while its remark that bytes 0 to 7 are always 0x00 leaves no room for them; the model follows the formula
(log entry 22). -/
def putLength (s : State) (buf : Vector Byte 128) : Vector Byte 128 :=
  let p := params s.alg
  fill buf (p.blockBytes - p.lenBytes) p.blockBytes fun i =>
    beByte p.lenBytes (8 * s.msglen.toNat) (i - (p.blockBytes - p.lenBytes))

/-- `pad_first` (R83): 0x80 after the message bytes, then zeros, and the length field when it fits in this block. -/
def padFirst (s : State) : State :=
  let p := params s.alg
  let r := s.bufcnt.toNat
  let marked := fill s.buf r (r + 1) fun _ => 0x80
  if r ≤ p.blockBytes - p.lenBytes - 1 then
    { s with
      buf := putLength s (fill marked (r + 1) (p.blockBytes - p.lenBytes) fun _ => 0)
      npb := .one }
  else
    { s with
      buf := fill marked (r + 1) p.blockBytes fun _ => 0
      npb := .two }

/-- `pad_second` (R83): zeros and the length field. -/
def padSecond (s : State) : State :=
  let p := params s.alg
  { s with buf := putLength s (fill s.buf 0 (p.blockBytes - p.lenBytes) fun _ => 0) }

/-! ## The derivation of the SHA-512/t IVs -/

/-- The ASCII label of the derivation of ALG 5 or 6: "SHA-512/224" or "SHA-512/256" (R107). -/
def labelBytes (alg : BitVec 3) : List Byte :=
  [0x53, 0x48, 0x41, 0x2D, 0x35, 0x31, 0x32, 0x2F] ++
    (if alg = 5 then [0x32, 0x32, 0x34] else [0x32, 0x35, 0x36])

/-- Byte i of LBL_a, the padded label: the 11 label bytes, 0x80, 100 zeros and BE_16(88) (R107). -/
def labelBlockByte (alg : BitVec 3) (i : Nat) : Byte :=
  if i < 11 then (labelBytes alg).getD i 0
  else if i = 11 then 0x80
  else if i < 112 then 0
  else beByte 16 88 (i - 112)

/-- Word i of the derivation's seed: IV512[i] XOR 0xA5A5A5A5A5A5A5A5 (R108). -/
def seedWord (i : Nat) : Cell := iv512.getD i 0 ^^^ 0xA5A5A5A5A5A5A5A5

/-- `derive_start` (R108). -/
def deriveStart (a : BitVec 3) (s : State) : State :=
  { s with
    h := fill s.h 0 8 seedWord
    buf := fill s.buf 0 128 (labelBlockByte a)
    opk := .derive
    pb := 0
    npb := .one
    ph := .load }

/-- `derive_finish` (R108): H, which holds the derived IV, goes to the cache of ALG, and its valid bit is set. -/
def deriveFinish (s : State) : State :=
  if s.alg = 5 then { s with div224 := s.h, divv224 := true, opk := .none }
  else if s.alg = 6 then { s with div256 := s.h, divv256 := true, opk := .none }
  else { s with opk := .none }

/-! ## The finalizer -/

/-- Byte i of S, the big-endian serialization of the HashState words (R111). -/
def serialByte (s : State) (i : Nat) : Byte :=
  let W := (params s.alg).width
  beByte W.bytes (word W s.h (i / W.bytes)).toNat (i % W.bytes)

/-- `serialize` (R111): DIG receives the first DLEN bytes of S, and zeros after them (R110). -/
def serialize (s : State) : State :=
  { s with dig := fill (fill s.dig 0 (params s.alg).dlen (serialByte s)) (params s.alg).dlen 64 fun _ => 0 }

/-- `final_finish` (R112). -/
def finalFinish (s : State) : State :=
  { s with js := .done, bufcnt := 0, opk := .none }

/-! ## Hardware reset -/

/-- The phase numbered by its place in R18's list. -/
def phaseOf : Fin 6 → Phase
  | 0 => .load
  | 1 => .expand
  | 2 => .wrload
  | 3 => .round
  | 4 => .feed
  | 5 => .next

/-- Whether the host's next access is held: BUSY = 1, and it is an operation other than a STATUS read (R116). -/
def State.holds (s : State) : Bool :=
  s.busy &&
    match s.bus with
    | [] => false
    | a :: _ => waitsWhileBusy s.cfg.base a

/-- A hardware reset (R143): the valued elements take R33's values, the unspecified ones are drawn under no law (U13),
a held access ends with no effect, and what the host has seen and has yet to issue stays. -/
def hardReset (s : State) : State :=
  { State.reset with
    h := Config.drawH s.draws
    wr := Config.drawWR s.draws
    ws := Config.drawWS s.draws
    t := Config.drawT s.draws
    pb := Config.drawPB s.draws
    npb := if Config.drawNPB s.draws then .two else .one
    ph := phaseOf (Config.drawPH s.draws)
    buf := Config.drawBUF s.draws
    dig := Config.drawDIG s.draws
    div224 := Config.drawDIV224 s.draws
    div256 := Config.drawDIV256 s.draws
    rdata := s.rdata
    cfg := s.cfg
    bus := if s.holds then s.bus.tail else s.bus
    turns := s.turns
    draws := s.draws + 1 }

end Sys2Proof.Machine
end

