-- ==== Sys2Proof/Machine/Engine.lean ====
section
/-! DEFINITION. The engine: schedule expansion, rounds, feed-forward and the block sequencer (spec/42_schedule.md R87 to
R89; spec/43_compression.md R95 to R100). Each definition is one engine step. -/

namespace Sys2Proof.Machine

/-- The word width of the current algorithm (R62). -/
def State.width (s : State) : Width := (params s.alg).width

/-- LOAD (R87): the 16 big-endian words of the block. -/
def schedLoad (s : State) : State :=
  let W := s.width
  { s with
    ws := fill s.ws 0 16 fun j => writeCell W (beWord W fun k => s.buf.getD (j * W.bytes + k) 0)
    t := 16
    ph := .expand }

/-- After schedule entry T: T advances by 1, or at the last entry the phase changes (R88, R89). -/
def afterExpand (s : State) : State :=
  if s.t.val = (params s.alg).ns - 1 then { s with ph := .wrload } else { s with t := s.t + 1 }

/-- EXPAND2 (R88): one SHA-2 schedule entry. -/
def schedStep2 (s : State) : State :=
  let W := s.width
  let t := s.t.val
  let x := lcSigma1 W (word W s.ws (t - 2)) + word W s.ws (t - 7) + lcSigma0 W (word W s.ws (t - 15)) +
    word W s.ws (t - 16)
  afterExpand { s with ws := s.ws.set s.t.val (writeCell W x) }

/-- EXPAND1 (R89): one SHA-1 schedule entry. -/
def schedStep1 (s : State) : State :=
  let t := s.t.val
  let x : BitVec 32 := word .w32 s.ws (t - 3) ^^^ word .w32 s.ws (t - 8) ^^^ word .w32 s.ws (t - 14) ^^^
    word .w32 s.ws (t - 16)
  afterExpand { s with ws := s.ws.set s.t.val (writeCell .w32 (rotl x 1)) }

/-- WRLOAD (R95): the working registers from HashState. -/
def wrLoad (s : State) : State :=
  let W := s.width
  { s with
    wr := fill s.wr 0 (params s.alg).nh fun i => writeCell W (word W s.h i)
    t := 0
    ph := .round }

/-- After round T: T advances by 1, or at the last round the phase changes (R96, R98). -/
def afterRound (s : State) : State :=
  if s.t.val = (params s.alg).rounds - 1 then { s with ph := .feed } else { s with t := s.t + 1 }

/-- ROUND2 (R96): one SHA-2 round. -/
def round2 (s : State) : State :=
  let W := s.width
  let a := word W s.wr 0
  let b := word W s.wr 1
  let c := word W s.wr 2
  let d := word W s.wr 3
  let e := word W s.wr 4
  let f := word W s.wr 5
  let g := word W s.wr 6
  let h := word W s.wr 7
  let t1 := h + ucSigma1 W e + ch e f g + roundConstant2 W s.t.val + word W s.ws s.t.val
  let t2 := ucSigma0 W a + maj a b c
  afterRound { s with
    wr := #v[writeCell W (t1 + t2), writeCell W a, writeCell W b, writeCell W c,
      writeCell W (d + t1), writeCell W e, writeCell W f, writeCell W g] }

/-- f_t of a SHA-1 round, by the round's range (R97). -/
def roundFunction1 (t : Nat) (b c d : BitVec 32) : BitVec 32 :=
  if t < 20 then ch b c d
  else if t < 40 then parity b c d
  else if t < 60 then maj b c d
  else parity b c d

/-- ROUND1 (R98): one SHA-1 round. WR[5..7] are not written. -/
def round1 (s : State) : State :=
  let a : BitVec 32 := word .w32 s.wr 0
  let b : BitVec 32 := word .w32 s.wr 1
  let c : BitVec 32 := word .w32 s.wr 2
  let d : BitVec 32 := word .w32 s.wr 3
  let e : BitVec 32 := word .w32 s.wr 4
  let temp : BitVec 32 := rotl a 5 + roundFunction1 s.t.val b c d + e + roundConstant1 s.t.val +
    word .w32 s.ws s.t.val
  afterRound { s with
    wr := #v[writeCell .w32 temp, writeCell .w32 a, writeCell .w32 (rotl b 30), writeCell .w32 c,
      writeCell .w32 d, s.wr[5], s.wr[6], s.wr[7]] }

/-- FEED (R99): the Davies–Meyer feed-forward. -/
def feedForward (s : State) : State :=
  let W := s.width
  { s with
    h := fill s.h 0 (params s.alg).nh fun i => writeCell W (word W s.h i + word W s.wr i)
    ph := .next }

/-- NPB as a number (R18). -/
def PadBlocks.count : PadBlocks → Nat
  | .one => 1
  | .two => 2

/-- NEXT (R100): the end of a block. A data block is done; FINAL goes on to its second padded block, or ends the job; a
derivation fills its cache. -/
def nextStep (s : State) : State :=
  match s.opk with
  | .none => s
  | .block => { s with bufcnt := 0, opk := .none }
  | .final =>
    if s.pb.val + 1 < s.npb.count then { padSecond s with pb := s.pb + 1, ph := .load }
    else finalFinish (serialize s)
  | .derive => deriveFinish s

/-- One engine step (R100). It is taken only while OPK ≠ NONE. -/
def engineStep (s : State) : State :=
  match s.opk with
  | .none => s
  | _ =>
    match s.ph with
    | .load => schedLoad s
    | .expand => if s.alg = 0 then schedStep1 s else schedStep2 s
    | .wrload => wrLoad s
    | .round => if s.alg = 0 then round1 s else round2 s
    | .feed => feedForward s
    | .next => nextStep s

/-- `n` engine steps in a row. -/
def engineSteps : Nat → State → State
  | 0, s => s
  | n + 1, s => engineSteps n (engineStep s)

/-- The number of engine steps of one block (R102): 1 + (NS − 16) + 1 + R + 1 + 1. -/
def stepsPerBlock (alg : BitVec 3) : Nat := 1 + ((params alg).ns - 16) + 1 + (params alg).rounds + 1 + 1

end Sys2Proof.Machine
end

