-- ==== Sys2Proof/Machine/Commands.lean ====
section
/-! DEFINITION. The command writes: WR.CMD, NOP, INIT, FINAL, CMD.BADBITS and CMD.RSVD (spec/45_host_ops.md R118 to R122).
Each is the access's write step (R115): the engine work it starts follows in later steps. An access that is held does not
reach these definitions (Machine/Bus.lean). -/

namespace Sys2Proof.Machine

/-- A job for algorithm `a` opens: its algorithm, its state, and its counters (R120). -/
def newJob (a : BitVec 3) (s : State) : State :=
  { s with alg := a, js := .active, errcode := .none, msglen := 0, bufcnt := 0 }

/-- `op_init` (R120): a job for algorithm `a` starts, whatever the job state, with its IV in H: from IVROM, from the
cache, or by a derivation that starts now (R106). -/
def opInit (a : BitVec 3) (s : State) : State :=
  if a = 7 then raiseError .badAlg s
  else if a.toNat ≤ 4 then { newJob a s with h := fill s.h 0 (params a).nh fun i => (ivRom a).getD i 0 }
  else if a = 5 ∧ s.divv224 = true then { newJob a s with h := s.div224 }
  else if a = 6 ∧ s.divv256 = true then { newJob a s with h := s.div256 }
  else deriveStart a (newJob a s)

/-- `op_final` (R121): the tail bytes are appended, the block is padded, and the engine starts. -/
def opFinal (nb : BitVec 2) (tb0 tb1 tb2 : Byte) (s : State) : State :=
  if s.js ≠ .active then raiseError .notActive s
  else if lenOverflows nb.toNat s then raiseError .lenOverflow s
  else { padFirst (appendBytes nb.toNat (tailByte tb0 tb1 tb2) s) with opk := .final, pb := 0, ph := .load }

/-- `op_rsvd` (R122): a malformed command word. -/
def opRsvd (s : State) : State := raiseError .badCmd s

/-- NOP (R119). -/
def execNop (s : State) : Host.Outcome State Fault Refusal := .next s

/-- INIT (R120). -/
def execInit (a : BitVec 3) (s : State) : Host.Outcome State Fault Refusal := .next (opInit a s)

/-- FINAL (R121). -/
def execFinal (nb : BitVec 2) (tb0 tb1 tb2 : Byte) (s : State) : Host.Outcome State Fault Refusal :=
  .next (opFinal nb tb0 tb1 tb2 s)

/-- CMD.BADBITS.NOP (R122). The word has no effect but the error record. -/
def execBadBitsNop (_v : BusWord) (s : State) : Host.Outcome State Fault Refusal := .next (opRsvd s)

/-- CMD.BADBITS.INIT (R122). -/
def execBadBitsInit (_v : BusWord) (s : State) : Host.Outcome State Fault Refusal := .next (opRsvd s)

/-- CMD.BADBITS.FINAL (R122). -/
def execBadBitsFinal (_v : BusWord) (s : State) : Host.Outcome State Fault Refusal := .next (opRsvd s)

/-- CMD.RSVD (R122). -/
def execCmdRsvd (_v : BusWord) (s : State) : Host.Outcome State Fault Refusal := .next (opRsvd s)

/-- WR.CMD (R118): the operation that the cmd rows select. -/
def execWrCmd (v : BusWord) (s : State) : Host.Outcome State Fault Refusal :=
  .next (selectCmd v s (fun a => opInit a s) (fun nb tb0 tb1 tb2 => opFinal nb tb0 tb1 tb2 s)
    (opRsvd s) (opRsvd s) (opRsvd s) (opRsvd s))

end Sys2Proof.Machine
end

