-- ==== Sys2Proof/Machine/Writes.lean ====
section
/-! DEFINITION. The data write and the ignored writes: WR.DATA and WR.IGNORED (spec/45_host_ops.md R123;
spec/20_memory.md R36). -/

namespace Sys2Proof.Machine

/-- When the block is full, its compression starts (R123). -/
def startFullBlock (s : State) : State :=
  if s.bufcnt.toNat = (params s.alg).blockBytes then { s with opk := .block, ph := .load } else s

/-- `wr_data` (R123): four message bytes, the earliest in the most significant byte. -/
def opData (v : BusWord) (s : State) : State :=
  if s.js ≠ .active then raiseError .notActive s
  else if lenOverflows 4 s then raiseError .lenOverflow s
  else startFullBlock (appendBytes 4 (laneByte v) s)

/-- WR.DATA (R123). -/
def execWrData (v : BusWord) (s : State) : Host.Outcome State Fault Refusal := .next (opData v s)

/-- WR.IGNORED (R36): a write to a read-only or reserved offset has no effect. -/
def execWrIgnored (_off : BitVec 7) (_v : BusWord) (s : State) : Host.Outcome State Fault Refusal := .next s

end Sys2Proof.Machine
end

