-- ==== Sys2Proof/Machine/Reads.lean ====
section
/-! DEFINITION. The reads: RD.STATUS, RD.MSGLEN_LO, RD.MSGLEN_HI, RD.DIGEST and RD.ZERO (spec/45_host_ops.md R124 to R126;
spec/20_memory.md R37, R38). A read has no effect on SHAENG; its value goes to the host. -/

namespace Sys2Proof.Machine

/-- A read returns `x` to the host and changes nothing else (R38). -/
def answer (x : BusWord) (s : State) : State := { s with rdata := x }

/-- RD.STATUS (R124). -/
def execRdStatus (s : State) : Host.Outcome State Fault Refusal := .next (answer s.status s)

/-- RD.MSGLEN_LO (R125): MSGLEN[31:0]. -/
def execRdMsglenLo (s : State) : Host.Outcome State Fault Refusal := .next (answer (s.msglen.extractLsb' 0 32) s)

/-- RD.MSGLEN_HI (R125): MSGLEN[63:32]. -/
def execRdMsglenHi (s : State) : Host.Outcome State Fault Refusal := .next (answer (s.msglen.extractLsb' 32 32) s)

/-- RD.DIGEST (R126): word i of the digest latch. -/
def execRdDigest (i : BitVec 4) (s : State) : Host.Outcome State Fault Refusal :=
  .next (answer (digestWord s.dig i) s)

/-- RD.ZERO (R37): a write-only or reserved offset reads as zero. -/
def execRdZero (_off : BitVec 7) (s : State) : Host.Outcome State Fault Refusal := .next (answer 0 s)

end Sys2Proof.Machine
end

