-- ==== Sys2Proof/Machine/Dispatch.lean ====
section
/-! DEFINITION. The meaning of every host operation: one arm per constructor of Instr. -/

namespace Sys2Proof.Machine

def exec (i : Instr) (s : State) : Host.Outcome State Fault Refusal :=
  match i with
  | .wrCmd v => Sys2Proof.Machine.execWrCmd v s
  | .wrData v => Sys2Proof.Machine.execWrData v s
  | .rdStatus => Sys2Proof.Machine.execRdStatus s
  | .rdMsglenLo => Sys2Proof.Machine.execRdMsglenLo s
  | .rdMsglenHi => Sys2Proof.Machine.execRdMsglenHi s
  | .rdDigest n => Sys2Proof.Machine.execRdDigest n s
  | .wrIgnored off v => Sys2Proof.Machine.execWrIgnored off v s
  | .rdZero off => Sys2Proof.Machine.execRdZero off s
  | .nop => Sys2Proof.Machine.execNop s
  | .init a => Sys2Proof.Machine.execInit a s
  | .final nb tb0 tb1 tb2 => Sys2Proof.Machine.execFinal nb tb0 tb1 tb2 s
  | .badBitsNop v => Sys2Proof.Machine.execBadBitsNop v s
  | .badBitsInit v => Sys2Proof.Machine.execBadBitsInit v s
  | .badBitsFinal v => Sys2Proof.Machine.execBadBitsFinal v s
  | .cmdRsvd v => Sys2Proof.Machine.execCmdRsvd v s

end Sys2Proof.Machine
end

