-- ==== Sys2Proof/Machine/Bus.lean ====
section
/-! DEFINITION. The two agents and the reset: which of them moves at a transition, and how a host access reaches its
meaning (spec/10_state.md R13; spec/20_memory.md R34, R35, R45; spec/45_host_ops.md R115, R116;
spec/70_reset_and_hazards.md R143). -/

namespace Sys2Proof.Machine

/-- The refusal of a host access that is no operation of SHAENG (R34, R35). -/
def refusalOf : Reject → Refusal
  | .notWordWide => .notWordWide
  | .outsideWindow => .outsideWindow
  | .misaligned => .misaligned

/-- The access at the head of `bus` takes effect as one transition (R115), its operation decoded from its address, width
and value. -/
def takeAccess (a : BusAccess) (s : State) : Host.Outcome State Fault Refusal :=
  match decodeAccess s.cfg.base a with
  | .ok i => exec i s
  | .error r => .refused (refusalOf r)

/-- The host's turn. An operation other than a STATUS read is held while BUSY = 1, and the engine steps instead (R116); an
access that is no operation is refused, whatever BUSY is (R35). When the host has issued nothing, the engine steps if it is busy; otherwise SHAENG is idle and keeps its state (R142). -/
def hostTurn (s : State) : Host.Outcome State Fault Refusal :=
  match s.bus with
  | [] => .next (engineStep s)
  | a :: rest => if s.holds then .next (engineStep s) else takeAccess a { s with bus := rest }

/-- The engine's turn: a step while BUSY = 1; the engine has none while it is idle, and the host moves (R116). -/
def engineTurn (s : State) : Host.Outcome State Fault Refusal :=
  if s.busy then .next (engineStep s) else hostTurn s

/-- One transition: the environment's next choice, if it made one, says who moves; otherwise the host does whenever it
may. A reset takes precedence over everything (R133, R143). -/
def transition (s : State) : Host.Outcome State Fault Refusal :=
  match s.turns with
  | [] => hostTurn s
  | .host :: ts => hostTurn { s with turns := ts }
  | .engine :: ts => engineTurn { s with turns := ts }
  | .reset :: ts => .next (hardReset { s with turns := ts })

/-- The host issues the access that carries `tr` before anything it has yet to issue, and the next transition is the
host's. -/
def issueFirst (tr : Transfer) (s : State) : State :=
  { s with bus := accessOf s.cfg.base tr :: s.bus, turns := .host :: s.turns }

end Sys2Proof.Machine
end

