-- ==== Sys2Proof/Machine/Step.lean ====
section
/-! DEFINITION. The step function, and how a single operation is placed where the next step runs it. -/

namespace Sys2Proof.Machine

/-- One step of the machine: one transition of the host, of the engine, or of a reset (spec/10_state.md R13). -/
def step (s : State) : Host.Outcome State Fault Refusal := transition s

/-- `s` with the operation of a table word issued as the host's next access (log entry 5). SHAENG fetches nothing (R48):
this is the host issuing an access. A cmd row is a write of the word to CMD. -/
def State.withFetchWord (s : State) (nbits w : Nat) : State := issueFirst (transferOfWord nbits w) s

end Sys2Proof.Machine
end

