-- ==== Sys2Proof/Machine/Assembler.lean ====
section
/-! DEFINITION. The host's assembler syntax and pseudo-instructions, as the accesses they stand for (spec/30_encoding.md
R59 to R61). The host's own control flow (`bnz`, `jmp`, `halt`) is no SHAENG operation (R60), so `wait` is its STATUS
reads. -/

namespace Sys2Proof.Machine.Assembler

/-- `wr <reg>, <imm32>` (R60). -/
def wr (base off : Nat) (v : BusWord) : BusAccess := ⟨base + off, 4, true, v⟩

/-- `rd <reg>` (R60). -/
def rd (base off : Nat) : BusAccess := ⟨base + off, 4, false, 0⟩

/-- `nop` (R60). -/
def nop (base : Nat) : BusAccess := wr base 0x00 0

/-- `init <alg>` (R60). -/
def init (base : Nat) (alg : BitVec 3) : BusAccess := wr base 0x00 (0x00000001 ||| (alg.setWidth 32 <<< 4))

/-- The bytes of a list packed into a bus word, the first in bits [31:24]; a missing byte is 0 (R53, R55, R60). -/
def pack (bytes : List Byte) : BusWord :=
  bytes.getD 0 0 ++ bytes.getD 1 0 ++ bytes.getD 2 0 ++ bytes.getD 3 0

/-- `final b0, b1, b2` with the given bytes, at most three (R60). -/
def final (base : Nat) (bytes : List Byte) : BusAccess :=
  wr base 0x00 (0x00000002 ||| (BitVec.ofNat 32 bytes.length <<< 4) ||| pack bytes)

/-- `data <imm32>` (R60). -/
def data (base : Nat) (v : BusWord) : BusAccess := wr base 0x08 v

/-- `hash <alg>, "<bytes>"`: INIT, one DATA per complete group of four bytes, and FINAL with the rest (R61). -/
def hash (base : Nat) (alg : BitVec 3) (m : List Byte) : List BusAccess :=
  init base alg :: (List.range (m.length / 4)).map (fun k => data base (pack ((m.drop (4 * k)).take 4))) ++
    [final base (m.drop (4 * (m.length / 4)))]

/-- `rddigest`: DIGESTi for i below DLEN / 4 (R61). -/
def rdDigest (base : Nat) (alg : BitVec 3) : List BusAccess :=
  (List.range ((params alg).dlen / 4)).map fun i => rd base (0x40 + 4 * i)

/-- `n` turns of the loop of `wait` (R61). -/
def wait (base n : Nat) : List BusAccess := List.replicate n (rd base 0x04)

end Sys2Proof.Machine.Assembler
end

