-- ==== Sys2Proof/Machine/Reference.lean ====
section
/-! DEFINITION. The source's functions, as functions of lists: padding, the schedule, the compression of a block, the
derived IV, and the hash of a message (spec/41_padding.md R80; spec/42_schedule.md R87 to R89; spec/43_compression.md
R95 to R99; spec/44_variants.md R104 to R111; spec/45_host_ops.md R127). The machine does not call them; statements
compare it with them. -/

namespace Sys2Proof.Machine.Reference

/-! ## Padding -/

/-- BE_n(v) (R10). R10 defines it for v < 2^(8n); for a larger v the model takes v mod 2^(8n) (log entry 23). -/
def be (n v : Nat) : List Byte := (List.range n).map (beByte n v)

/-- The least z ≥ 0 with (L + 1 + z) mod B = (B − F) mod B (R80); one below B always exists. -/
def zeroCount (len B F : Nat) : Nat :=
  ((List.range B).find? fun z => (len + 1 + z) % B == (B - F) % B).getD 0

/-- PAD(m, B, F) (R80). R80 defines it only when 8 · L < 2^(8F); for a longer message the model's length field is 8 · L mod
2^(8F), which no run computes (log entry 23). -/
def pad (m : List Byte) (B F : Nat) : List Byte :=
  m ++ [0x80] ++ List.replicate (zeroCount m.length B F) 0 ++ be F (8 * m.length)

/-- A padded message as consecutive blocks of B bytes (R85). -/
def blocks (B : Nat) (bytes : List Byte) : List (List Byte) :=
  (List.range (bytes.length / B)).map fun k => (bytes.drop (k * B)).take B

/-! ## The schedule -/

/-- The 16 big-endian words of a block (R87). -/
def loadWords (W : Width) (block : List Byte) : List (BitVec W.bits) :=
  (List.range 16).map fun j => beWord W fun k => block.getD (j * W.bytes + k) 0

/-- w[t] of the SHA-2 recurrence (R88). -/
def nextWord2 (W : Width) (w : List (BitVec W.bits)) (t : Nat) : BitVec W.bits :=
  lcSigma1 W (w.getD (t - 2) 0) + w.getD (t - 7) 0 + lcSigma0 W (w.getD (t - 15) 0) + w.getD (t - 16) 0

/-- w[t] of the SHA-1 recurrence (R89). -/
def nextWord1 (w : List (BitVec 32)) (t : Nat) : BitVec 32 :=
  rotl (w.getD (t - 3) 0 ^^^ w.getD (t - 8) 0 ^^^ w.getD (t - 14) 0 ^^^ w.getD (t - 16) 0) 1

/-- The first `16 + n` words of a schedule, from its first 16 and its recurrence. -/
def extend {w : Nat} (next : List (BitVec w) → Nat → BitVec w) (first : List (BitVec w)) : Nat → List (BitVec w)
  | 0 => first
  | n + 1 => extend next first n ++ [next (extend next first n) (16 + n)]

/-- The SHA-2 schedule of a block, `ns` words. -/
def schedule2 (W : Width) (ns : Nat) (block : List Byte) : List (BitVec W.bits) :=
  extend (nextWord2 W) (loadWords W block) (ns - 16)

/-- The SHA-1 schedule of a block, 80 words. -/
def schedule1 (block : List Byte) : List (BitVec 32) := extend nextWord1 (loadWords .w32 block) 64

/-! ## The rounds -/

/-- The working registers a to h of a SHA-2 block. -/
structure Regs2 (w : Nat) where
  a : BitVec w
  b : BitVec w
  c : BitVec w
  d : BitVec w
  e : BitVec w
  f : BitVec w
  g : BitVec w
  h : BitVec w
  deriving DecidableEq, Repr

/-- The working registers a to e of a SHA-1 block. -/
structure Regs1 where
  a : BitVec 32
  b : BitVec 32
  c : BitVec 32
  d : BitVec 32
  e : BitVec 32
  deriving DecidableEq, Repr

/-- One SHA-2 round t with schedule word `w` (R96). -/
def roundStep2 (W : Width) (t : Nat) (w : BitVec W.bits) (r : Regs2 W.bits) : Regs2 W.bits :=
  let t1 := r.h + ucSigma1 W r.e + ch r.e r.f r.g + roundConstant2 W t + w
  let t2 := ucSigma0 W r.a + maj r.a r.b r.c
  ⟨t1 + t2, r.a, r.b, r.c, r.d + t1, r.e, r.f, r.g⟩

/-- One SHA-1 round t with schedule word `w` (R97, R98). -/
def roundStep1 (t : Nat) (w : BitVec 32) (r : Regs1) : Regs1 :=
  ⟨rotl r.a 5 + roundFunction1 t r.b r.c r.d + r.e + roundConstant1 t + w, r.a, rotl r.b 30, r.c, r.d⟩

/-- The registers after the first `n` SHA-2 rounds. -/
def rounds2 (W : Width) (ws : List (BitVec W.bits)) (r : Regs2 W.bits) : Nat → Regs2 W.bits
  | 0 => r
  | n + 1 => roundStep2 W n (ws.getD n 0) (rounds2 W ws r n)

/-- The registers after the first `n` SHA-1 rounds. -/
def rounds1 (ws : List (BitVec 32)) (r : Regs1) : Nat → Regs1
  | 0 => r
  | n + 1 => roundStep1 n (ws.getD n 0) (rounds1 ws r n)

/-! ## The compression of a block -/

/-- The working registers a to h of a SHA-2 block loaded from HashState `h` (R95). -/
def load2 (W : Width) (h : List (BitVec W.bits)) : Regs2 W.bits :=
  ⟨h.getD 0 0, h.getD 1 0, h.getD 2 0, h.getD 3 0, h.getD 4 0, h.getD 5 0, h.getD 6 0, h.getD 7 0⟩

/-- The eight registers in their order. -/
def Regs2.words {w : Nat} (r : Regs2 w) : List (BitVec w) := [r.a, r.b, r.c, r.d, r.e, r.f, r.g, r.h]

/-- The registers a to h after `n` SHA-2 rounds over the schedule `ws`, from HashState `h`. -/
def registersAfter (W : Width) (ws h : List (BitVec W.bits)) (n : Nat) : List (BitVec W.bits) :=
  (rounds2 W ws (load2 W h) n).words

/-- A SHA-2 block: the registers loaded from HashState, R rounds, and the feed-forward (R95, R96, R99). -/
def compress2 (W : Width) (ns rounds : Nat) (h : List (BitVec W.bits)) (block : List Byte) : List (BitVec W.bits) :=
  List.zipWith (· + ·) (load2 W h).words (registersAfter W (schedule2 W ns block) h rounds)

/-- A SHA-1 block (R95, R98, R99). -/
def compress1 (h : List (BitVec 32)) (block : List Byte) : List (BitVec 32) :=
  let r0 : Regs1 := ⟨h.getD 0 0, h.getD 1 0, h.getD 2 0, h.getD 3 0, h.getD 4 0⟩
  let r := rounds1 (schedule1 block) r0 80
  [r0.a + r.a, r0.b + r.b, r0.c + r.c, r0.d + r.d, r0.e + r.e]

/-- The compression function of an algorithm, on HashState words held as 64-bit cells (R16). -/
def compress (alg : BitVec 3) (h : List Cell) (block : List Byte) : List Cell :=
  let p := params alg
  if alg = 0 then (compress1 (h.map (readCell .w32)) block).map (writeCell .w32)
  else (compress2 p.width p.ns p.rounds (h.map (readCell p.width)) block).map (writeCell p.width)

/-! ## Initial values and the hash -/

/-- The padded label LBL_a: PAD of the 11 label bytes (R107). -/
def labelBlock (alg : BitVec 3) : List Byte := pad (labelBytes alg) 128 16

/-- The derived IV of ALG 5 or 6: one SHA-512 block over the padded label, from the seed (R108). -/
def derivedIv (alg : BitVec 3) : List Cell := compress alg ((List.range 8).map seedWord) (labelBlock alg)

/-- The IV of an algorithm (R106). -/
def iv (alg : BitVec 3) : List Cell := if alg = 5 ∨ alg = 6 then derivedIv alg else ivRom alg

/-- The HashState after all blocks of the padded message (R85, R104). -/
def finalState (alg : BitVec 3) (m : List Byte) : List Cell :=
  (blocks (params alg).blockBytes (pad m (params alg).blockBytes (params alg).lenBytes)).foldl (compress alg) (iv alg)

/-- The serialization S of HashState (R111). -/
def serial (alg : BitVec 3) (h : List Cell) : List Byte :=
  let W := (params alg).width
  h.flatMap fun c => be W.bytes (readCell W c).toNat

/-- The digest of a message: the first DLEN bytes of S (R110, R127). -/
def hash (alg : BitVec 3) (m : List Byte) : List Byte :=
  (serial alg (finalState alg m)).take (params alg).dlen

end Sys2Proof.Machine.Reference
end

