-- ==== Sys2Proof/Safety.lean ====
section
/-! DEFINITION. What holds in every state a run of SHAENG reaches, and how far the engine has come in a block: the terms the
statements use. -/

namespace Sys2Proof.Machine

/-- The window's address and the job's bookkeeping agree with the rules: BASE (R34), the job state and the error code (R20,
R21, R22), the byte counters (R23, R27, R32, R121, R123, R130), and the sequencer (R17, R18, R108). -/
structure State.JobInv (s : State) : Prop where
  base_aligned : s.cfg.wf
  error_has_code : s.js = .error ↔ s.errcode ≠ .none
  busy_active : s.busy = true → s.js = .active
  has_algorithm : s.js = .active ∨ s.js = .done → s.alg ≠ 7
  no_job : s.js = .none → s.alg = 7 ∧ s.msglen = 0
  no_algorithm : s.alg = 7 → s.msglen = 0
  msglen_le : s.msglen.toNat ≤ lmax s.alg
  bufcnt_le : s.bufcnt.toNat ≤ (params s.alg).blockBytes
  bufcnt_idle : s.busy = false → s.js = .active →
    s.bufcnt.toNat = s.msglen.toNat % (params s.alg).blockBytes ∧ s.bufcnt.toNat % 4 = 0
  bufcnt_block : s.opk = .block →
    s.bufcnt.toNat = (params s.alg).blockBytes ∧ s.msglen.toNat % (params s.alg).blockBytes = 0
  bufcnt_final : s.opk = .final → s.bufcnt.toNat = s.msglen.toNat % (params s.alg).blockBytes
  derive_fresh : s.opk = .derive → s.msglen = 0 ∧ s.bufcnt = 0
  derive_needed : s.opk = .derive → (s.alg = 5 ∧ s.divv224 = false) ∨ (s.alg = 6 ∧ s.divv256 = false)
  padded_blocks : s.opk = .final → s.pb.val < s.npb.count ∧
    (s.npb = .two ↔ (params s.alg).blockBytes - (params s.alg).lenBytes ≤ s.bufcnt.toNat)
  expand_range : s.busy = true → s.ph = .expand → 16 ≤ s.t.val ∧ s.t.val < (params s.alg).ns
  round_range : s.busy = true → s.ph = .round → s.t.val < (params s.alg).rounds

/-- A cell holds a word of width W: its bits above W are 0 (R16). -/
def fits (W : Width) (c : Cell) : Prop := c.toNat < 2 ^ W.bits

/-- The cells the current job reads hold words of its width (R16): the HashState of an active job, the schedule entries
loaded or expanded so far, and the working registers once loaded. -/
structure State.CellInv (s : State) : Prop where
  hash_state : s.js = .active → ∀ i (_ : i < 8), i < (params s.alg).nh → fits s.width s.h[i]
  schedule : s.busy = true → ∀ i (_ : i < 80),
    (s.ph = .expand ∧ i < s.t.val ∨ (s.ph = .wrload ∨ s.ph = .round ∨ s.ph = .feed ∨ s.ph = .next) ∧ i < (params s.alg).ns) →
    fits s.width s.ws[i]
  working : s.busy = true → s.ph = .round ∨ s.ph = .feed ∨ s.ph = .next →
    ∀ i (_ : i < 8), i < (params s.alg).nh → fits s.width s.wr[i]

/-- The first B bytes of BUF: the block the sequencer is processing (R27). -/
def State.block (s : State) : List Byte := s.buf.toList.take (params s.alg).blockBytes

/-- The first NH words of HashState, as cells (R14). -/
def State.hashState (s : State) : List Cell := s.h.toList.take (params s.alg).nh

/-- The host accesses of a job of the pseudo-instruction `hash` are all that the host has issued, and no reset is to come
(R61). -/
abbrev State.issuesHash (s : State) (alg : BitVec 3) (m : List Byte) : Prop :=
  s.bus = Assembler.hash s.cfg.base alg m ∧ Turn.reset ∉ s.turns

/-- A valid bit is 1 only while its cache holds the derived IV (R29). -/
abbrev State.CachesRight (s : State) : Prop :=
  (s.divv224 = true → s.div224.toList = Reference.derivedIv 5) ∧
    (s.divv256 = true → s.div256.toList = Reference.derivedIv 6)

/-- The derivation in progress is on its way to the derived IV (R108): what H, WR, WS and BUF hold at each phase, in terms of
the source's functions. -/
structure State.DeriveProgress (s : State) : Prop where
  label : s.ph = .load → s.buf.toList = Reference.labelBlock s.alg
  seed : s.ph ≠ .next → s.h.toList = (List.range 8).map seedWord
  expanding : s.ph = .expand → 16 ≤ s.t.val ∧
    ∀ i (_ : i < 80), i < s.t.val → (Reference.schedule2 .w64 80 (Reference.labelBlock s.alg))[i]? = some s.ws[i]
  expanded : s.ph = .wrload ∨ s.ph = .round → s.ws.toList = Reference.schedule2 .w64 80 (Reference.labelBlock s.alg)
  rounds : s.ph = .round →
    s.wr.toList = Reference.registersAfter .w64 (Reference.schedule2 .w64 80 (Reference.labelBlock s.alg)) s.h.toList s.t.val
  rounded : s.ph = .feed →
    s.wr.toList = Reference.registersAfter .w64 (Reference.schedule2 .w64 80 (Reference.labelBlock s.alg)) s.h.toList 80
  derived : s.ph = .next → s.h.toList = Reference.derivedIv s.alg

/-- The caches are right, and a derivation in progress will make its cache right (R29, R108). -/
structure State.CacheInv (s : State) : Prop where
  caches : s.CachesRight
  deriving_algorithm : s.opk = .derive → s.alg = 5 ∨ s.alg = 6
  progress : s.opk = .derive → s.DeriveProgress

end Sys2Proof.Machine
end

