-- ==== Sys2Proof/Certificates/Slice0/Obligations.lean ====
section
/-! DEFINITION. The statements for the provers. Each docstring names the rule of spec/ it formalises, or the sections it
rests on. -/

open Sys2Proof Sys2Proof.Machine

/-! ## Encoding -/

/-- 30_encoding.md sections 1 and 3: descriptors and command words written out from the encodings of R51 to R56, numbered as
the opcode table numbers them, decode to the operations they stand for; a TD with TD[1:0] ≠ 00 decodes to none. (The table
gives a write's value no bits: that the two 40-bit words carry it above the TD, and that a bare 8-bit write descriptor
carries 0, is the model's choice: log entry 5.) -/
def Obligations.TableWordsDecodeAsWritten : Prop :=
  decodeTableWord 8 0b10000000 = some (.wrCmd 0) ∧
  decodeTableWord 40 (0x61626332 * 256 + 0b10000000) = some (.wrCmd 0x61626332) ∧
  decodeTableWord 40 (0x61626364 * 256 + 0b10001000) = some (.wrData 0x61626364) ∧
  decodeTableWord 8 0b00000100 = some .rdStatus ∧
  decodeTableWord 8 0b00001100 = some .rdMsglenLo ∧
  decodeTableWord 8 0b00010000 = some .rdMsglenHi ∧
  decodeTableWord 8 0b01010100 = some (.rdDigest 5) ∧
  decodeTableWord 8 0b10001100 = some (.wrIgnored 0b0001100 0) ∧
  decodeTableWord 8 0b00111000 = some (.rdZero 0b0111000) ∧
  decodeTableWord 32 0b00000000000000000000000000000000 = some .nop ∧
  decodeTableWord 32 0b00000000000000000000000001010001 = some (.init 5) ∧
  decodeTableWord 32 0b01100001011000100110001100110010 = some (.final 3 0x61 0x62 0x63) ∧
  decodeTableWord 32 0b00000000000000000000000000010000 = some (.badBitsNop 0x10) ∧
  decodeTableWord 32 0b00000000000000000000000010000001 = some (.badBitsInit 0x81) ∧
  decodeTableWord 32 0b00000000000000000000000011000010 = some (.badBitsFinal 0xC2) ∧
  decodeTableWord 32 0b00000000000000000000000000010011 = some (.cmdRsvd 0x13) ∧
  decodeTableWord 8 0b00000101 = none

/-- R57: the decision procedure of a command word as the rule's pseudocode gives it, and the bus rows as R56 lists the
descriptors they select; the first-match order of the table gives exactly these. -/
def Obligations.DecodingFollowsTheProcedure : Prop :=
  (∀ v : BusWord, decodeCmd v =
    if v.extractLsb' 0 4 = 0 then
      (if v = 0 then .nop else .badBitsNop v)
    else if v.extractLsb' 0 4 = 1 then
      (if v.extractLsb' 7 25 = 0 then .init (v.extractLsb' 4 3) else .badBitsInit v)
    else if v.extractLsb' 0 4 = 2 then
      (if v.extractLsb' 6 2 = 0 then
        .final (v.extractLsb' 4 2) (v.extractLsb' 24 8) (v.extractLsb' 16 8) (v.extractLsb' 8 8)
      else .badBitsFinal v)
    else .cmdRsvd v) ∧
  (∀ (td : BitVec 8) (v : BusWord), decodeBus td v =
    if td.extractLsb' 0 2 ≠ 0 then none
    else if td = 0x80 then some (.wrCmd v)
    else if td = 0x88 then some (.wrData v)
    else if td = 0x04 then some .rdStatus
    else if td = 0x0C then some .rdMsglenLo
    else if td = 0x10 then some .rdMsglenHi
    else if 0x40 ≤ td.toNat ∧ td.toNat ≤ 0x7C then some (.rdDigest (td.extractLsb' 2 4))
    else if td.extractLsb' 7 1 = 1 then some (.wrIgnored (td.extractLsb' 0 7) v)
    else some (.rdZero (td.extractLsb' 0 7)))

/-- 30_encoding.md sections 1 to 4: decoding the encoding of any well-formed operation gives it back, with every operand at
every value its encoding admits. (That a read's encoding carries the value 0 is the model's choice: log entry 18.) -/
def Obligations.DecodeInvertsEncode : Prop :=
  ∀ i : Instr, i.wf = true → decode (encode i) = some i

/-- 30_encoding.md sections 1 to 4: every command word has exactly one reading, which is well formed and whose encoding is
the word; every transaction that decodes has one too, and the encoding is the transaction for a write, and the descriptor
for a read. (R51 gives a read no value: that its encoding carries the value 0, whatever value the transaction was given, is
the model's choice: log entry 18.) -/
def Obligations.EncodeInvertsDecode : Prop :=
  (∀ v : BusWord, (decodeCmd v).wf = true ∧ encode (decodeCmd v) = .cmd v) ∧
  (∀ (td : BitVec 8) (v : BusWord) (i : Instr), decodeBus td v = some i →
    i.wf = true ∧
      (td.extractLsb' 7 1 = 1 → encode i = .bus td v) ∧
      (td.extractLsb' 7 1 = 0 → encode i = .bus td 0))

/-! ## Steps -/

/-- 10_state.md section 1 and 45_host_ops.md section 1 (R13, R115): when the host's next access decodes to `i` and is not
held, a step on which no reset comes is `exec` of `i`, with the access, and the environment's choice if it made one,
used up. (How the choice of the next agent is held in State is the model's: log entry 2.) -/
def Obligations.StepRunsTheDecodedAccess : Prop :=
  ∀ (s : State) (a : BusAccess) (rest : List BusAccess) (i : Instr),
    s.bus = a :: rest → decodeAccess s.cfg.base a = .ok i →
    (s.busy = false ∧ s.turns.head? ≠ some .reset ∨
      i = .rdStatus ∧ (s.turns = [] ∨ s.turns.head? = some .host)) →
    step s = exec i { s with bus := rest, turns := s.turns.tail }

/-- 30_encoding.md R51, R52 (log entry 5): the operation that a table word stands for, issued as the host's next access, is
run by the very next step, in the state it was issued in. -/
def Obligations.FetchWordRunsItsInstruction : Prop :=
  ∀ (s : State) (nbits w : Nat) (i : Instr), decodeTableWord nbits w = some i →
    s.busy = false ∨ i = .rdStatus →
    step (s.withFetchWord nbits w) = exec i s

/-- 20_memory.md section 2 (R35): on the host's turn, whatever BUSY is, an access that is not 32 bits wide, or whose offset in
the window is no multiple of 4, is refused; an aligned 32-bit access to the window is one of the operations, and takes
effect unless it is held. (That a malformed access is refused while BUSY = 1 too, and not held first, is the model's reading
of R35 beside R116: log entry 13. When the host's turn comes is the model's `turns`: log entry 2.) -/
def Obligations.OnlyAlignedWordAccessesHaveMeaning : Prop :=
  ∀ (s : State) (a : BusAccess) (rest : List BusAccess),
    s.bus = a :: rest →
    (s.turns = [] ∨ s.turns.head? = some .host ∨ s.busy = false ∧ s.turns.head? ≠ some .reset) →
    (a.bytes ≠ 4 → step s = .refused .notWordWide) ∧
    (a.bytes = 4 → s.cfg.base ≤ a.addr → a.addr ≤ s.cfg.base + 0x7F →
      ((a.addr - s.cfg.base) % 4 ≠ 0 → step s = .refused .misaligned) ∧
      ((a.addr - s.cfg.base) % 4 = 0 → ∃ i, decodeAccess s.cfg.base a = .ok i ∧ i.wf = true ∧
        (s.busy = false ∨ i = .rdStatus →
          ∃ t, exec i { s with bus := rest, turns := s.turns.tail } = .next t ∧ step s = .next t)))

/-- 20_memory.md sections 1, 2 and 4 (R34, R35, R44; log entry 6 for an access outside the window): a step never stops
with a refusal but on a host access that is not 32 bits wide, lies outside the window, or is misaligned; and then it is no
reset, and no turn of the engine while BUSY = 1. (Turns are the model's: log entry 2.) -/
def Obligations.StepRefusesOnlyMeaninglessAccesses : Prop :=
  ∀ (s : State) (r : Refusal), step s = .refused r →
    s.turns.head? ≠ some .reset ∧ (s.turns.head? = some .engine → s.busy = false) ∧
    ∃ a rest, s.bus = a :: rest ∧
      (r = .notWordWide ∧ a.bytes ≠ 4 ∨
        r = .outsideWindow ∧ (a.addr < s.cfg.base ∨ s.cfg.base + 0x7F < a.addr) ∨
        r = .misaligned ∧ (a.addr - s.cfg.base) % 4 ≠ 0)

/-- 45_host_ops.md section 1 (R116): while BUSY = 1 an access other than a STATUS read is held: whichever agent's turn it is, the engine steps and the
access stays; a STATUS read is never held; every busy period of a state the rules allow ends, unless a reset comes, and
the held access then takes effect as if issued at that moment. (R116 says which transitions are enabled; which of them comes
next, and that the host moves first when `turns` is empty, is the model's choice: log entry 2.) -/
def Obligations.HeldAccessWaitsForTheEngine : Prop :=
  ∀ (s : State) (a : BusAccess) (rest : List BusAccess) (i : Instr),
    s.bus = a :: rest → decodeAccess s.cfg.base a = .ok i →
    (s.busy = true → i ≠ .rdStatus → s.turns.head? ≠ some .reset →
      step s = .next (engineStep { s with turns := s.turns.tail }) ∧
      (engineStep { s with turns := s.turns.tail }).bus = a :: rest) ∧
    (i = .rdStatus → s.turns = [] ∨ s.turns.head? = some .host →
      step s = exec i { s with bus := rest, turns := s.turns.tail }) ∧
    (s.JobInv → i ≠ .rdStatus → Turn.reset ∉ s.turns →
      ∃ n u, u = { engineSteps n s with turns := s.turns.drop n } ∧ Sys2Proof.core.run n s = .next u ∧
        u.busy = false ∧ u.bus = a :: rest ∧ step u = exec i { u with bus := rest, turns := u.turns.tail })

/-- 43_compression.md section 4 (R100) and 45_host_ops.md section 1 (R116): while the host has issued nothing, or its next
access is held (so it is an operation, not a malformed access, which is refused: log entry 13), the machine's steps are the
engine's, whichever agent's turns they are, while BUSY = 1 and no reset comes. (Turns are the model's: log entry 2.) -/
def Obligations.WaitingHostLeavesTheEngineToRun : Prop :=
  ∀ (n : Nat) (s : State), Turn.reset ∉ s.turns → (s.bus = [] ∨ s.holds = true) →
    (∀ k, k < n → (engineSteps k s).busy = true) →
    Sys2Proof.core.run n s = .next { engineSteps n s with turns := s.turns.drop n }

/-! ## Reads -/

/-- 45_host_ops.md section 4 and 20_memory.md section 2 (R38, R124 to R126, R37): every read answers the host and changes
nothing else, and a second read answers the same. -/
def Obligations.ReadsOnlyAnswerTheHost : Prop :=
  ∀ (s : State) (i : Instr),
    (i = .rdStatus ∨ i = .rdMsglenLo ∨ i = .rdMsglenHi ∨ (∃ n, i = .rdDigest n) ∨ (∃ off, i = .rdZero off)) →
    ∃ x, exec i s = .next { s with rdata := x } ∧
      exec i { s with rdata := x } = .next { s with rdata := x }

/-- 10_state.md section 4 and 45_host_ops.md section 4 (R20, R21, R24, R124): a STATUS read returns every field at its bits,
and 0 in the reserved bits, whatever the state, and changes nothing. -/
def Obligations.StatusReadReturnsTheFields : Prop :=
  ∀ s : State, ∃ x, exec .rdStatus s = .next { s with rdata := x } ∧
    x.extractLsb' 0 1 = (if s.opk = .none then 0 else 1) ∧
    x.extractLsb' 1 2 = (match s.js with | .none => 0 | .active => 1 | .done => 2 | .error => 3) ∧
    x.extractLsb' 3 1 = 0 ∧
    x.extractLsb' 4 4 =
      (match s.errcode with | .none => 0 | .badCmd => 1 | .badAlg => 2 | .notActive => 3 | .lenOverflow => 4) ∧
    x.extractLsb' 8 3 = s.alg ∧
    x.extractLsb' 11 1 = (if s.divv224 = true then 1 else 0) ∧
    x.extractLsb' 12 1 = (if s.divv256 = true then 1 else 0) ∧
    x.extractLsb' 13 3 = 0 ∧
    (x.extractLsb' 16 7).toNat =
      (match s.alg.toNat with | 0 => 20 | 1 => 28 | 2 => 32 | 3 => 48 | 4 => 64 | 5 => 28 | 6 => 32 | _ => 0) ∧
    x.extractLsb' 23 9 = 0

/-- 45_host_ops.md section 4 (R125): the two halves of MSGLEN, and nothing changes. -/
def Obligations.MsglenReadsReturnTheHalves : Prop :=
  ∀ s : State, ∃ lo hi, exec .rdMsglenLo s = .next { s with rdata := lo } ∧
    exec .rdMsglenHi s = .next { s with rdata := hi } ∧
    hi.toNat * 2 ^ 32 + lo.toNat = s.msglen.toNat

/-- 30_encoding.md section 1 and 45_host_ops.md section 4 (R54, R126): DIGESTi returns DIG[4i] to DIG[4i+3], the first in
bits [31:24], in every job state, and nothing changes. -/
def Obligations.DigestReadReturnsFourBytes : Prop :=
  ∀ (s : State) (i : BitVec 4), ∃ x, exec (.rdDigest i) s = .next { s with rdata := x } ∧
    x.extractLsb' 24 8 = s.dig.toList.getD (4 * i.toNat) 0 ∧
    x.extractLsb' 16 8 = s.dig.toList.getD (4 * i.toNat + 1) 0 ∧
    x.extractLsb' 8 8 = s.dig.toList.getD (4 * i.toNat + 2) 0 ∧
    x.extractLsb' 0 8 = s.dig.toList.getD (4 * i.toNat + 3) 0

/-- R37: a read of CMD, DATA or a reserved offset is RD.ZERO, which returns 0 and has no other effect. -/
def Obligations.WriteOnlyAndReservedOffsetsReadZero : Prop :=
  ∀ (off : BitVec 7) (v : BusWord),
    off = 0x00 ∨ off = 0x08 ∨ (0x14 ≤ off.toNat ∧ off.toNat ≤ 0x3C ∧ off.toNat % 4 = 0) →
    decodeBus (descriptor false off) v = some (.rdZero off) ∧
    ∀ s : State, exec (.rdZero off) s = .next { s with rdata := 0 }

/-! ## Writes without effect, and errors -/

/-- R36: a write to STATUS, MSGLEN_LO, MSGLEN_HI, a DIGEST register or a reserved offset is WR.IGNORED, which has no effect;
it is still held while BUSY = 1. -/
def Obligations.WritesToReadOnlyOffsetsAreIgnored : Prop :=
  ∀ (off : BitVec 7) (v : BusWord),
    off = 0x04 ∨ off = 0x0C ∨ off = 0x10 ∨
      (0x14 ≤ off.toNat ∧ off.toNat ≤ 0x3C ∨ 0x40 ≤ off.toNat ∧ off.toNat ≤ 0x7C) ∧ off.toNat % 4 = 0 →
    decodeBus (descriptor true off) v = some (.wrIgnored off v) ∧
    (∀ s : State, exec (.wrIgnored off v) s = .next s) ∧
    (∀ s : State, s.turns.head? ≠ some .reset → s.busy = true →
      ∀ rest, s.bus = ⟨s.cfg.base + off.toNat, 4, true, v⟩ :: rest →
        step s = .next (engineStep { s with turns := s.turns.tail }) ∧
        (engineStep { s with turns := s.turns.tail }).bus = s.bus)

/-- 45_host_ops.md section 2 (R119): NOP is the command word 0 alone, and has no effect in any state. -/
def Obligations.NopHasNoEffect : Prop :=
  (∀ v : BusWord, decodeCmd v = .nop ↔ v = 0) ∧ ∀ s : State, exec .nop s = .next s

/-- 45_host_ops.md section 2 and 60_exceptions.md section 1 (R122, R129): a malformed command word records BAD_CMD, keeping
an earlier code, and changes nothing else. -/
def Obligations.MalformedCommandRecordsBadCmd : Prop :=
  ∀ (s : State) (v : BusWord) (i : Instr),
    i = .badBitsNop v ∨ i = .badBitsInit v ∨ i = .badBitsFinal v ∨ i = .cmdRsvd v →
    exec i s = .next { s with js := .error, errcode := if s.js = .error then s.errcode else .badCmd }

/-- 60_exceptions.md sections 1 and 3 (R129, R130, R133): the checks of one access in R133's order. A malformed word is
BAD_CMD whatever else is wrong; INIT of ALG 7 is BAD_ALG; a DATA or FINAL without an active job is NOT_ACTIVE, whatever the
length; with one, it is LEN_OVERFLOW when the length would pass LMAX. Each records its code unless one is recorded already,
and changes nothing else. -/
def Obligations.ErrorsAreRecordedInPriorityOrder : Prop :=
  ∀ s : State,
    let record := fun code : ErrCode =>
      ({ s with js := .error, errcode := if s.js = .error then s.errcode else code } : State)
    (∀ v : BusWord, v.extractLsb' 0 4 = 0 ∧ v ≠ 0 ∨ v.extractLsb' 0 4 = 1 ∧ v.extractLsb' 7 25 ≠ 0 ∨
        v.extractLsb' 0 4 = 2 ∧ v.extractLsb' 6 2 ≠ 0 ∨ 3 ≤ (v.extractLsb' 0 4).toNat →
      exec (.wrCmd v) s = .next (record .badCmd)) ∧
    exec (.init 7) s = .next (record .badAlg) ∧
    (s.js ≠ .active → (∀ v, exec (.wrData v) s = .next (record .notActive)) ∧
      (∀ nb tb0 tb1 tb2, exec (.final nb tb0 tb1 tb2) s = .next (record .notActive))) ∧
    (s.js = .active →
      (∀ v, lmax s.alg < s.msglen.toNat + 4 → exec (.wrData v) s = .next (record .lenOverflow)) ∧
      (∀ nb tb0 tb1 tb2, lmax s.alg < s.msglen.toNat + nb.toNat →
        exec (.final nb tb0 tb1 tb2) s = .next (record .lenOverflow)))

/-! ## Commands and data -/

/-- 45_host_ops.md section 2 (R118): a write to CMD runs the operation its value selects, and always completes; and the
selected operation does. -/
def Obligations.CommandWriteRunsTheSelectedOperation : Prop :=
  ∀ (v : BusWord) (s : State), decodeBus 0x80 v = some (.wrCmd v) ∧
    exec (.wrCmd v) s = exec (decodeCmd v) s ∧ ∃ t, exec (.wrCmd v) s = .next t

/-- 45_host_ops.md section 2 and 44_variants.md section 2 (R105, R106, R120): in every job state, INIT of ALG 0 to 4 starts a
job: ALG, JS, ERRCODE, MSGLEN and BUFCNT are set, the first NH words of H are the published IV, and nothing else changes. -/
def Obligations.InitLoadsThePublishedIv : Prop :=
  ∀ (s : State) (a : BitVec 3), a.toNat ≤ 4 →
    ∃ h, exec (.init a) s = .next
        { s with alg := a, js := .active, errcode := .none, msglen := 0, bufcnt := 0, h := h } ∧
      h.toList = ivRom a ++ s.h.toList.drop (ivRom a).length

/-- 45_host_ops.md section 2 and 44_variants.md section 2 (R106, R120): INIT of ALG 5 or 6 with a valid cache copies it to H
at once. -/
def Obligations.InitCopiesAValidCache : Prop :=
  ∀ s : State,
    (s.divv224 = true → exec (.init 5) s = .next
      { s with alg := 5, js := .active, errcode := .none, msglen := 0, bufcnt := 0, h := s.div224 }) ∧
    (s.divv256 = true → exec (.init 6) s = .next
      { s with alg := 6, js := .active, errcode := .none, msglen := 0, bufcnt := 0, h := s.div256 })

/-- 44_variants.md section 3 (R107, R108, R120): INIT of ALG 5 or 6 without a valid cache starts the derivation: H is the
seed, BUF the padded label (PAD of its 11 bytes), BUSY becomes 1, and nothing else changes but what every INIT sets. -/
def Obligations.InitStartsTheDerivation : Prop :=
  ∀ (s : State) (a : BitVec 3), a = 5 ∧ s.divv224 = false ∨ a = 6 ∧ s.divv256 = false →
    ∃ h buf, exec (.init a) s = .next
        { s with alg := a, js := .active, errcode := .none, msglen := 0, bufcnt := 0, h := h, buf := buf,
                 opk := .derive, pb := 0, npb := .one, ph := .load } ∧
      h.toList = iv512.map (· ^^^ 0xA5A5A5A5A5A5A5A5) ∧
      buf.toList = Reference.pad
        ([0x53, 0x48, 0x41, 0x2D, 0x35, 0x31, 0x32, 0x2F] ++
          (if a = 5 then [0x32, 0x32, 0x34] else [0x32, 0x35, 0x36])) 128 16

/-- 45_host_ops.md section 3 (R123): an accepted DATA write appends its four bytes, the earliest from bits [31:24], counts
them, starts a block exactly when the buffer is full, and changes nothing else. -/
def Obligations.DataAppendsFourBytes : Prop :=
  ∀ (s : State) (v : BusWord), s.JobInv → s.busy = false → s.js = .active → s.msglen.toNat + 4 ≤ lmax s.alg →
    ∃ buf bufcnt msglen opk ph, exec (.wrData v) s = .next
        { s with buf := buf, bufcnt := bufcnt, msglen := msglen, opk := opk, ph := ph } ∧
      (∀ i (_ : i < 128), buf[i] =
        if i = s.bufcnt.toNat then v.extractLsb' 24 8
        else if i = s.bufcnt.toNat + 1 then v.extractLsb' 16 8
        else if i = s.bufcnt.toNat + 2 then v.extractLsb' 8 8
        else if i = s.bufcnt.toNat + 3 then v.extractLsb' 0 8
        else s.buf[i]) ∧
      bufcnt.toNat = s.bufcnt.toNat + 4 ∧
      msglen.toNat = s.msglen.toNat + 4 ∧
      (bufcnt.toNat = (params s.alg).blockBytes → opk = .block ∧ ph = .load) ∧
      (bufcnt.toNat ≠ (params s.alg).blockBytes → opk = .none ∧ ph = s.ph)

/-- 45_host_ops.md section 2 and 41_padding.md section 2 (R121, R83, R84): an accepted FINAL appends its NB tail bytes, ignores
the others, pads the block in place, and starts the engine. BUF is given byte by byte; the length field is in this block
exactly when r ≤ B − F − 1, and then NPB = 1. (Byte 7 of a 16-byte length field for MSGLEN ≥ 2^61 follows R84's formula,
which is the model's choice: log entry 22.) -/
def Obligations.FinalAppendsAndPads : Prop :=
  ∀ (s : State) (nb : BitVec 2) (tb0 tb1 tb2 : Byte),
    s.JobInv → s.busy = false → s.js = .active → s.msglen.toNat + nb.toNat ≤ lmax s.alg →
    ∃ buf bufcnt msglen npb, exec (.final nb tb0 tb1 tb2) s = .next
        { s with buf := buf, bufcnt := bufcnt, msglen := msglen, npb := npb, opk := .final, pb := 0, ph := .load } ∧
      bufcnt.toNat = s.bufcnt.toNat + nb.toNat ∧
      bufcnt.toNat ≤ (params s.alg).blockBytes - 1 ∧
      msglen.toNat = s.msglen.toNat + nb.toNat ∧
      (npb = .one ↔ bufcnt.toNat ≤ (params s.alg).blockBytes - (params s.alg).lenBytes - 1) ∧
      (∀ i (_ : i < 128), buf[i] =
        if i < s.bufcnt.toNat then s.buf[i]
        else if i < bufcnt.toNat then ([tb0, tb1, tb2].getD (i - s.bufcnt.toNat) 0)
        else if i = bufcnt.toNat then 0x80
        else if (params s.alg).blockBytes ≤ i then s.buf[i]
        else if npb = .two ∨ i < (params s.alg).blockBytes - (params s.alg).lenBytes then 0
        else BitVec.ofNat 8 (8 * msglen.toNat / 256 ^ ((params s.alg).blockBytes - 1 - i)))

/-! ## The word datapath -/

/-- R68, R69, R70: bit i of ROTR is bit (i + n) mod W of x, of ROTL bit (i − n) mod W, and SHR shifts zeros in, for every
amount the datapath accepts, at every width. -/
def Obligations.RotationsAndShiftsMoveBits : Prop :=
  (∀ (W : Width) (x : BitVec W.bits) (n : Nat) (h : n ∈ rotrAmounts W.bits) (i : Nat), i < W.bits →
    (rotr x n h).getLsbD i = x.getLsbD ((i + n) % W.bits)) ∧
  (∀ (W : Width) (x : BitVec W.bits) (n : Nat) (h : n ∈ rotlAmounts W.bits) (i : Nat), i < W.bits →
    (rotl x n h).getLsbD i = x.getLsbD ((i + (W.bits - n)) % W.bits)) ∧
  (∀ (W : Width) (x : BitVec W.bits) (n : Nat) (h : n ∈ shrAmounts W.bits) (i : Nat), i < W.bits →
    (shr x n h).getLsbD i = (decide (i + n < W.bits) && x.getLsbD (i + n)))

/-- R79: the wired amounts are the rule's, each inside 0 < n < W. -/
def Obligations.WiredAmountsAreInRange : Prop :=
  (∀ n, n ∈ rotrAmounts 32 ++ shrAmounts 32 ↔ n ∈ [2, 13, 22, 6, 11, 25, 7, 18, 3, 17, 19, 10]) ∧
  (∀ n, n ∈ rotrAmounts 64 ++ shrAmounts 64 ↔ n ∈ [28, 34, 39, 14, 18, 41, 1, 8, 7, 19, 61, 6]) ∧
  (∀ n, n ∈ rotlAmounts 32 ↔ n ∈ [1, 5, 30]) ∧
  (∀ W : Width, ∀ n, n ∈ rotrAmounts W.bits ++ shrAmounts W.bits ++ rotlAmounts W.bits → 0 < n ∧ n < W.bits)

/-- R71 to R78: the eight sigma functions as rotations and shifts of the word. -/
def Obligations.SigmaFunctionsAreTheirRotations : Prop :=
  (∀ x : BitVec 32,
    ucSigma0 .w32 x = x.rotateRight 2 ^^^ x.rotateRight 13 ^^^ x.rotateRight 22 ∧
    ucSigma1 .w32 x = x.rotateRight 6 ^^^ x.rotateRight 11 ^^^ x.rotateRight 25 ∧
    lcSigma0 .w32 x = x.rotateRight 7 ^^^ x.rotateRight 18 ^^^ x.ushiftRight 3 ∧
    lcSigma1 .w32 x = x.rotateRight 17 ^^^ x.rotateRight 19 ^^^ x.ushiftRight 10) ∧
  (∀ x : BitVec 64,
    ucSigma0 .w64 x = x.rotateRight 28 ^^^ x.rotateRight 34 ^^^ x.rotateRight 39 ∧
    ucSigma1 .w64 x = x.rotateRight 14 ^^^ x.rotateRight 18 ^^^ x.rotateRight 41 ∧
    lcSigma0 .w64 x = x.rotateRight 1 ^^^ x.rotateRight 8 ^^^ x.ushiftRight 7 ∧
    lcSigma1 .w64 x = x.rotateRight 19 ^^^ x.rotateRight 61 ^^^ x.ushiftRight 6)

/-- R65, R66, R67: each bit of CH is y's where x's is 1 and z's where it is 0, each bit of MAJ is the majority, and each bit
of PARITY is the exclusive or of the three. -/
def Obligations.BitwiseFunctionsSelectBits : Prop :=
  ∀ (W : Width) (x y z : BitVec W.bits) (i : Nat), i < W.bits →
    (ch x y z).getLsbD i = (if x.getLsbD i then y.getLsbD i else z.getLsbD i) ∧
    (maj x y z).getLsbD i =
      decide (2 ≤ (x.getLsbD i).toNat + (y.getLsbD i).toNat + (z.getLsbD i).toNat) ∧
    (parity x y z).getLsbD i =
      decide (((x.getLsbD i).toNat + (y.getLsbD i).toNat + (z.getLsbD i).toNat) % 2 = 1)

/-! ## The engine's steps -/

/-- R87: LOAD writes the 16 big-endian words of the block to WS[0..15], each byte a factor 256 above the next, zero-extended
to the cell, and changes only WS, T and PH. -/
def Obligations.LoadStepReadsBigEndianWords : Prop :=
  ∀ s : State, s.busy = true → s.ph = .load →
    ∃ ws, engineStep s = { s with ws := ws, t := 16, ph := .expand } ∧
      (∀ i (_ : i < 80), 16 ≤ i → ws[i] = s.ws[i]) ∧
      (∀ j (_ : j < 16), s.width = .w32 → ws[j].toNat =
        s.buf[4 * j].toNat * 2 ^ 24 + s.buf[4 * j + 1].toNat * 2 ^ 16 + s.buf[4 * j + 2].toNat * 2 ^ 8 +
          s.buf[4 * j + 3].toNat) ∧
      (∀ j (_ : j < 16), s.width = .w64 → ws[j].toNat =
        s.buf[8 * j].toNat * 2 ^ 56 + s.buf[8 * j + 1].toNat * 2 ^ 48 + s.buf[8 * j + 2].toNat * 2 ^ 40 +
          s.buf[8 * j + 3].toNat * 2 ^ 32 + s.buf[8 * j + 4].toNat * 2 ^ 24 + s.buf[8 * j + 5].toNat * 2 ^ 16 +
          s.buf[8 * j + 6].toNat * 2 ^ 8 + s.buf[8 * j + 7].toNat)

/-- R88, R89: EXPAND computes schedule entry T from earlier entries by the algorithm's recurrence, and advances T, or at
entry NS − 1 goes on to WRLOAD; nothing but WS[T], T and PH changes. -/
def Obligations.ExpandStepFollowsTheRecurrence : Prop :=
  ∀ s : State, s.busy = true → s.ph = .expand → 16 ≤ s.t.val → s.t.val < (params s.alg).ns →
    ∃ ws t ph, engineStep s = { s with ws := ws, t := t, ph := ph } ∧
      (∀ i (_ : i < 80), i ≠ s.t.val → ws[i] = s.ws[i]) ∧
      (s.alg ≠ 0 → word s.width ws s.t.val =
        lcSigma1 s.width (word s.width s.ws (s.t.val - 2)) + word s.width s.ws (s.t.val - 7) +
          lcSigma0 s.width (word s.width s.ws (s.t.val - 15)) + word s.width s.ws (s.t.val - 16)) ∧
      (s.alg = 0 → word .w32 ws s.t.val =
        BitVec.rotateLeft (w := 32) (word .w32 s.ws (s.t.val - 3) ^^^ word .w32 s.ws (s.t.val - 8) ^^^
          word .w32 s.ws (s.t.val - 14) ^^^ word .w32 s.ws (s.t.val - 16)) 1) ∧
      (∀ i (_ : i < 80), i = s.t.val → fits s.width ws[i]) ∧
      (s.t.val = (params s.alg).ns - 1 → t = s.t ∧ ph = .wrload) ∧
      (s.t.val ≠ (params s.alg).ns - 1 → t.val = s.t.val + 1 ∧ ph = .expand)

/-- R95, R99: WRLOAD copies the NH words of H to WR, and FEED adds the NH words of WR to H mod 2^W; the other cells, and the
rest of the state, keep their values but for T and PH. -/
def Obligations.RegisterLoadAndFeedForward : Prop :=
  ∀ s : State, s.busy = true →
    (s.ph = .wrload → ∃ wr, engineStep s = { s with wr := wr, t := 0, ph := .round } ∧
      (∀ i (_ : i < 8), i < (params s.alg).nh → wr[i].toNat = s.h[i].toNat % 2 ^ s.width.bits) ∧
      (∀ i (_ : i < 8), (params s.alg).nh ≤ i → wr[i] = s.wr[i])) ∧
    (s.ph = .feed → ∃ h, engineStep s = { s with h := h, ph := .next } ∧
      (∀ i (_ : i < 8), i < (params s.alg).nh →
        h[i].toNat = (s.h[i].toNat + s.wr[i].toNat) % 2 ^ s.width.bits) ∧
      (∀ i (_ : i < 8), (params s.alg).nh ≤ i → h[i] = s.h[i]))

/-- R96: a SHA-2 round, with the sequential assignments of the source read as a simultaneous one; it advances T, or at round
R − 1 goes on to FEED; nothing but WR, T and PH changes. -/
def Obligations.Sha2RoundUpdatesTheRegisters : Prop :=
  ∀ s : State, s.busy = true → s.ph = .round → s.alg ≠ 0 → s.t.val < (params s.alg).rounds →
    ∃ wr t ph, engineStep s = { s with wr := wr, t := t, ph := ph } ∧
      (let r := fun i => word s.width s.wr i
       let t1 := r 7 + ucSigma1 s.width (r 4) + ch (r 4) (r 5) (r 6) + roundConstant2 s.width s.t.val +
         word s.width s.ws s.t.val
       let t2 := ucSigma0 s.width (r 0) + maj (r 0) (r 1) (r 2)
       word s.width wr 0 = t1 + t2 ∧ word s.width wr 1 = r 0 ∧ word s.width wr 2 = r 1 ∧
       word s.width wr 3 = r 2 ∧ word s.width wr 4 = r 3 + t1 ∧ word s.width wr 5 = r 4 ∧
       word s.width wr 6 = r 5 ∧ word s.width wr 7 = r 6) ∧
      (∀ i (_ : i < 8), fits s.width wr[i]) ∧
      (s.t.val = (params s.alg).rounds - 1 → t = s.t ∧ ph = .feed) ∧
      (s.t.val ≠ (params s.alg).rounds - 1 → t.val = s.t.val + 1 ∧ ph = .round)

/-- R97, R98: a SHA-1 round, with f_t and the constant selected by the round's range; WR[5..7] are not written; it advances
T, or at round 79 goes on to FEED. -/
def Obligations.Sha1RoundUpdatesTheRegisters : Prop :=
  ∀ s : State, s.busy = true → s.ph = .round → s.alg = 0 →
    ∃ wr t ph, engineStep s = { s with wr := wr, t := t, ph := ph } ∧
      (let r := fun i => (word .w32 s.wr i : BitVec 32)
       let fk : BitVec 32 × BitVec 32 :=
         if s.t.val < 20 then (ch (r 1) (r 2) (r 3), 0x5A827999)
         else if s.t.val < 40 then (parity (r 1) (r 2) (r 3), 0x6ED9EBA1)
         else if s.t.val < 60 then (maj (r 1) (r 2) (r 3), 0x8F1BBCDC)
         else (parity (r 1) (r 2) (r 3), 0xCA62C1D6)
       word .w32 wr 0 = (r 0).rotateLeft 5 + fk.1 + r 4 + fk.2 + word .w32 s.ws s.t.val ∧
       word .w32 wr 1 = r 0 ∧ word .w32 wr 2 = (r 1).rotateLeft 30 ∧ word .w32 wr 3 = r 2 ∧
       word .w32 wr 4 = r 3) ∧
      (∀ i (_ : i < 8), i < 5 → fits .w32 wr[i]) ∧
      wr[5] = s.wr[5] ∧ wr[6] = s.wr[6] ∧ wr[7] = s.wr[7] ∧
      (s.t.val = 79 → t = s.t ∧ ph = .feed) ∧
      (s.t.val ≠ 79 → t.val = s.t.val + 1 ∧ ph = .round)

/-- R101: no engine step writes ERRCODE, ALG or MSGLEN; while it leaves BUSY at 1 it leaves JS and the valid bits alone;
when it ends the busy period, JS becomes DONE exactly at the end of FINAL, and a valid bit becomes 1 exactly at the end of
the derivation of its algorithm. The host's side is untouched by every engine step. -/
def Obligations.EngineChangesStatusOnlyAtTheLastStep : Prop :=
  ∀ s : State, s.busy = true →
    let t := engineStep s
    t.errcode = s.errcode ∧ t.alg = s.alg ∧ t.msglen = s.msglen ∧
    t.rdata = s.rdata ∧ t.cfg = s.cfg ∧ t.bus = s.bus ∧ t.turns = s.turns ∧ t.draws = s.draws ∧
    (t.busy = true → t.js = s.js ∧ t.divv224 = s.divv224 ∧ t.divv256 = s.divv256) ∧
    (t.busy = false → s.ph = .next ∧
      t.js = (if s.opk = .final then .done else s.js) ∧
      t.divv224 = (s.divv224 || decide (s.opk = .derive ∧ s.alg = 5)) ∧
      t.divv256 = (s.divv256 || decide (s.opk = .derive ∧ s.alg = 6)))

/-- 43_compression.md section 4 (R100, R103): the engine's control depends on PH, T, OPK, PB, NPB and ALG only: two states
that agree on them agree on them after a step of each, whatever their data. -/
def Obligations.EngineControlIgnoresData : Prop :=
  ∀ s₁ s₂ : State,
    s₁.ph = s₂.ph → s₁.t = s₂.t → s₁.opk = s₂.opk → s₁.pb = s₂.pb → s₁.npb = s₂.npb → s₁.alg = s₂.alg →
    let t₁ := engineStep s₁
    let t₂ := engineStep s₂
    t₁.ph = t₂.ph ∧ t₁.t = t₂.t ∧ t₁.opk = t₂.opk ∧ t₁.pb = t₂.pb ∧ t₁.npb = t₂.npb ∧ t₁.alg = t₂.alg

/-- R102: a block takes exactly NS + R − 12 engine steps, 116 for SHA-224 and SHA-256 and 148 for the others: a busy period
that starts at LOAD is busy before its last step and idle after it, whatever the message bytes; a FINAL of two padded
blocks takes twice as many. -/
def Obligations.BusyPeriodsTakeTheCountedSteps : Prop :=
  (∀ alg : BitVec 3, alg ≠ 7 → stepsPerBlock alg = (params alg).ns + (params alg).rounds - 12 ∧
    stepsPerBlock alg = if alg = 1 ∨ alg = 2 then 116 else 148) ∧
  ∀ s : State, s.busy = true → s.ph = .load → (s.opk = .final → s.pb = 0) →
    let n := if s.opk = .final ∧ s.npb = .two then 2 * stepsPerBlock s.alg else stepsPerBlock s.alg
    (∀ k, k < n → (engineSteps k s).busy = true) ∧ (engineSteps n s).busy = false

/-! ## The engine computes the source's functions -/

/-- 43_compression.md section 4 (R87 to R100): the engine steps of a data block replace the NH words of H by the source's
compression of H and the block, empty the buffer, and go idle; everything else but WS, WR, T and PH is unchanged. -/
def Obligations.DataBlockStepsCompress : Prop :=
  ∀ s : State, s.opk = .block → s.ph = .load →
    ∃ h wr ws t ph, engineSteps (stepsPerBlock s.alg) s =
        { s with h := h, wr := wr, ws := ws, t := t, ph := ph, bufcnt := 0, opk := .none } ∧
      h.toList = Reference.compress s.alg s.hashState s.block ++ s.h.toList.drop (params s.alg).nh

/-- 41_padding.md section 2, 43_compression.md section 4 and 44_variants.md section 4 (R83, R84, R100, R110 to R112): the
engine steps of FINAL compress the padded block, and after it, when NPB = 2, a second one that is zeros and the length
field; then DIG is the first DLEN bytes of the big-endian serialization of H, then zeros, JS is DONE, and SHAENG is idle. (Byte
7 of a 16-byte length field for MSGLEN ≥ 2^61 follows R84's formula, which is the model's choice: log entry 22.) -/
def Obligations.FinalStepsFinishTheJob : Prop :=
  ∀ s : State, s.opk = .final → s.ph = .load → s.pb = 0 →
    let n := if s.npb = .two then 2 * stepsPerBlock s.alg else stepsPerBlock s.alg
    let p := params s.alg
    let h1 := Reference.compress s.alg s.hashState s.block
    let second := List.replicate (p.blockBytes - p.lenBytes) (0 : Byte) ++ Reference.be p.lenBytes (8 * s.msglen.toNat)
    let h2 := if s.npb = .two then Reference.compress s.alg h1 second else h1
    ∃ h wr ws t ph pb buf dig, engineSteps n s =
        { s with h := h, wr := wr, ws := ws, t := t, ph := ph, pb := pb, buf := buf, dig := dig,
                 js := .done, bufcnt := 0, opk := .none } ∧
      h.toList = h2 ++ s.h.toList.drop p.nh ∧
      dig.toList = (Reference.serial s.alg h2).take p.dlen ++ List.replicate (64 - p.dlen) 0

/-- 44_variants.md section 3 (R106 to R108): an INIT that must derive, and the 148 engine steps after it, leave the derived
IV in H and in the cache of its algorithm, with the valid bit set and BUSY = 0; the other cache, DIG and the host's side
are untouched, and MSGLEN and BUFCNT are 0. -/
def Obligations.DerivationFillsItsCache : Prop :=
  ∀ (s : State) (a : BitVec 3), s.busy = false → a = 5 ∧ s.divv224 = false ∨ a = 6 ∧ s.divv256 = false →
    ∃ t, exec (.init a) s = .next t ∧ t.busy = true ∧
      let u := engineSteps 148 t
      u.busy = false ∧ u.js = .active ∧ u.alg = a ∧ u.msglen = 0 ∧ u.bufcnt = 0 ∧ u.errcode = .none ∧
      u.dig = s.dig ∧ u.rdata = s.rdata ∧ u.bus = s.bus ∧ u.turns = s.turns ∧ u.cfg = s.cfg ∧ u.draws = s.draws ∧
      u.h.toList = Reference.derivedIv a ∧
      (a = 5 → u.divv224 = true ∧ u.div224 = u.h ∧ u.divv256 = s.divv256 ∧ u.div256 = s.div256) ∧
      (a = 6 → u.divv256 = true ∧ u.div256 = u.h ∧ u.divv224 = s.divv224 ∧ u.div224 = s.div224)

/-- 44_variants.md section 3 (the example of R108): the derived IVs are the values the spec lists. -/
def Obligations.DerivedIvsAreTheListedValues : Prop :=
  Reference.derivedIv 5 =
    [0x8C3D37C819544DA2, 0x73E1996689DCD4D6, 0x1DFAB7AE32FF9C82, 0x679DD514582F9FCF,
     0x0F6D2B697BD44DA8, 0x77E36F7304C48942, 0x3F9D85A86A1D36C8, 0x1112E6AD91D692A1] ∧
  Reference.derivedIv 6 =
    [0x22312194FC2BF72C, 0x9F555FA3C84C64C2, 0x2393B86B6F53B151, 0x963877195940EABD,
     0x96283EE2A88EFFE3, 0xBE5E1E2553863992, 0x2B0199FC2C85B8AA, 0x0EB72DDC81C52CA2]

/-- 95_test_vectors.md sections 1 and 2.7 (the corrected V2, V3, V4, V5, and the derived vectors of the other three), with
44_variants.md R110, R114: the source's function, as the model has it, gives the listed digests of "abc". -/
def Obligations.DigestsOfAbcAreTheListedValues : Prop :=
  Reference.hash 0 [0x61, 0x62, 0x63] = Reference.be 20 0xa9993e364706816aba3e25717850c26c9cd0d89d ∧
  Reference.hash 1 [0x61, 0x62, 0x63] = Reference.be 28 0x23097d223405d8228642a477bda255b32aadbce4bda0b3f7e36c9da7 ∧
  Reference.hash 2 [0x61, 0x62, 0x63] = Reference.be 32 0xba7816bf8f01cfea414140de5dae2223b00361a396177a9cb410ff61f20015ad ∧
  Reference.hash 3 [0x61, 0x62, 0x63] =
    Reference.be 48 0xcb00753f45a35e8bb5a03d699ac65007272c32ab0eded1631a8b605a43ff5bed8086072ba1e7cc2358baeca134c825a7 ∧
  Reference.hash 4 [0x61, 0x62, 0x63] =
    Reference.be 64 0xddaf35a193617abacc417349ae20413112e6fa4e89a97ea20a9eeee64b55d39a2192992a274fc1a836ba3c23a3feebbd454d4423643ce80e2a9ac94fa54ca49f ∧
  Reference.hash 5 [0x61, 0x62, 0x63] = Reference.be 28 0x4634270f707b6a54daae7530460842e20e37ed265ceee9a43e8924aa ∧
  Reference.hash 6 [0x61, 0x62, 0x63] = Reference.be 32 0x53048e2681941ef99b2e29b76b4c7dabe4c2d0c634fc6d46e0e2f13107e7af23

/-- R82 and the padding invariant of R85: the padded length is the smallest multiple of B that is at least L + F + 1, that
is B · (floor((L + F) / B) + 1); the message comes first, then 0x80, and the last F bytes are 8 · L big-endian. -/
def Obligations.PaddingFillsWholeBlocks : Prop :=
  ∀ (m : List Byte) (B F : Nat), B = 64 ∧ F = 8 ∨ B = 128 ∧ F = 16 →
    (Reference.pad m B F).length = B * ((m.length + F) / B + 1) ∧
    (Reference.pad m B F).length % B = 0 ∧ m.length + F + 1 ≤ (Reference.pad m B F).length ∧
    (∀ k, k % B = 0 → m.length + F + 1 ≤ k → (Reference.pad m B F).length ≤ k) ∧
    (Reference.pad m B F).take m.length = m ∧
    (Reference.pad m B F).getD m.length 0 = 0x80 ∧
    (8 * m.length < 256 ^ F →
      ((Reference.pad m B F).drop ((Reference.pad m B F).length - F)).foldl
        (fun acc b => acc * 256 + b.toNat) 0 = 8 * m.length)

/-- R127: the host sequence `hash a, m`, from any idle state whose valid caches are right, ends with JS = DONE, no error,
MSGLEN = len(m), and the source's digest of m in DIG, in whatever order the host and the engine take their turns. (In
every state a run reaches the valid caches are right: `StepKeepsTheCachesRight`.) -/
def Obligations.HashSequenceComputesTheDigest : Prop :=
  ∀ (s : State) (a : BitVec 3) (m : List Byte), a ≠ 7 → s.busy = false → s.CachesRight → s.issuesHash a m →
    m.length ≤ lmax a →
    ∃ n t, Sys2Proof.core.run n s = .next t ∧ t.bus = [] ∧ t.busy = false ∧ t.js = .done ∧ t.errcode = .none ∧
      t.alg = a ∧ t.msglen.toNat = m.length ∧ t.dig.toList.take (params a).dlen = Reference.hash a m

/-- R113: two jobs of the same algorithm and message leave the same digest latch, DIG, whatever happened
before them: from any two idle states whose valid caches are right, both runs finish and agree. (In every state a run
reaches the valid caches are right: `StepKeepsTheCachesRight`.) -/
def Obligations.SameMessageGivesTheSameDigest : Prop :=
  ∀ (s₁ s₂ : State) (a : BitVec 3) (m : List Byte), a ≠ 7 → m.length ≤ lmax a →
    s₁.busy = false → s₂.busy = false → s₁.CachesRight → s₂.CachesRight → s₁.issuesHash a m → s₂.issuesHash a m →
    ∃ n₁ n₂ t₁ t₂, Sys2Proof.core.run n₁ s₁ = .next t₁ ∧ Sys2Proof.core.run n₂ s₂ = .next t₂ ∧
      t₁.bus = [] ∧ t₂.bus = [] ∧ t₁.js = .done ∧ t₂.js = .done ∧ t₁.dig = t₂.dig

/-! ## Reset -/

/-- R144, with the valued elements of R33 and the STATUS value of R24: after power-up SHAENG is idle with no job, its
counters are 0, no cache is valid, and STATUS reads 0x00000700. (What R33 leaves unspecified is not stated.) -/
def Obligations.PowerUpStateIsIdleWithoutJob : Prop :=
  State.reset.busy = false ∧ State.reset.opk = .none ∧ State.reset.js = .none ∧ State.reset.errcode = .none ∧
  State.reset.alg = 7 ∧ State.reset.msglen = 0 ∧ State.reset.bufcnt = 0 ∧
  State.reset.divv224 = false ∧ State.reset.divv256 = false ∧ State.reset.status = 0x00000700 ∧
  ∃ t, exec .rdStatus State.reset = .next t ∧ t.rdata = 0x00000700

/-- R143: a hardware reset, in any state, in the middle of any work, is one transition after which the valued elements have
R33's values and STATUS reads 0x00000700; a held access has ended with no effect, and what the host has yet to issue is
still to come. (That a reset is a `turns` entry, and that BASE, the value last read and the unissued accesses outlast it,
is the model's choice: log entries 2, 4 and 8. What R33 leaves unspecified is not stated.) -/
def Obligations.HardwareResetAbortsEverything : Prop :=
  ∀ (s : State) (ts : List Turn), s.turns = .reset :: ts →
    ∃ t, step s = .next t ∧
      t.busy = false ∧ t.opk = .none ∧ t.js = .none ∧ t.errcode = .none ∧ t.alg = 7 ∧ t.msglen = 0 ∧
      t.bufcnt = 0 ∧ t.divv224 = false ∧ t.divv256 = false ∧ t.status = 0x00000700 ∧
      t.cfg = s.cfg ∧ t.turns = ts ∧ t.rdata = s.rdata ∧
      t.bus = (if s.holds = true then s.bus.tail else s.bus)

/-! ## Invariants -/

/-- 10_state.md section 8: the state after power-up meets the invariants. (Its BASE is the model's choice: log entry 4.) -/
def Obligations.PowerUpStateMeetsTheInvariants : Prop :=
  State.reset.JobInv ∧ State.reset.CellInv ∧ State.reset.CacheInv

/-- 10_state.md sections 3 to 7 (R17, R18, R20 to R23, R27, R32) and 60_exceptions.md R130: every step, of the host, of the
engine or of a reset, keeps the bookkeeping of the job in agreement with the rules. -/
def Obligations.StepKeepsTheJobInvariant : Prop :=
  ∀ s t : State, s.JobInv → step s = .next t → t.JobInv

/-- 10_state.md section 2 (R16): every step keeps the cells that a 32-bit job reads free of bits above the word. -/
def Obligations.StepKeepsCellsWithinTheWord : Prop :=
  ∀ s t : State, s.JobInv → s.CellInv → step s = .next t → t.CellInv

/-- 10_state.md section 5 (R29) and 44_variants.md section 3 (R108): every step keeps a valid cache equal to the derived IV,
and a derivation on its way to it. -/
def Obligations.StepKeepsTheCachesRight : Prop :=
  ∀ s t : State, s.CacheInv → step s = .next t → t.CacheInv

/-! ## Rules about the whole machine -/

/-- R20: only INIT, the completion of FINAL, an error and a reset write JS. -/
def Obligations.JobStateHasFourWriters : Prop :=
  ∀ s t : State, step s = .next t → t.js ≠ s.js →
    (s.turns.head? = some .reset ∧ t.js = .none) ∨
    (s.opk = .final ∧ s.ph = .next ∧ t.js = .done ∧ t.busy = false) ∨
    (s.busy = false ∧ ∃ a rest v, s.bus = a :: rest ∧
      (decodeAccess s.cfg.base a = .ok (.wrCmd v) ∧
          (t.js = .active ∧ (∃ k, decodeCmd v = .init k ∧ k ≠ 7) ∨ t.js = .error) ∨
        decodeAccess s.cfg.base a = .ok (.wrData v) ∧ t.js = .error))

/-- R135: a step leaves JS = ERROR only by an accepted INIT, which sets JS = ACTIVE and ERRCODE = 0, or by a reset; any other
step leaves JS and ERRCODE as they are. -/
def Obligations.ErrorIsLeftOnlyByInitOrReset : Prop :=
  ∀ s t : State, s.JobInv → s.js = .error → step s = .next t →
    (t.js = .error ∧ t.errcode = s.errcode) ∨
    (t.js = .active ∧ t.errcode = .none ∧ ∃ a rest v k, s.bus = a :: rest ∧
      decodeAccess s.cfg.base a = .ok (.wrCmd v) ∧ decodeCmd v = .init k ∧ k ≠ 7) ∨
    (s.turns.head? = some .reset ∧ t.js = .none ∧ t.errcode = .none)

/-- 10_state.md section 5 (R28): DIG is written only at the end of FINAL; no INIT, DATA, error, NOP or read changes it. (A
reset makes it unspecified, R33.) -/
def Obligations.DigestIsWrittenOnlyByFinal : Prop :=
  ∀ s t : State, step s = .next t → t.dig ≠ s.dig →
    s.turns.head? = some .reset ∨ (s.opk = .final ∧ s.ph = .next ∧ t.js = .done)

/-- 10_state.md section 4 (R22, R23): only an accepted INIT writes ALG, and only host writes change MSGLEN: an accepted INIT
clears it, an accepted DATA adds 4, an accepted FINAL adds at most 3. (A reset gives both their reset values.) -/
def Obligations.OnlyHostWritesChangeAlgAndMsglen : Prop :=
  ∀ s t : State, s.JobInv → step s = .next t → s.turns.head? ≠ some .reset →
    (t.alg ≠ s.alg → ∃ a rest v k, s.bus = a :: rest ∧ decodeAccess s.cfg.base a = .ok (.wrCmd v) ∧
      decodeCmd v = .init k ∧ k ≠ 7 ∧ t.alg = k ∧ t.msglen = 0) ∧
    (t.msglen ≠ s.msglen → s.busy = false ∧ ∃ a rest v, s.bus = a :: rest ∧
      (decodeAccess s.cfg.base a = .ok (.wrData v) ∧ t.msglen.toNat = s.msglen.toNat + 4 ∨
        decodeAccess s.cfg.base a = .ok (.wrCmd v) ∧
          (t.msglen = 0 ∧ (∃ k, decodeCmd v = .init k ∧ k ≠ 7) ∨
            ∃ nb tb0 tb1 tb2, decodeCmd v = .final nb tb0 tb1 tb2 ∧
              t.msglen.toNat = s.msglen.toNat + nb.toNat)))

/-- 10_state.md section 5 (R29): a valid bit becomes 1 only at the last step of a derivation of its algorithm, which fills
its cache at that step, and only a reset clears it or changes a valid cache. -/
def Obligations.ValidBitsAreSetByDerivationAndClearedByReset : Prop :=
  ∀ s t : State, s.JobInv → step s = .next t → s.turns.head? ≠ some .reset →
    (t.divv224 ≠ s.divv224 → s.opk = .derive ∧ s.ph = .next ∧ s.alg = 5 ∧ t.divv224 = true ∧ t.div224 = s.h) ∧
    (t.divv256 ≠ s.divv256 → s.opk = .derive ∧ s.ph = .next ∧ s.alg = 6 ∧ t.divv256 = true ∧ t.div256 = s.h) ∧
    (s.divv224 = true → t.div224 = s.div224) ∧ (s.divv256 = true → t.div256 = s.div256)
end

