-- ==== Sys2Proof/Laws/Decode.lean ====
section
/-! SUPPORT. What each row of the opcode table selects, and how a host access reaches the bus rows. -/

namespace Sys2Proof

/-! ## Concatenation and extraction as numbers -/

theorem toNat_append_eq {a b : Nat} (x : BitVec a) (y : BitVec b) : (x ++ y).toNat = x.toNat * 2 ^ b + y.toNat := by
  rw [BitVec.toNat_append, Nat.shiftLeft_eq, mul_comm, ← Nat.two_pow_add_eq_or_of_lt y.isLt, mul_comm]

theorem toNat_field {w : Nat} (v : BitVec w) (k n : Nat) : (v.extractLsb' k n).toNat = v.toNat / 2 ^ k % 2 ^ n := by
  rw [BitVec.extractLsb'_toNat, Nat.shiftRight_eq_div_pow]

/-! ## The rows -/

/-- A row selects a word when the word agrees with its value on every bit of its mask (R57). -/
theorem Pattern.hits_iff {n : Nat} (p : Pattern n) (w : BitVec n) :
    p.hits w = true ↔ ∀ i, i < n → (w.getLsbD i && p.mask.getLsbD i) = p.value.getLsbD i := by
  unfold Pattern.hits
  rw [beq_iff_eq]
  constructor
  · intro h i hi
    rw [← h, BitVec.getLsbD_and]
  · intro h
    apply BitVec.eq_of_getLsbD_eq
    intro i hi
    rw [BitVec.getLsbD_and]
    exact h i hi

/-- The descriptors that each bus row selects by its own mask (R56). -/
theorem bus_rows_hit : ∀ td : BitVec 8,
    (rowWrCmd.hits td = decide (td = 0x80)) ∧ (rowWrData.hits td = decide (td = 0x88)) ∧
    (rowRdStatus.hits td = decide (td = 0x04)) ∧ (rowRdMsglenLo.hits td = decide (td = 0x0C)) ∧
    (rowRdMsglenHi.hits td = decide (td = 0x10)) ∧
    (rowRdDigest.hits td = decide (td.extractLsb' 0 2 = 0 ∧ 0x40 ≤ td.toNat ∧ td.toNat ≤ 0x7C)) ∧
    (rowWrIgnored.hits td = decide (td.extractLsb' 0 2 = 0 ∧ td.extractLsb' 7 1 = 1)) ∧
    (rowRdZero.hits td = decide (td.extractLsb' 0 2 = 0 ∧ td.extractLsb' 7 1 ≠ 1)) := by decide

/-- A mask of the four opcode bits selects the words of one opcode. -/
theorem low_nibble_hit (v : BusWord) (k : Nat) (hk : k < 16) :
    v &&& 0xF#32 = BitVec.ofNat 32 k ↔ v.extractLsb' 0 4 = BitVec.ofNat 4 k := by
  simp only [← BitVec.toNat_inj, BitVec.toNat_and, BitVec.extractLsb'_toNat, BitVec.toNat_ofNat]
  have : v.toNat &&& 15 % 2 ^ 32 = v.toNat % 2 ^ 4 := Nat.and_two_pow_sub_one_eq_mod _ 4
  rw [this]
  simp
  omega

theorem rowNop_hit (v : BusWord) : rowNop.hits v = decide (v = 0) := by
  have : v &&& 4294967295#32 = v := BitVec.and_allOnes
  simp [Pattern.hits, rowNop, beq_eq_decide, this]

theorem rowBadBitsNop_hit (v : BusWord) : rowBadBitsNop.hits v = decide (v.extractLsb' 0 4 = 0) := by
  unfold Pattern.hits
  rw [beq_eq_decide]
  exact decide_eq_decide.mpr (low_nibble_hit v 0 (by omega))

theorem rowBadBitsInit_hit (v : BusWord) : rowBadBitsInit.hits v = decide (v.extractLsb' 0 4 = 1) := by
  unfold Pattern.hits
  rw [beq_eq_decide]
  exact decide_eq_decide.mpr (low_nibble_hit v 1 (by omega))

theorem rowBadBitsFinal_hit (v : BusWord) : rowBadBitsFinal.hits v = decide (v.extractLsb' 0 4 = 2) := by
  unfold Pattern.hits
  rw [beq_eq_decide]
  exact decide_eq_decide.mpr (low_nibble_hit v 2 (by omega))

theorem rowInit_hit (v : BusWord) :
    rowInit.hits v = decide (v.extractLsb' 0 4 = 1 ∧ v.extractLsb' 7 25 = 0) := by
  rw [Bool.eq_iff_iff, Pattern.hits_iff]
  simp only [decide_eq_true_eq]
  constructor
  · intro h
    constructor <;> apply BitVec.eq_of_getLsbD_eq <;> intro i hi
    · have := h i (by omega)
      interval_cases i <;> simpa [rowInit] using this
    · have := h (7 + i) (by omega)
      interval_cases i <;> simpa [rowInit] using this
  · rintro ⟨h1, h2⟩ i hi
    by_cases h4 : i < 4
    · have := congrArg (fun x => BitVec.getLsbD x i) h1
      interval_cases i <;> simpa [rowInit] using this
    · by_cases h7 : i < 7
      · interval_cases i <;> simp [rowInit]
      · have := congrArg (fun x => BitVec.getLsbD x (i - 7)) h2
        interval_cases i <;> simpa [rowInit] using this

theorem rowFinal_hit (v : BusWord) :
    rowFinal.hits v = decide (v.extractLsb' 0 4 = 2 ∧ v.extractLsb' 6 2 = 0) := by
  rw [Bool.eq_iff_iff, Pattern.hits_iff]
  simp only [decide_eq_true_eq]
  constructor
  · intro h
    constructor <;> apply BitVec.eq_of_getLsbD_eq <;> intro i hi
    · have := h i (by omega)
      interval_cases i <;> simpa [rowFinal] using this
    · have := h (6 + i) (by omega)
      interval_cases i <;> simpa [rowFinal] using this
  · rintro ⟨h1, h2⟩ i hi
    by_cases h4 : i < 4
    · have := congrArg (fun x => BitVec.getLsbD x i) h1
      interval_cases i <;> simpa [rowFinal] using this
    · by_cases h7 : i = 6 ∨ i = 7
      · have := congrArg (fun x => BitVec.getLsbD x (i - 6)) h2
        rcases h7 with rfl | rfl <;> simpa [rowFinal] using this
      · have h6 : i ≠ 6 := fun h => h7 (.inl h)
        have h7 : i ≠ 7 := fun h => h7 (.inr h)
        clear h1 h2
        interval_cases i <;> simp_all [rowFinal]

/-! ## Host accesses -/

/-- The access that carries a bus transaction decodes as the transaction does. -/
theorem decodeAccess_of_bus (base : Nat) (td : BitVec 8) (v : BusWord) (i : Instr) (h : decodeBus td v = some i) :
    decodeAccess base (accessOf base (.bus td v)) = .ok i := by
  unfold decodeAccess accessOf
  have hlt := (td.extractLsb' 0 7).isLt
  have e : descriptor (td.extractLsb' 7 1 == 1) (BitVec.ofNat 7 (base + (td.extractLsb' 0 7).toNat - base)) = td := by
    have : ∀ td : BitVec 8, descriptor (td.extractLsb' 7 1 == 1) (td.extractLsb' 0 7) = td := by decide
    rw [Nat.add_sub_cancel_left, BitVec.ofNat_toNat, BitVec.setWidth_eq]
    exact this td
  simp only [ne_eq, not_true, if_false, e]
  rw [if_neg (by omega), h]

/-- The access that carries a command word is a write of it to CMD. -/
theorem decodeAccess_of_cmd (base : Nat) (v : BusWord) : decodeAccess base (accessOf base (.cmd v)) = .ok (.wrCmd v) := by
  have h := decodeAccess_of_bus base 0x80 v (.wrCmd v) rfl
  have e : accessOf base (.bus 0x80 v) = accessOf base (.cmd v) := by simp [accessOf]
  rwa [e] at h

/-- A 32-bit access inside the window is decoded by its descriptor. -/
theorem decodeAccess_in_window (base : Nat) (a : BusAccess) (h4 : a.bytes = 4) (h1 : base ≤ a.addr)
    (h2 : a.addr ≤ base + 0x7F) :
    decodeAccess base a = match decodeBus (descriptor a.we (BitVec.ofNat 7 (a.addr - base))) a.v with
      | some i => .ok i
      | none => .error .misaligned := by
  unfold decodeAccess
  exact (if_neg (by simp [h4])).trans ((if_neg (by omega)).trans rfl)

/-- A descriptor whose offset is no multiple of 4 matches no row (R57). -/
theorem decodeBus_misaligned (we : Bool) (off : BitVec 7) (h : off.toNat % 4 ≠ 0) (v : BusWord) :
    decodeBus (descriptor we off) v = none := by
  have key : ∀ (we : Bool) (off : BitVec 7), off.toNat % 4 ≠ 0 →
      (rowWrCmd.hits (descriptor we off) = false) ∧ (rowWrData.hits (descriptor we off) = false) ∧
      (rowRdStatus.hits (descriptor we off) = false) ∧ (rowRdMsglenLo.hits (descriptor we off) = false) ∧
      (rowRdMsglenHi.hits (descriptor we off) = false) ∧ (rowRdDigest.hits (descriptor we off) = false) ∧
      (rowWrIgnored.hits (descriptor we off) = false) ∧ (rowRdZero.hits (descriptor we off) = false) := by decide
  obtain ⟨h1, h2, h3, h4, h5, h6, h7, h8⟩ := key we off h
  simp [decodeBus, h1, h2, h3, h4, h5, h6, h7, h8]

end Sys2Proof
end

