-- ==== Sys2Proof/Laws/State.lean ====
section
/-! SUPPORT. For each operation that updates the state, one lemma per field, true by unfolding the operation once; later
proofs cite these and unfold no record update. An operation whose update is conditional has a lemma for each field it
leaves alone. -/

namespace Sys2Proof.Machine

/-! ## `raiseError` -/

@[simp] theorem raiseError_h (c : ErrCode) (s : State) : (raiseError c s).h = s.h := by simp only [raiseError]
@[simp] theorem raiseError_wr (c : ErrCode) (s : State) : (raiseError c s).wr = s.wr := by simp only [raiseError]
@[simp] theorem raiseError_ws (c : ErrCode) (s : State) : (raiseError c s).ws = s.ws := by simp only [raiseError]
@[simp] theorem raiseError_t (c : ErrCode) (s : State) : (raiseError c s).t = s.t := by simp only [raiseError]
@[simp] theorem raiseError_opk (c : ErrCode) (s : State) : (raiseError c s).opk = s.opk := by simp only [raiseError]
@[simp] theorem raiseError_pb (c : ErrCode) (s : State) : (raiseError c s).pb = s.pb := by simp only [raiseError]
@[simp] theorem raiseError_npb (c : ErrCode) (s : State) : (raiseError c s).npb = s.npb := by simp only [raiseError]
@[simp] theorem raiseError_ph (c : ErrCode) (s : State) : (raiseError c s).ph = s.ph := by simp only [raiseError]
@[simp] theorem raiseError_js (c : ErrCode) (s : State) : (raiseError c s).js = .error := by simp only [raiseError]
@[simp] theorem raiseError_errcode (c : ErrCode) (s : State) : (raiseError c s).errcode = if s.js = .error then s.errcode else c := by simp only [raiseError]
@[simp] theorem raiseError_alg (c : ErrCode) (s : State) : (raiseError c s).alg = s.alg := by simp only [raiseError]
@[simp] theorem raiseError_msglen (c : ErrCode) (s : State) : (raiseError c s).msglen = s.msglen := by simp only [raiseError]
@[simp] theorem raiseError_buf (c : ErrCode) (s : State) : (raiseError c s).buf = s.buf := by simp only [raiseError]
@[simp] theorem raiseError_bufcnt (c : ErrCode) (s : State) : (raiseError c s).bufcnt = s.bufcnt := by simp only [raiseError]
@[simp] theorem raiseError_dig (c : ErrCode) (s : State) : (raiseError c s).dig = s.dig := by simp only [raiseError]
@[simp] theorem raiseError_div224 (c : ErrCode) (s : State) : (raiseError c s).div224 = s.div224 := by simp only [raiseError]
@[simp] theorem raiseError_div256 (c : ErrCode) (s : State) : (raiseError c s).div256 = s.div256 := by simp only [raiseError]
@[simp] theorem raiseError_divv224 (c : ErrCode) (s : State) : (raiseError c s).divv224 = s.divv224 := by simp only [raiseError]
@[simp] theorem raiseError_divv256 (c : ErrCode) (s : State) : (raiseError c s).divv256 = s.divv256 := by simp only [raiseError]
@[simp] theorem raiseError_rdata (c : ErrCode) (s : State) : (raiseError c s).rdata = s.rdata := by simp only [raiseError]
@[simp] theorem raiseError_cfg (c : ErrCode) (s : State) : (raiseError c s).cfg = s.cfg := by simp only [raiseError]
@[simp] theorem raiseError_bus (c : ErrCode) (s : State) : (raiseError c s).bus = s.bus := by simp only [raiseError]
@[simp] theorem raiseError_turns (c : ErrCode) (s : State) : (raiseError c s).turns = s.turns := by simp only [raiseError]
@[simp] theorem raiseError_draws (c : ErrCode) (s : State) : (raiseError c s).draws = s.draws := by simp only [raiseError]

/-! ## `appendBytes` -/

@[simp] theorem appendBytes_h (n : Nat) (f : Nat → Byte) (s : State) : (appendBytes n f s).h = s.h := by simp only [appendBytes]
@[simp] theorem appendBytes_wr (n : Nat) (f : Nat → Byte) (s : State) : (appendBytes n f s).wr = s.wr := by simp only [appendBytes]
@[simp] theorem appendBytes_ws (n : Nat) (f : Nat → Byte) (s : State) : (appendBytes n f s).ws = s.ws := by simp only [appendBytes]
@[simp] theorem appendBytes_t (n : Nat) (f : Nat → Byte) (s : State) : (appendBytes n f s).t = s.t := by simp only [appendBytes]
@[simp] theorem appendBytes_opk (n : Nat) (f : Nat → Byte) (s : State) : (appendBytes n f s).opk = s.opk := by simp only [appendBytes]
@[simp] theorem appendBytes_pb (n : Nat) (f : Nat → Byte) (s : State) : (appendBytes n f s).pb = s.pb := by simp only [appendBytes]
@[simp] theorem appendBytes_npb (n : Nat) (f : Nat → Byte) (s : State) : (appendBytes n f s).npb = s.npb := by simp only [appendBytes]
@[simp] theorem appendBytes_ph (n : Nat) (f : Nat → Byte) (s : State) : (appendBytes n f s).ph = s.ph := by simp only [appendBytes]
@[simp] theorem appendBytes_js (n : Nat) (f : Nat → Byte) (s : State) : (appendBytes n f s).js = s.js := by simp only [appendBytes]
@[simp] theorem appendBytes_errcode (n : Nat) (f : Nat → Byte) (s : State) : (appendBytes n f s).errcode = s.errcode := by simp only [appendBytes]
@[simp] theorem appendBytes_alg (n : Nat) (f : Nat → Byte) (s : State) : (appendBytes n f s).alg = s.alg := by simp only [appendBytes]
@[simp] theorem appendBytes_msglen (n : Nat) (f : Nat → Byte) (s : State) : (appendBytes n f s).msglen = s.msglen + BitVec.ofNat 64 n := by simp only [appendBytes]
@[simp] theorem appendBytes_buf (n : Nat) (f : Nat → Byte) (s : State) : (appendBytes n f s).buf = fill s.buf s.bufcnt.toNat (s.bufcnt.toNat + n) fun i => f (i - s.bufcnt.toNat) := by simp only [appendBytes]
@[simp] theorem appendBytes_bufcnt (n : Nat) (f : Nat → Byte) (s : State) : (appendBytes n f s).bufcnt = s.bufcnt + BitVec.ofNat 8 n := by simp only [appendBytes]
@[simp] theorem appendBytes_dig (n : Nat) (f : Nat → Byte) (s : State) : (appendBytes n f s).dig = s.dig := by simp only [appendBytes]
@[simp] theorem appendBytes_div224 (n : Nat) (f : Nat → Byte) (s : State) : (appendBytes n f s).div224 = s.div224 := by simp only [appendBytes]
@[simp] theorem appendBytes_div256 (n : Nat) (f : Nat → Byte) (s : State) : (appendBytes n f s).div256 = s.div256 := by simp only [appendBytes]
@[simp] theorem appendBytes_divv224 (n : Nat) (f : Nat → Byte) (s : State) : (appendBytes n f s).divv224 = s.divv224 := by simp only [appendBytes]
@[simp] theorem appendBytes_divv256 (n : Nat) (f : Nat → Byte) (s : State) : (appendBytes n f s).divv256 = s.divv256 := by simp only [appendBytes]
@[simp] theorem appendBytes_rdata (n : Nat) (f : Nat → Byte) (s : State) : (appendBytes n f s).rdata = s.rdata := by simp only [appendBytes]
@[simp] theorem appendBytes_cfg (n : Nat) (f : Nat → Byte) (s : State) : (appendBytes n f s).cfg = s.cfg := by simp only [appendBytes]
@[simp] theorem appendBytes_bus (n : Nat) (f : Nat → Byte) (s : State) : (appendBytes n f s).bus = s.bus := by simp only [appendBytes]
@[simp] theorem appendBytes_turns (n : Nat) (f : Nat → Byte) (s : State) : (appendBytes n f s).turns = s.turns := by simp only [appendBytes]
@[simp] theorem appendBytes_draws (n : Nat) (f : Nat → Byte) (s : State) : (appendBytes n f s).draws = s.draws := by simp only [appendBytes]

/-! ## `newJob` -/

@[simp] theorem newJob_h (a : BitVec 3) (s : State) : (newJob a s).h = s.h := by simp only [newJob]
@[simp] theorem newJob_wr (a : BitVec 3) (s : State) : (newJob a s).wr = s.wr := by simp only [newJob]
@[simp] theorem newJob_ws (a : BitVec 3) (s : State) : (newJob a s).ws = s.ws := by simp only [newJob]
@[simp] theorem newJob_t (a : BitVec 3) (s : State) : (newJob a s).t = s.t := by simp only [newJob]
@[simp] theorem newJob_opk (a : BitVec 3) (s : State) : (newJob a s).opk = s.opk := by simp only [newJob]
@[simp] theorem newJob_pb (a : BitVec 3) (s : State) : (newJob a s).pb = s.pb := by simp only [newJob]
@[simp] theorem newJob_npb (a : BitVec 3) (s : State) : (newJob a s).npb = s.npb := by simp only [newJob]
@[simp] theorem newJob_ph (a : BitVec 3) (s : State) : (newJob a s).ph = s.ph := by simp only [newJob]
@[simp] theorem newJob_js (a : BitVec 3) (s : State) : (newJob a s).js = .active := by simp only [newJob]
@[simp] theorem newJob_errcode (a : BitVec 3) (s : State) : (newJob a s).errcode = .none := by simp only [newJob]
@[simp] theorem newJob_alg (a : BitVec 3) (s : State) : (newJob a s).alg = a := by simp only [newJob]
@[simp] theorem newJob_msglen (a : BitVec 3) (s : State) : (newJob a s).msglen = 0 := by simp only [newJob]
@[simp] theorem newJob_buf (a : BitVec 3) (s : State) : (newJob a s).buf = s.buf := by simp only [newJob]
@[simp] theorem newJob_bufcnt (a : BitVec 3) (s : State) : (newJob a s).bufcnt = 0 := by simp only [newJob]
@[simp] theorem newJob_dig (a : BitVec 3) (s : State) : (newJob a s).dig = s.dig := by simp only [newJob]
@[simp] theorem newJob_div224 (a : BitVec 3) (s : State) : (newJob a s).div224 = s.div224 := by simp only [newJob]
@[simp] theorem newJob_div256 (a : BitVec 3) (s : State) : (newJob a s).div256 = s.div256 := by simp only [newJob]
@[simp] theorem newJob_divv224 (a : BitVec 3) (s : State) : (newJob a s).divv224 = s.divv224 := by simp only [newJob]
@[simp] theorem newJob_divv256 (a : BitVec 3) (s : State) : (newJob a s).divv256 = s.divv256 := by simp only [newJob]
@[simp] theorem newJob_rdata (a : BitVec 3) (s : State) : (newJob a s).rdata = s.rdata := by simp only [newJob]
@[simp] theorem newJob_cfg (a : BitVec 3) (s : State) : (newJob a s).cfg = s.cfg := by simp only [newJob]
@[simp] theorem newJob_bus (a : BitVec 3) (s : State) : (newJob a s).bus = s.bus := by simp only [newJob]
@[simp] theorem newJob_turns (a : BitVec 3) (s : State) : (newJob a s).turns = s.turns := by simp only [newJob]
@[simp] theorem newJob_draws (a : BitVec 3) (s : State) : (newJob a s).draws = s.draws := by simp only [newJob]

/-! ## `padSecond` -/

@[simp] theorem padSecond_h (s : State) : (padSecond s).h = s.h := by simp only [padSecond]
@[simp] theorem padSecond_wr (s : State) : (padSecond s).wr = s.wr := by simp only [padSecond]
@[simp] theorem padSecond_ws (s : State) : (padSecond s).ws = s.ws := by simp only [padSecond]
@[simp] theorem padSecond_t (s : State) : (padSecond s).t = s.t := by simp only [padSecond]
@[simp] theorem padSecond_opk (s : State) : (padSecond s).opk = s.opk := by simp only [padSecond]
@[simp] theorem padSecond_pb (s : State) : (padSecond s).pb = s.pb := by simp only [padSecond]
@[simp] theorem padSecond_npb (s : State) : (padSecond s).npb = s.npb := by simp only [padSecond]
@[simp] theorem padSecond_ph (s : State) : (padSecond s).ph = s.ph := by simp only [padSecond]
@[simp] theorem padSecond_js (s : State) : (padSecond s).js = s.js := by simp only [padSecond]
@[simp] theorem padSecond_errcode (s : State) : (padSecond s).errcode = s.errcode := by simp only [padSecond]
@[simp] theorem padSecond_alg (s : State) : (padSecond s).alg = s.alg := by simp only [padSecond]
@[simp] theorem padSecond_msglen (s : State) : (padSecond s).msglen = s.msglen := by simp only [padSecond]
@[simp] theorem padSecond_bufcnt (s : State) : (padSecond s).bufcnt = s.bufcnt := by simp only [padSecond]
@[simp] theorem padSecond_dig (s : State) : (padSecond s).dig = s.dig := by simp only [padSecond]
@[simp] theorem padSecond_div224 (s : State) : (padSecond s).div224 = s.div224 := by simp only [padSecond]
@[simp] theorem padSecond_div256 (s : State) : (padSecond s).div256 = s.div256 := by simp only [padSecond]
@[simp] theorem padSecond_divv224 (s : State) : (padSecond s).divv224 = s.divv224 := by simp only [padSecond]
@[simp] theorem padSecond_divv256 (s : State) : (padSecond s).divv256 = s.divv256 := by simp only [padSecond]
@[simp] theorem padSecond_rdata (s : State) : (padSecond s).rdata = s.rdata := by simp only [padSecond]
@[simp] theorem padSecond_cfg (s : State) : (padSecond s).cfg = s.cfg := by simp only [padSecond]
@[simp] theorem padSecond_bus (s : State) : (padSecond s).bus = s.bus := by simp only [padSecond]
@[simp] theorem padSecond_turns (s : State) : (padSecond s).turns = s.turns := by simp only [padSecond]
@[simp] theorem padSecond_draws (s : State) : (padSecond s).draws = s.draws := by simp only [padSecond]

/-! ## `deriveStart` -/

@[simp] theorem deriveStart_h (a : BitVec 3) (s : State) : (deriveStart a s).h = fill s.h 0 8 seedWord := by simp only [deriveStart]
@[simp] theorem deriveStart_wr (a : BitVec 3) (s : State) : (deriveStart a s).wr = s.wr := by simp only [deriveStart]
@[simp] theorem deriveStart_ws (a : BitVec 3) (s : State) : (deriveStart a s).ws = s.ws := by simp only [deriveStart]
@[simp] theorem deriveStart_t (a : BitVec 3) (s : State) : (deriveStart a s).t = s.t := by simp only [deriveStart]
@[simp] theorem deriveStart_opk (a : BitVec 3) (s : State) : (deriveStart a s).opk = .derive := by simp only [deriveStart]
@[simp] theorem deriveStart_pb (a : BitVec 3) (s : State) : (deriveStart a s).pb = 0 := by simp only [deriveStart]
@[simp] theorem deriveStart_npb (a : BitVec 3) (s : State) : (deriveStart a s).npb = .one := by simp only [deriveStart]
@[simp] theorem deriveStart_ph (a : BitVec 3) (s : State) : (deriveStart a s).ph = .load := by simp only [deriveStart]
@[simp] theorem deriveStart_js (a : BitVec 3) (s : State) : (deriveStart a s).js = s.js := by simp only [deriveStart]
@[simp] theorem deriveStart_errcode (a : BitVec 3) (s : State) : (deriveStart a s).errcode = s.errcode := by simp only [deriveStart]
@[simp] theorem deriveStart_alg (a : BitVec 3) (s : State) : (deriveStart a s).alg = s.alg := by simp only [deriveStart]
@[simp] theorem deriveStart_msglen (a : BitVec 3) (s : State) : (deriveStart a s).msglen = s.msglen := by simp only [deriveStart]
@[simp] theorem deriveStart_buf (a : BitVec 3) (s : State) : (deriveStart a s).buf = fill s.buf 0 128 (labelBlockByte a) := by simp only [deriveStart]
@[simp] theorem deriveStart_bufcnt (a : BitVec 3) (s : State) : (deriveStart a s).bufcnt = s.bufcnt := by simp only [deriveStart]
@[simp] theorem deriveStart_dig (a : BitVec 3) (s : State) : (deriveStart a s).dig = s.dig := by simp only [deriveStart]
@[simp] theorem deriveStart_div224 (a : BitVec 3) (s : State) : (deriveStart a s).div224 = s.div224 := by simp only [deriveStart]
@[simp] theorem deriveStart_div256 (a : BitVec 3) (s : State) : (deriveStart a s).div256 = s.div256 := by simp only [deriveStart]
@[simp] theorem deriveStart_divv224 (a : BitVec 3) (s : State) : (deriveStart a s).divv224 = s.divv224 := by simp only [deriveStart]
@[simp] theorem deriveStart_divv256 (a : BitVec 3) (s : State) : (deriveStart a s).divv256 = s.divv256 := by simp only [deriveStart]
@[simp] theorem deriveStart_rdata (a : BitVec 3) (s : State) : (deriveStart a s).rdata = s.rdata := by simp only [deriveStart]
@[simp] theorem deriveStart_cfg (a : BitVec 3) (s : State) : (deriveStart a s).cfg = s.cfg := by simp only [deriveStart]
@[simp] theorem deriveStart_bus (a : BitVec 3) (s : State) : (deriveStart a s).bus = s.bus := by simp only [deriveStart]
@[simp] theorem deriveStart_turns (a : BitVec 3) (s : State) : (deriveStart a s).turns = s.turns := by simp only [deriveStart]
@[simp] theorem deriveStart_draws (a : BitVec 3) (s : State) : (deriveStart a s).draws = s.draws := by simp only [deriveStart]

/-! ## `serialize` -/

@[simp] theorem serialize_h (s : State) : (serialize s).h = s.h := by simp only [serialize]
@[simp] theorem serialize_wr (s : State) : (serialize s).wr = s.wr := by simp only [serialize]
@[simp] theorem serialize_ws (s : State) : (serialize s).ws = s.ws := by simp only [serialize]
@[simp] theorem serialize_t (s : State) : (serialize s).t = s.t := by simp only [serialize]
@[simp] theorem serialize_opk (s : State) : (serialize s).opk = s.opk := by simp only [serialize]
@[simp] theorem serialize_pb (s : State) : (serialize s).pb = s.pb := by simp only [serialize]
@[simp] theorem serialize_npb (s : State) : (serialize s).npb = s.npb := by simp only [serialize]
@[simp] theorem serialize_ph (s : State) : (serialize s).ph = s.ph := by simp only [serialize]
@[simp] theorem serialize_js (s : State) : (serialize s).js = s.js := by simp only [serialize]
@[simp] theorem serialize_errcode (s : State) : (serialize s).errcode = s.errcode := by simp only [serialize]
@[simp] theorem serialize_alg (s : State) : (serialize s).alg = s.alg := by simp only [serialize]
@[simp] theorem serialize_msglen (s : State) : (serialize s).msglen = s.msglen := by simp only [serialize]
@[simp] theorem serialize_buf (s : State) : (serialize s).buf = s.buf := by simp only [serialize]
@[simp] theorem serialize_bufcnt (s : State) : (serialize s).bufcnt = s.bufcnt := by simp only [serialize]
@[simp] theorem serialize_dig (s : State) : (serialize s).dig = fill (fill s.dig 0 (params s.alg).dlen (serialByte s)) (params s.alg).dlen 64 fun _ => 0 := by simp only [serialize]
@[simp] theorem serialize_div224 (s : State) : (serialize s).div224 = s.div224 := by simp only [serialize]
@[simp] theorem serialize_div256 (s : State) : (serialize s).div256 = s.div256 := by simp only [serialize]
@[simp] theorem serialize_divv224 (s : State) : (serialize s).divv224 = s.divv224 := by simp only [serialize]
@[simp] theorem serialize_divv256 (s : State) : (serialize s).divv256 = s.divv256 := by simp only [serialize]
@[simp] theorem serialize_rdata (s : State) : (serialize s).rdata = s.rdata := by simp only [serialize]
@[simp] theorem serialize_cfg (s : State) : (serialize s).cfg = s.cfg := by simp only [serialize]
@[simp] theorem serialize_bus (s : State) : (serialize s).bus = s.bus := by simp only [serialize]
@[simp] theorem serialize_turns (s : State) : (serialize s).turns = s.turns := by simp only [serialize]
@[simp] theorem serialize_draws (s : State) : (serialize s).draws = s.draws := by simp only [serialize]

/-! ## `finalFinish` -/

@[simp] theorem finalFinish_h (s : State) : (finalFinish s).h = s.h := by simp only [finalFinish]
@[simp] theorem finalFinish_wr (s : State) : (finalFinish s).wr = s.wr := by simp only [finalFinish]
@[simp] theorem finalFinish_ws (s : State) : (finalFinish s).ws = s.ws := by simp only [finalFinish]
@[simp] theorem finalFinish_t (s : State) : (finalFinish s).t = s.t := by simp only [finalFinish]
@[simp] theorem finalFinish_opk (s : State) : (finalFinish s).opk = .none := by simp only [finalFinish]
@[simp] theorem finalFinish_pb (s : State) : (finalFinish s).pb = s.pb := by simp only [finalFinish]
@[simp] theorem finalFinish_npb (s : State) : (finalFinish s).npb = s.npb := by simp only [finalFinish]
@[simp] theorem finalFinish_ph (s : State) : (finalFinish s).ph = s.ph := by simp only [finalFinish]
@[simp] theorem finalFinish_js (s : State) : (finalFinish s).js = .done := by simp only [finalFinish]
@[simp] theorem finalFinish_errcode (s : State) : (finalFinish s).errcode = s.errcode := by simp only [finalFinish]
@[simp] theorem finalFinish_alg (s : State) : (finalFinish s).alg = s.alg := by simp only [finalFinish]
@[simp] theorem finalFinish_msglen (s : State) : (finalFinish s).msglen = s.msglen := by simp only [finalFinish]
@[simp] theorem finalFinish_buf (s : State) : (finalFinish s).buf = s.buf := by simp only [finalFinish]
@[simp] theorem finalFinish_bufcnt (s : State) : (finalFinish s).bufcnt = 0 := by simp only [finalFinish]
@[simp] theorem finalFinish_dig (s : State) : (finalFinish s).dig = s.dig := by simp only [finalFinish]
@[simp] theorem finalFinish_div224 (s : State) : (finalFinish s).div224 = s.div224 := by simp only [finalFinish]
@[simp] theorem finalFinish_div256 (s : State) : (finalFinish s).div256 = s.div256 := by simp only [finalFinish]
@[simp] theorem finalFinish_divv224 (s : State) : (finalFinish s).divv224 = s.divv224 := by simp only [finalFinish]
@[simp] theorem finalFinish_divv256 (s : State) : (finalFinish s).divv256 = s.divv256 := by simp only [finalFinish]
@[simp] theorem finalFinish_rdata (s : State) : (finalFinish s).rdata = s.rdata := by simp only [finalFinish]
@[simp] theorem finalFinish_cfg (s : State) : (finalFinish s).cfg = s.cfg := by simp only [finalFinish]
@[simp] theorem finalFinish_bus (s : State) : (finalFinish s).bus = s.bus := by simp only [finalFinish]
@[simp] theorem finalFinish_turns (s : State) : (finalFinish s).turns = s.turns := by simp only [finalFinish]
@[simp] theorem finalFinish_draws (s : State) : (finalFinish s).draws = s.draws := by simp only [finalFinish]

/-! ## `answer` -/

@[simp] theorem answer_h (x : BusWord) (s : State) : (answer x s).h = s.h := by simp only [answer]
@[simp] theorem answer_wr (x : BusWord) (s : State) : (answer x s).wr = s.wr := by simp only [answer]
@[simp] theorem answer_ws (x : BusWord) (s : State) : (answer x s).ws = s.ws := by simp only [answer]
@[simp] theorem answer_t (x : BusWord) (s : State) : (answer x s).t = s.t := by simp only [answer]
@[simp] theorem answer_opk (x : BusWord) (s : State) : (answer x s).opk = s.opk := by simp only [answer]
@[simp] theorem answer_pb (x : BusWord) (s : State) : (answer x s).pb = s.pb := by simp only [answer]
@[simp] theorem answer_npb (x : BusWord) (s : State) : (answer x s).npb = s.npb := by simp only [answer]
@[simp] theorem answer_ph (x : BusWord) (s : State) : (answer x s).ph = s.ph := by simp only [answer]
@[simp] theorem answer_js (x : BusWord) (s : State) : (answer x s).js = s.js := by simp only [answer]
@[simp] theorem answer_errcode (x : BusWord) (s : State) : (answer x s).errcode = s.errcode := by simp only [answer]
@[simp] theorem answer_alg (x : BusWord) (s : State) : (answer x s).alg = s.alg := by simp only [answer]
@[simp] theorem answer_msglen (x : BusWord) (s : State) : (answer x s).msglen = s.msglen := by simp only [answer]
@[simp] theorem answer_buf (x : BusWord) (s : State) : (answer x s).buf = s.buf := by simp only [answer]
@[simp] theorem answer_bufcnt (x : BusWord) (s : State) : (answer x s).bufcnt = s.bufcnt := by simp only [answer]
@[simp] theorem answer_dig (x : BusWord) (s : State) : (answer x s).dig = s.dig := by simp only [answer]
@[simp] theorem answer_div224 (x : BusWord) (s : State) : (answer x s).div224 = s.div224 := by simp only [answer]
@[simp] theorem answer_div256 (x : BusWord) (s : State) : (answer x s).div256 = s.div256 := by simp only [answer]
@[simp] theorem answer_divv224 (x : BusWord) (s : State) : (answer x s).divv224 = s.divv224 := by simp only [answer]
@[simp] theorem answer_divv256 (x : BusWord) (s : State) : (answer x s).divv256 = s.divv256 := by simp only [answer]
@[simp] theorem answer_rdata (x : BusWord) (s : State) : (answer x s).rdata = x := by simp only [answer]
@[simp] theorem answer_cfg (x : BusWord) (s : State) : (answer x s).cfg = s.cfg := by simp only [answer]
@[simp] theorem answer_bus (x : BusWord) (s : State) : (answer x s).bus = s.bus := by simp only [answer]
@[simp] theorem answer_turns (x : BusWord) (s : State) : (answer x s).turns = s.turns := by simp only [answer]
@[simp] theorem answer_draws (x : BusWord) (s : State) : (answer x s).draws = s.draws := by simp only [answer]

/-! ## `schedLoad` -/

@[simp] theorem schedLoad_h (s : State) : (schedLoad s).h = s.h := by simp only [schedLoad]
@[simp] theorem schedLoad_wr (s : State) : (schedLoad s).wr = s.wr := by simp only [schedLoad]
@[simp] theorem schedLoad_ws (s : State) : (schedLoad s).ws = fill s.ws 0 16 fun j => writeCell s.width (beWord s.width fun k => s.buf.getD (j * s.width.bytes + k) 0) := by simp only [schedLoad]
@[simp] theorem schedLoad_t (s : State) : (schedLoad s).t = 16 := by simp only [schedLoad]
@[simp] theorem schedLoad_opk (s : State) : (schedLoad s).opk = s.opk := by simp only [schedLoad]
@[simp] theorem schedLoad_pb (s : State) : (schedLoad s).pb = s.pb := by simp only [schedLoad]
@[simp] theorem schedLoad_npb (s : State) : (schedLoad s).npb = s.npb := by simp only [schedLoad]
@[simp] theorem schedLoad_ph (s : State) : (schedLoad s).ph = .expand := by simp only [schedLoad]
@[simp] theorem schedLoad_js (s : State) : (schedLoad s).js = s.js := by simp only [schedLoad]
@[simp] theorem schedLoad_errcode (s : State) : (schedLoad s).errcode = s.errcode := by simp only [schedLoad]
@[simp] theorem schedLoad_alg (s : State) : (schedLoad s).alg = s.alg := by simp only [schedLoad]
@[simp] theorem schedLoad_msglen (s : State) : (schedLoad s).msglen = s.msglen := by simp only [schedLoad]
@[simp] theorem schedLoad_buf (s : State) : (schedLoad s).buf = s.buf := by simp only [schedLoad]
@[simp] theorem schedLoad_bufcnt (s : State) : (schedLoad s).bufcnt = s.bufcnt := by simp only [schedLoad]
@[simp] theorem schedLoad_dig (s : State) : (schedLoad s).dig = s.dig := by simp only [schedLoad]
@[simp] theorem schedLoad_div224 (s : State) : (schedLoad s).div224 = s.div224 := by simp only [schedLoad]
@[simp] theorem schedLoad_div256 (s : State) : (schedLoad s).div256 = s.div256 := by simp only [schedLoad]
@[simp] theorem schedLoad_divv224 (s : State) : (schedLoad s).divv224 = s.divv224 := by simp only [schedLoad]
@[simp] theorem schedLoad_divv256 (s : State) : (schedLoad s).divv256 = s.divv256 := by simp only [schedLoad]
@[simp] theorem schedLoad_rdata (s : State) : (schedLoad s).rdata = s.rdata := by simp only [schedLoad]
@[simp] theorem schedLoad_cfg (s : State) : (schedLoad s).cfg = s.cfg := by simp only [schedLoad]
@[simp] theorem schedLoad_bus (s : State) : (schedLoad s).bus = s.bus := by simp only [schedLoad]
@[simp] theorem schedLoad_turns (s : State) : (schedLoad s).turns = s.turns := by simp only [schedLoad]
@[simp] theorem schedLoad_draws (s : State) : (schedLoad s).draws = s.draws := by simp only [schedLoad]

/-! ## `wrLoad` -/

@[simp] theorem wrLoad_h (s : State) : (wrLoad s).h = s.h := by simp only [wrLoad]
@[simp] theorem wrLoad_wr (s : State) : (wrLoad s).wr = fill s.wr 0 (params s.alg).nh fun i => writeCell s.width (word s.width s.h i) := by simp only [wrLoad]
@[simp] theorem wrLoad_ws (s : State) : (wrLoad s).ws = s.ws := by simp only [wrLoad]
@[simp] theorem wrLoad_t (s : State) : (wrLoad s).t = 0 := by simp only [wrLoad]
@[simp] theorem wrLoad_opk (s : State) : (wrLoad s).opk = s.opk := by simp only [wrLoad]
@[simp] theorem wrLoad_pb (s : State) : (wrLoad s).pb = s.pb := by simp only [wrLoad]
@[simp] theorem wrLoad_npb (s : State) : (wrLoad s).npb = s.npb := by simp only [wrLoad]
@[simp] theorem wrLoad_ph (s : State) : (wrLoad s).ph = .round := by simp only [wrLoad]
@[simp] theorem wrLoad_js (s : State) : (wrLoad s).js = s.js := by simp only [wrLoad]
@[simp] theorem wrLoad_errcode (s : State) : (wrLoad s).errcode = s.errcode := by simp only [wrLoad]
@[simp] theorem wrLoad_alg (s : State) : (wrLoad s).alg = s.alg := by simp only [wrLoad]
@[simp] theorem wrLoad_msglen (s : State) : (wrLoad s).msglen = s.msglen := by simp only [wrLoad]
@[simp] theorem wrLoad_buf (s : State) : (wrLoad s).buf = s.buf := by simp only [wrLoad]
@[simp] theorem wrLoad_bufcnt (s : State) : (wrLoad s).bufcnt = s.bufcnt := by simp only [wrLoad]
@[simp] theorem wrLoad_dig (s : State) : (wrLoad s).dig = s.dig := by simp only [wrLoad]
@[simp] theorem wrLoad_div224 (s : State) : (wrLoad s).div224 = s.div224 := by simp only [wrLoad]
@[simp] theorem wrLoad_div256 (s : State) : (wrLoad s).div256 = s.div256 := by simp only [wrLoad]
@[simp] theorem wrLoad_divv224 (s : State) : (wrLoad s).divv224 = s.divv224 := by simp only [wrLoad]
@[simp] theorem wrLoad_divv256 (s : State) : (wrLoad s).divv256 = s.divv256 := by simp only [wrLoad]
@[simp] theorem wrLoad_rdata (s : State) : (wrLoad s).rdata = s.rdata := by simp only [wrLoad]
@[simp] theorem wrLoad_cfg (s : State) : (wrLoad s).cfg = s.cfg := by simp only [wrLoad]
@[simp] theorem wrLoad_bus (s : State) : (wrLoad s).bus = s.bus := by simp only [wrLoad]
@[simp] theorem wrLoad_turns (s : State) : (wrLoad s).turns = s.turns := by simp only [wrLoad]
@[simp] theorem wrLoad_draws (s : State) : (wrLoad s).draws = s.draws := by simp only [wrLoad]

/-! ## `feedForward` -/

@[simp] theorem feedForward_h (s : State) : (feedForward s).h = fill s.h 0 (params s.alg).nh fun i => writeCell s.width (word s.width s.h i + word s.width s.wr i) := by simp only [feedForward]
@[simp] theorem feedForward_wr (s : State) : (feedForward s).wr = s.wr := by simp only [feedForward]
@[simp] theorem feedForward_ws (s : State) : (feedForward s).ws = s.ws := by simp only [feedForward]
@[simp] theorem feedForward_t (s : State) : (feedForward s).t = s.t := by simp only [feedForward]
@[simp] theorem feedForward_opk (s : State) : (feedForward s).opk = s.opk := by simp only [feedForward]
@[simp] theorem feedForward_pb (s : State) : (feedForward s).pb = s.pb := by simp only [feedForward]
@[simp] theorem feedForward_npb (s : State) : (feedForward s).npb = s.npb := by simp only [feedForward]
@[simp] theorem feedForward_ph (s : State) : (feedForward s).ph = .next := by simp only [feedForward]
@[simp] theorem feedForward_js (s : State) : (feedForward s).js = s.js := by simp only [feedForward]
@[simp] theorem feedForward_errcode (s : State) : (feedForward s).errcode = s.errcode := by simp only [feedForward]
@[simp] theorem feedForward_alg (s : State) : (feedForward s).alg = s.alg := by simp only [feedForward]
@[simp] theorem feedForward_msglen (s : State) : (feedForward s).msglen = s.msglen := by simp only [feedForward]
@[simp] theorem feedForward_buf (s : State) : (feedForward s).buf = s.buf := by simp only [feedForward]
@[simp] theorem feedForward_bufcnt (s : State) : (feedForward s).bufcnt = s.bufcnt := by simp only [feedForward]
@[simp] theorem feedForward_dig (s : State) : (feedForward s).dig = s.dig := by simp only [feedForward]
@[simp] theorem feedForward_div224 (s : State) : (feedForward s).div224 = s.div224 := by simp only [feedForward]
@[simp] theorem feedForward_div256 (s : State) : (feedForward s).div256 = s.div256 := by simp only [feedForward]
@[simp] theorem feedForward_divv224 (s : State) : (feedForward s).divv224 = s.divv224 := by simp only [feedForward]
@[simp] theorem feedForward_divv256 (s : State) : (feedForward s).divv256 = s.divv256 := by simp only [feedForward]
@[simp] theorem feedForward_rdata (s : State) : (feedForward s).rdata = s.rdata := by simp only [feedForward]
@[simp] theorem feedForward_cfg (s : State) : (feedForward s).cfg = s.cfg := by simp only [feedForward]
@[simp] theorem feedForward_bus (s : State) : (feedForward s).bus = s.bus := by simp only [feedForward]
@[simp] theorem feedForward_turns (s : State) : (feedForward s).turns = s.turns := by simp only [feedForward]
@[simp] theorem feedForward_draws (s : State) : (feedForward s).draws = s.draws := by simp only [feedForward]

/-! ## `hardReset` -/

@[simp] theorem hardReset_opk (s : State) : (hardReset s).opk = .none := by simp only [hardReset, State.reset]
@[simp] theorem hardReset_js (s : State) : (hardReset s).js = .none := by simp only [hardReset, State.reset]
@[simp] theorem hardReset_errcode (s : State) : (hardReset s).errcode = .none := by simp only [hardReset, State.reset]
@[simp] theorem hardReset_alg (s : State) : (hardReset s).alg = 7 := by simp only [hardReset, State.reset]
@[simp] theorem hardReset_msglen (s : State) : (hardReset s).msglen = 0 := by simp only [hardReset, State.reset]
@[simp] theorem hardReset_bufcnt (s : State) : (hardReset s).bufcnt = 0 := by simp only [hardReset, State.reset]
@[simp] theorem hardReset_divv224 (s : State) : (hardReset s).divv224 = false := by simp only [hardReset, State.reset]
@[simp] theorem hardReset_divv256 (s : State) : (hardReset s).divv256 = false := by simp only [hardReset, State.reset]
@[simp] theorem hardReset_rdata (s : State) : (hardReset s).rdata = s.rdata := by simp only [hardReset, State.reset]
@[simp] theorem hardReset_cfg (s : State) : (hardReset s).cfg = s.cfg := by simp only [hardReset, State.reset]
@[simp] theorem hardReset_bus (s : State) : (hardReset s).bus = if s.holds then s.bus.tail else s.bus := by simp only [hardReset, State.reset]
@[simp] theorem hardReset_turns (s : State) : (hardReset s).turns = s.turns := by simp only [hardReset, State.reset]
@[simp] theorem hardReset_draws (s : State) : (hardReset s).draws = s.draws + 1 := by simp only [hardReset, State.reset]

/-! ## `padFirst` -/

@[simp] theorem padFirst_h (s : State) : (padFirst s).h = s.h := by unfold padFirst; dsimp only; split <;> dsimp only
@[simp] theorem padFirst_wr (s : State) : (padFirst s).wr = s.wr := by unfold padFirst; dsimp only; split <;> dsimp only
@[simp] theorem padFirst_ws (s : State) : (padFirst s).ws = s.ws := by unfold padFirst; dsimp only; split <;> dsimp only
@[simp] theorem padFirst_t (s : State) : (padFirst s).t = s.t := by unfold padFirst; dsimp only; split <;> dsimp only
@[simp] theorem padFirst_opk (s : State) : (padFirst s).opk = s.opk := by unfold padFirst; dsimp only; split <;> dsimp only
@[simp] theorem padFirst_pb (s : State) : (padFirst s).pb = s.pb := by unfold padFirst; dsimp only; split <;> dsimp only
@[simp] theorem padFirst_ph (s : State) : (padFirst s).ph = s.ph := by unfold padFirst; dsimp only; split <;> dsimp only
@[simp] theorem padFirst_js (s : State) : (padFirst s).js = s.js := by unfold padFirst; dsimp only; split <;> dsimp only
@[simp] theorem padFirst_errcode (s : State) : (padFirst s).errcode = s.errcode := by unfold padFirst; dsimp only; split <;> dsimp only
@[simp] theorem padFirst_alg (s : State) : (padFirst s).alg = s.alg := by unfold padFirst; dsimp only; split <;> dsimp only
@[simp] theorem padFirst_msglen (s : State) : (padFirst s).msglen = s.msglen := by unfold padFirst; dsimp only; split <;> dsimp only
@[simp] theorem padFirst_bufcnt (s : State) : (padFirst s).bufcnt = s.bufcnt := by unfold padFirst; dsimp only; split <;> dsimp only
@[simp] theorem padFirst_dig (s : State) : (padFirst s).dig = s.dig := by unfold padFirst; dsimp only; split <;> dsimp only
@[simp] theorem padFirst_div224 (s : State) : (padFirst s).div224 = s.div224 := by unfold padFirst; dsimp only; split <;> dsimp only
@[simp] theorem padFirst_div256 (s : State) : (padFirst s).div256 = s.div256 := by unfold padFirst; dsimp only; split <;> dsimp only
@[simp] theorem padFirst_divv224 (s : State) : (padFirst s).divv224 = s.divv224 := by unfold padFirst; dsimp only; split <;> dsimp only
@[simp] theorem padFirst_divv256 (s : State) : (padFirst s).divv256 = s.divv256 := by unfold padFirst; dsimp only; split <;> dsimp only
@[simp] theorem padFirst_rdata (s : State) : (padFirst s).rdata = s.rdata := by unfold padFirst; dsimp only; split <;> dsimp only
@[simp] theorem padFirst_cfg (s : State) : (padFirst s).cfg = s.cfg := by unfold padFirst; dsimp only; split <;> dsimp only
@[simp] theorem padFirst_bus (s : State) : (padFirst s).bus = s.bus := by unfold padFirst; dsimp only; split <;> dsimp only
@[simp] theorem padFirst_turns (s : State) : (padFirst s).turns = s.turns := by unfold padFirst; dsimp only; split <;> dsimp only
@[simp] theorem padFirst_draws (s : State) : (padFirst s).draws = s.draws := by unfold padFirst; dsimp only; split <;> dsimp only

/-! ## `startFullBlock` -/

@[simp] theorem startFullBlock_h (s : State) : (startFullBlock s).h = s.h := by unfold startFullBlock; split <;> dsimp only
@[simp] theorem startFullBlock_wr (s : State) : (startFullBlock s).wr = s.wr := by unfold startFullBlock; split <;> dsimp only
@[simp] theorem startFullBlock_ws (s : State) : (startFullBlock s).ws = s.ws := by unfold startFullBlock; split <;> dsimp only
@[simp] theorem startFullBlock_t (s : State) : (startFullBlock s).t = s.t := by unfold startFullBlock; split <;> dsimp only
@[simp] theorem startFullBlock_pb (s : State) : (startFullBlock s).pb = s.pb := by unfold startFullBlock; split <;> dsimp only
@[simp] theorem startFullBlock_npb (s : State) : (startFullBlock s).npb = s.npb := by unfold startFullBlock; split <;> dsimp only
@[simp] theorem startFullBlock_js (s : State) : (startFullBlock s).js = s.js := by unfold startFullBlock; split <;> dsimp only
@[simp] theorem startFullBlock_errcode (s : State) : (startFullBlock s).errcode = s.errcode := by unfold startFullBlock; split <;> dsimp only
@[simp] theorem startFullBlock_alg (s : State) : (startFullBlock s).alg = s.alg := by unfold startFullBlock; split <;> dsimp only
@[simp] theorem startFullBlock_msglen (s : State) : (startFullBlock s).msglen = s.msglen := by unfold startFullBlock; split <;> dsimp only
@[simp] theorem startFullBlock_buf (s : State) : (startFullBlock s).buf = s.buf := by unfold startFullBlock; split <;> dsimp only
@[simp] theorem startFullBlock_bufcnt (s : State) : (startFullBlock s).bufcnt = s.bufcnt := by unfold startFullBlock; split <;> dsimp only
@[simp] theorem startFullBlock_dig (s : State) : (startFullBlock s).dig = s.dig := by unfold startFullBlock; split <;> dsimp only
@[simp] theorem startFullBlock_div224 (s : State) : (startFullBlock s).div224 = s.div224 := by unfold startFullBlock; split <;> dsimp only
@[simp] theorem startFullBlock_div256 (s : State) : (startFullBlock s).div256 = s.div256 := by unfold startFullBlock; split <;> dsimp only
@[simp] theorem startFullBlock_divv224 (s : State) : (startFullBlock s).divv224 = s.divv224 := by unfold startFullBlock; split <;> dsimp only
@[simp] theorem startFullBlock_divv256 (s : State) : (startFullBlock s).divv256 = s.divv256 := by unfold startFullBlock; split <;> dsimp only
@[simp] theorem startFullBlock_rdata (s : State) : (startFullBlock s).rdata = s.rdata := by unfold startFullBlock; split <;> dsimp only
@[simp] theorem startFullBlock_cfg (s : State) : (startFullBlock s).cfg = s.cfg := by unfold startFullBlock; split <;> dsimp only
@[simp] theorem startFullBlock_bus (s : State) : (startFullBlock s).bus = s.bus := by unfold startFullBlock; split <;> dsimp only
@[simp] theorem startFullBlock_turns (s : State) : (startFullBlock s).turns = s.turns := by unfold startFullBlock; split <;> dsimp only
@[simp] theorem startFullBlock_draws (s : State) : (startFullBlock s).draws = s.draws := by unfold startFullBlock; split <;> dsimp only

/-! ## `deriveFinish` -/

@[simp] theorem deriveFinish_h (s : State) : (deriveFinish s).h = s.h := by unfold deriveFinish; split <;> [dsimp only; (split <;> dsimp only)]
@[simp] theorem deriveFinish_wr (s : State) : (deriveFinish s).wr = s.wr := by unfold deriveFinish; split <;> [dsimp only; (split <;> dsimp only)]
@[simp] theorem deriveFinish_ws (s : State) : (deriveFinish s).ws = s.ws := by unfold deriveFinish; split <;> [dsimp only; (split <;> dsimp only)]
@[simp] theorem deriveFinish_t (s : State) : (deriveFinish s).t = s.t := by unfold deriveFinish; split <;> [dsimp only; (split <;> dsimp only)]
@[simp] theorem deriveFinish_pb (s : State) : (deriveFinish s).pb = s.pb := by unfold deriveFinish; split <;> [dsimp only; (split <;> dsimp only)]
@[simp] theorem deriveFinish_npb (s : State) : (deriveFinish s).npb = s.npb := by unfold deriveFinish; split <;> [dsimp only; (split <;> dsimp only)]
@[simp] theorem deriveFinish_ph (s : State) : (deriveFinish s).ph = s.ph := by unfold deriveFinish; split <;> [dsimp only; (split <;> dsimp only)]
@[simp] theorem deriveFinish_js (s : State) : (deriveFinish s).js = s.js := by unfold deriveFinish; split <;> [dsimp only; (split <;> dsimp only)]
@[simp] theorem deriveFinish_errcode (s : State) : (deriveFinish s).errcode = s.errcode := by unfold deriveFinish; split <;> [dsimp only; (split <;> dsimp only)]
@[simp] theorem deriveFinish_alg (s : State) : (deriveFinish s).alg = s.alg := by unfold deriveFinish; split <;> [dsimp only; (split <;> dsimp only)]
@[simp] theorem deriveFinish_msglen (s : State) : (deriveFinish s).msglen = s.msglen := by unfold deriveFinish; split <;> [dsimp only; (split <;> dsimp only)]
@[simp] theorem deriveFinish_buf (s : State) : (deriveFinish s).buf = s.buf := by unfold deriveFinish; split <;> [dsimp only; (split <;> dsimp only)]
@[simp] theorem deriveFinish_bufcnt (s : State) : (deriveFinish s).bufcnt = s.bufcnt := by unfold deriveFinish; split <;> [dsimp only; (split <;> dsimp only)]
@[simp] theorem deriveFinish_dig (s : State) : (deriveFinish s).dig = s.dig := by unfold deriveFinish; split <;> [dsimp only; (split <;> dsimp only)]
@[simp] theorem deriveFinish_rdata (s : State) : (deriveFinish s).rdata = s.rdata := by unfold deriveFinish; split <;> [dsimp only; (split <;> dsimp only)]
@[simp] theorem deriveFinish_cfg (s : State) : (deriveFinish s).cfg = s.cfg := by unfold deriveFinish; split <;> [dsimp only; (split <;> dsimp only)]
@[simp] theorem deriveFinish_bus (s : State) : (deriveFinish s).bus = s.bus := by unfold deriveFinish; split <;> [dsimp only; (split <;> dsimp only)]
@[simp] theorem deriveFinish_turns (s : State) : (deriveFinish s).turns = s.turns := by unfold deriveFinish; split <;> [dsimp only; (split <;> dsimp only)]
@[simp] theorem deriveFinish_draws (s : State) : (deriveFinish s).draws = s.draws := by unfold deriveFinish; split <;> [dsimp only; (split <;> dsimp only)]
@[simp] theorem deriveFinish_opk (s : State) : (deriveFinish s).opk = .none := by unfold deriveFinish; split <;> [dsimp only; (split <;> dsimp only)]

/-! ## `afterExpand` -/

@[simp] theorem afterExpand_h (s : State) : (afterExpand s).h = s.h := by unfold afterExpand; split <;> dsimp only
@[simp] theorem afterExpand_wr (s : State) : (afterExpand s).wr = s.wr := by unfold afterExpand; split <;> dsimp only
@[simp] theorem afterExpand_ws (s : State) : (afterExpand s).ws = s.ws := by unfold afterExpand; split <;> dsimp only
@[simp] theorem afterExpand_opk (s : State) : (afterExpand s).opk = s.opk := by unfold afterExpand; split <;> dsimp only
@[simp] theorem afterExpand_pb (s : State) : (afterExpand s).pb = s.pb := by unfold afterExpand; split <;> dsimp only
@[simp] theorem afterExpand_npb (s : State) : (afterExpand s).npb = s.npb := by unfold afterExpand; split <;> dsimp only
@[simp] theorem afterExpand_js (s : State) : (afterExpand s).js = s.js := by unfold afterExpand; split <;> dsimp only
@[simp] theorem afterExpand_errcode (s : State) : (afterExpand s).errcode = s.errcode := by unfold afterExpand; split <;> dsimp only
@[simp] theorem afterExpand_alg (s : State) : (afterExpand s).alg = s.alg := by unfold afterExpand; split <;> dsimp only
@[simp] theorem afterExpand_msglen (s : State) : (afterExpand s).msglen = s.msglen := by unfold afterExpand; split <;> dsimp only
@[simp] theorem afterExpand_buf (s : State) : (afterExpand s).buf = s.buf := by unfold afterExpand; split <;> dsimp only
@[simp] theorem afterExpand_bufcnt (s : State) : (afterExpand s).bufcnt = s.bufcnt := by unfold afterExpand; split <;> dsimp only
@[simp] theorem afterExpand_dig (s : State) : (afterExpand s).dig = s.dig := by unfold afterExpand; split <;> dsimp only
@[simp] theorem afterExpand_div224 (s : State) : (afterExpand s).div224 = s.div224 := by unfold afterExpand; split <;> dsimp only
@[simp] theorem afterExpand_div256 (s : State) : (afterExpand s).div256 = s.div256 := by unfold afterExpand; split <;> dsimp only
@[simp] theorem afterExpand_divv224 (s : State) : (afterExpand s).divv224 = s.divv224 := by unfold afterExpand; split <;> dsimp only
@[simp] theorem afterExpand_divv256 (s : State) : (afterExpand s).divv256 = s.divv256 := by unfold afterExpand; split <;> dsimp only
@[simp] theorem afterExpand_rdata (s : State) : (afterExpand s).rdata = s.rdata := by unfold afterExpand; split <;> dsimp only
@[simp] theorem afterExpand_cfg (s : State) : (afterExpand s).cfg = s.cfg := by unfold afterExpand; split <;> dsimp only
@[simp] theorem afterExpand_bus (s : State) : (afterExpand s).bus = s.bus := by unfold afterExpand; split <;> dsimp only
@[simp] theorem afterExpand_turns (s : State) : (afterExpand s).turns = s.turns := by unfold afterExpand; split <;> dsimp only
@[simp] theorem afterExpand_draws (s : State) : (afterExpand s).draws = s.draws := by unfold afterExpand; split <;> dsimp only

/-! ## `afterRound` -/

@[simp] theorem afterRound_h (s : State) : (afterRound s).h = s.h := by unfold afterRound; split <;> dsimp only
@[simp] theorem afterRound_wr (s : State) : (afterRound s).wr = s.wr := by unfold afterRound; split <;> dsimp only
@[simp] theorem afterRound_ws (s : State) : (afterRound s).ws = s.ws := by unfold afterRound; split <;> dsimp only
@[simp] theorem afterRound_opk (s : State) : (afterRound s).opk = s.opk := by unfold afterRound; split <;> dsimp only
@[simp] theorem afterRound_pb (s : State) : (afterRound s).pb = s.pb := by unfold afterRound; split <;> dsimp only
@[simp] theorem afterRound_npb (s : State) : (afterRound s).npb = s.npb := by unfold afterRound; split <;> dsimp only
@[simp] theorem afterRound_js (s : State) : (afterRound s).js = s.js := by unfold afterRound; split <;> dsimp only
@[simp] theorem afterRound_errcode (s : State) : (afterRound s).errcode = s.errcode := by unfold afterRound; split <;> dsimp only
@[simp] theorem afterRound_alg (s : State) : (afterRound s).alg = s.alg := by unfold afterRound; split <;> dsimp only
@[simp] theorem afterRound_msglen (s : State) : (afterRound s).msglen = s.msglen := by unfold afterRound; split <;> dsimp only
@[simp] theorem afterRound_buf (s : State) : (afterRound s).buf = s.buf := by unfold afterRound; split <;> dsimp only
@[simp] theorem afterRound_bufcnt (s : State) : (afterRound s).bufcnt = s.bufcnt := by unfold afterRound; split <;> dsimp only
@[simp] theorem afterRound_dig (s : State) : (afterRound s).dig = s.dig := by unfold afterRound; split <;> dsimp only
@[simp] theorem afterRound_div224 (s : State) : (afterRound s).div224 = s.div224 := by unfold afterRound; split <;> dsimp only
@[simp] theorem afterRound_div256 (s : State) : (afterRound s).div256 = s.div256 := by unfold afterRound; split <;> dsimp only
@[simp] theorem afterRound_divv224 (s : State) : (afterRound s).divv224 = s.divv224 := by unfold afterRound; split <;> dsimp only
@[simp] theorem afterRound_divv256 (s : State) : (afterRound s).divv256 = s.divv256 := by unfold afterRound; split <;> dsimp only
@[simp] theorem afterRound_rdata (s : State) : (afterRound s).rdata = s.rdata := by unfold afterRound; split <;> dsimp only
@[simp] theorem afterRound_cfg (s : State) : (afterRound s).cfg = s.cfg := by unfold afterRound; split <;> dsimp only
@[simp] theorem afterRound_bus (s : State) : (afterRound s).bus = s.bus := by unfold afterRound; split <;> dsimp only
@[simp] theorem afterRound_turns (s : State) : (afterRound s).turns = s.turns := by unfold afterRound; split <;> dsimp only
@[simp] theorem afterRound_draws (s : State) : (afterRound s).draws = s.draws := by unfold afterRound; split <;> dsimp only

/-! ## `schedStep2` -/

@[simp] theorem schedStep2_h (s : State) : (schedStep2 s).h = s.h := by simp only [schedStep2, afterExpand_h]
@[simp] theorem schedStep2_wr (s : State) : (schedStep2 s).wr = s.wr := by simp only [schedStep2, afterExpand_wr]
@[simp] theorem schedStep2_opk (s : State) : (schedStep2 s).opk = s.opk := by simp only [schedStep2, afterExpand_opk]
@[simp] theorem schedStep2_pb (s : State) : (schedStep2 s).pb = s.pb := by simp only [schedStep2, afterExpand_pb]
@[simp] theorem schedStep2_npb (s : State) : (schedStep2 s).npb = s.npb := by simp only [schedStep2, afterExpand_npb]
@[simp] theorem schedStep2_js (s : State) : (schedStep2 s).js = s.js := by simp only [schedStep2, afterExpand_js]
@[simp] theorem schedStep2_errcode (s : State) : (schedStep2 s).errcode = s.errcode := by simp only [schedStep2, afterExpand_errcode]
@[simp] theorem schedStep2_alg (s : State) : (schedStep2 s).alg = s.alg := by simp only [schedStep2, afterExpand_alg]
@[simp] theorem schedStep2_msglen (s : State) : (schedStep2 s).msglen = s.msglen := by simp only [schedStep2, afterExpand_msglen]
@[simp] theorem schedStep2_buf (s : State) : (schedStep2 s).buf = s.buf := by simp only [schedStep2, afterExpand_buf]
@[simp] theorem schedStep2_bufcnt (s : State) : (schedStep2 s).bufcnt = s.bufcnt := by simp only [schedStep2, afterExpand_bufcnt]
@[simp] theorem schedStep2_dig (s : State) : (schedStep2 s).dig = s.dig := by simp only [schedStep2, afterExpand_dig]
@[simp] theorem schedStep2_div224 (s : State) : (schedStep2 s).div224 = s.div224 := by simp only [schedStep2, afterExpand_div224]
@[simp] theorem schedStep2_div256 (s : State) : (schedStep2 s).div256 = s.div256 := by simp only [schedStep2, afterExpand_div256]
@[simp] theorem schedStep2_divv224 (s : State) : (schedStep2 s).divv224 = s.divv224 := by simp only [schedStep2, afterExpand_divv224]
@[simp] theorem schedStep2_divv256 (s : State) : (schedStep2 s).divv256 = s.divv256 := by simp only [schedStep2, afterExpand_divv256]
@[simp] theorem schedStep2_rdata (s : State) : (schedStep2 s).rdata = s.rdata := by simp only [schedStep2, afterExpand_rdata]
@[simp] theorem schedStep2_cfg (s : State) : (schedStep2 s).cfg = s.cfg := by simp only [schedStep2, afterExpand_cfg]
@[simp] theorem schedStep2_bus (s : State) : (schedStep2 s).bus = s.bus := by simp only [schedStep2, afterExpand_bus]
@[simp] theorem schedStep2_turns (s : State) : (schedStep2 s).turns = s.turns := by simp only [schedStep2, afterExpand_turns]
@[simp] theorem schedStep2_draws (s : State) : (schedStep2 s).draws = s.draws := by simp only [schedStep2, afterExpand_draws]

/-! ## `schedStep1` -/

@[simp] theorem schedStep1_h (s : State) : (schedStep1 s).h = s.h := by simp only [schedStep1, afterExpand_h]
@[simp] theorem schedStep1_wr (s : State) : (schedStep1 s).wr = s.wr := by simp only [schedStep1, afterExpand_wr]
@[simp] theorem schedStep1_opk (s : State) : (schedStep1 s).opk = s.opk := by simp only [schedStep1, afterExpand_opk]
@[simp] theorem schedStep1_pb (s : State) : (schedStep1 s).pb = s.pb := by simp only [schedStep1, afterExpand_pb]
@[simp] theorem schedStep1_npb (s : State) : (schedStep1 s).npb = s.npb := by simp only [schedStep1, afterExpand_npb]
@[simp] theorem schedStep1_js (s : State) : (schedStep1 s).js = s.js := by simp only [schedStep1, afterExpand_js]
@[simp] theorem schedStep1_errcode (s : State) : (schedStep1 s).errcode = s.errcode := by simp only [schedStep1, afterExpand_errcode]
@[simp] theorem schedStep1_alg (s : State) : (schedStep1 s).alg = s.alg := by simp only [schedStep1, afterExpand_alg]
@[simp] theorem schedStep1_msglen (s : State) : (schedStep1 s).msglen = s.msglen := by simp only [schedStep1, afterExpand_msglen]
@[simp] theorem schedStep1_buf (s : State) : (schedStep1 s).buf = s.buf := by simp only [schedStep1, afterExpand_buf]
@[simp] theorem schedStep1_bufcnt (s : State) : (schedStep1 s).bufcnt = s.bufcnt := by simp only [schedStep1, afterExpand_bufcnt]
@[simp] theorem schedStep1_dig (s : State) : (schedStep1 s).dig = s.dig := by simp only [schedStep1, afterExpand_dig]
@[simp] theorem schedStep1_div224 (s : State) : (schedStep1 s).div224 = s.div224 := by simp only [schedStep1, afterExpand_div224]
@[simp] theorem schedStep1_div256 (s : State) : (schedStep1 s).div256 = s.div256 := by simp only [schedStep1, afterExpand_div256]
@[simp] theorem schedStep1_divv224 (s : State) : (schedStep1 s).divv224 = s.divv224 := by simp only [schedStep1, afterExpand_divv224]
@[simp] theorem schedStep1_divv256 (s : State) : (schedStep1 s).divv256 = s.divv256 := by simp only [schedStep1, afterExpand_divv256]
@[simp] theorem schedStep1_rdata (s : State) : (schedStep1 s).rdata = s.rdata := by simp only [schedStep1, afterExpand_rdata]
@[simp] theorem schedStep1_cfg (s : State) : (schedStep1 s).cfg = s.cfg := by simp only [schedStep1, afterExpand_cfg]
@[simp] theorem schedStep1_bus (s : State) : (schedStep1 s).bus = s.bus := by simp only [schedStep1, afterExpand_bus]
@[simp] theorem schedStep1_turns (s : State) : (schedStep1 s).turns = s.turns := by simp only [schedStep1, afterExpand_turns]
@[simp] theorem schedStep1_draws (s : State) : (schedStep1 s).draws = s.draws := by simp only [schedStep1, afterExpand_draws]

/-! ## `round2` -/

@[simp] theorem round2_h (s : State) : (round2 s).h = s.h := by simp only [round2, afterRound_h]
@[simp] theorem round2_ws (s : State) : (round2 s).ws = s.ws := by simp only [round2, afterRound_ws]
@[simp] theorem round2_opk (s : State) : (round2 s).opk = s.opk := by simp only [round2, afterRound_opk]
@[simp] theorem round2_pb (s : State) : (round2 s).pb = s.pb := by simp only [round2, afterRound_pb]
@[simp] theorem round2_npb (s : State) : (round2 s).npb = s.npb := by simp only [round2, afterRound_npb]
@[simp] theorem round2_js (s : State) : (round2 s).js = s.js := by simp only [round2, afterRound_js]
@[simp] theorem round2_errcode (s : State) : (round2 s).errcode = s.errcode := by simp only [round2, afterRound_errcode]
@[simp] theorem round2_alg (s : State) : (round2 s).alg = s.alg := by simp only [round2, afterRound_alg]
@[simp] theorem round2_msglen (s : State) : (round2 s).msglen = s.msglen := by simp only [round2, afterRound_msglen]
@[simp] theorem round2_buf (s : State) : (round2 s).buf = s.buf := by simp only [round2, afterRound_buf]
@[simp] theorem round2_bufcnt (s : State) : (round2 s).bufcnt = s.bufcnt := by simp only [round2, afterRound_bufcnt]
@[simp] theorem round2_dig (s : State) : (round2 s).dig = s.dig := by simp only [round2, afterRound_dig]
@[simp] theorem round2_div224 (s : State) : (round2 s).div224 = s.div224 := by simp only [round2, afterRound_div224]
@[simp] theorem round2_div256 (s : State) : (round2 s).div256 = s.div256 := by simp only [round2, afterRound_div256]
@[simp] theorem round2_divv224 (s : State) : (round2 s).divv224 = s.divv224 := by simp only [round2, afterRound_divv224]
@[simp] theorem round2_divv256 (s : State) : (round2 s).divv256 = s.divv256 := by simp only [round2, afterRound_divv256]
@[simp] theorem round2_rdata (s : State) : (round2 s).rdata = s.rdata := by simp only [round2, afterRound_rdata]
@[simp] theorem round2_cfg (s : State) : (round2 s).cfg = s.cfg := by simp only [round2, afterRound_cfg]
@[simp] theorem round2_bus (s : State) : (round2 s).bus = s.bus := by simp only [round2, afterRound_bus]
@[simp] theorem round2_turns (s : State) : (round2 s).turns = s.turns := by simp only [round2, afterRound_turns]
@[simp] theorem round2_draws (s : State) : (round2 s).draws = s.draws := by simp only [round2, afterRound_draws]

/-! ## `round1` -/

@[simp] theorem round1_h (s : State) : (round1 s).h = s.h := by simp only [round1, afterRound_h]
@[simp] theorem round1_ws (s : State) : (round1 s).ws = s.ws := by simp only [round1, afterRound_ws]
@[simp] theorem round1_opk (s : State) : (round1 s).opk = s.opk := by simp only [round1, afterRound_opk]
@[simp] theorem round1_pb (s : State) : (round1 s).pb = s.pb := by simp only [round1, afterRound_pb]
@[simp] theorem round1_npb (s : State) : (round1 s).npb = s.npb := by simp only [round1, afterRound_npb]
@[simp] theorem round1_js (s : State) : (round1 s).js = s.js := by simp only [round1, afterRound_js]
@[simp] theorem round1_errcode (s : State) : (round1 s).errcode = s.errcode := by simp only [round1, afterRound_errcode]
@[simp] theorem round1_alg (s : State) : (round1 s).alg = s.alg := by simp only [round1, afterRound_alg]
@[simp] theorem round1_msglen (s : State) : (round1 s).msglen = s.msglen := by simp only [round1, afterRound_msglen]
@[simp] theorem round1_buf (s : State) : (round1 s).buf = s.buf := by simp only [round1, afterRound_buf]
@[simp] theorem round1_bufcnt (s : State) : (round1 s).bufcnt = s.bufcnt := by simp only [round1, afterRound_bufcnt]
@[simp] theorem round1_dig (s : State) : (round1 s).dig = s.dig := by simp only [round1, afterRound_dig]
@[simp] theorem round1_div224 (s : State) : (round1 s).div224 = s.div224 := by simp only [round1, afterRound_div224]
@[simp] theorem round1_div256 (s : State) : (round1 s).div256 = s.div256 := by simp only [round1, afterRound_div256]
@[simp] theorem round1_divv224 (s : State) : (round1 s).divv224 = s.divv224 := by simp only [round1, afterRound_divv224]
@[simp] theorem round1_divv256 (s : State) : (round1 s).divv256 = s.divv256 := by simp only [round1, afterRound_divv256]
@[simp] theorem round1_rdata (s : State) : (round1 s).rdata = s.rdata := by simp only [round1, afterRound_rdata]
@[simp] theorem round1_cfg (s : State) : (round1 s).cfg = s.cfg := by simp only [round1, afterRound_cfg]
@[simp] theorem round1_bus (s : State) : (round1 s).bus = s.bus := by simp only [round1, afterRound_bus]
@[simp] theorem round1_turns (s : State) : (round1 s).turns = s.turns := by simp only [round1, afterRound_turns]
@[simp] theorem round1_draws (s : State) : (round1 s).draws = s.draws := by simp only [round1, afterRound_draws]

/-! ## The conditional updates -/

theorem afterExpand_last (s : State) (h : s.t.val = (params s.alg).ns - 1) :
    afterExpand s = { s with ph := .wrload } := if_pos h

theorem afterExpand_more (s : State) (h : s.t.val ≠ (params s.alg).ns - 1) :
    afterExpand s = { s with t := s.t + 1 } := if_neg h

theorem afterRound_last (s : State) (h : s.t.val = (params s.alg).rounds - 1) :
    afterRound s = { s with ph := .feed } := if_pos h

theorem afterRound_more (s : State) (h : s.t.val ≠ (params s.alg).rounds - 1) :
    afterRound s = { s with t := s.t + 1 } := if_neg h

@[simp] theorem afterExpand_t (s : State) :
    (afterExpand s).t = if s.t.val = (params s.alg).ns - 1 then s.t else s.t + 1 := by
  unfold afterExpand; split <;> rfl

@[simp] theorem afterExpand_ph (s : State) :
    (afterExpand s).ph = if s.t.val = (params s.alg).ns - 1 then .wrload else s.ph := by
  unfold afterExpand; split <;> rfl

@[simp] theorem afterRound_t (s : State) :
    (afterRound s).t = if s.t.val = (params s.alg).rounds - 1 then s.t else s.t + 1 := by
  unfold afterRound; split <;> rfl

@[simp] theorem afterRound_ph (s : State) :
    (afterRound s).ph = if s.t.val = (params s.alg).rounds - 1 then .feed else s.ph := by
  unfold afterRound; split <;> rfl

@[simp] theorem schedStep2_t (s : State) :
    (schedStep2 s).t = if s.t.val = (params s.alg).ns - 1 then s.t else s.t + 1 := by simp only [schedStep2, afterExpand_t]

@[simp] theorem schedStep2_ph (s : State) :
    (schedStep2 s).ph = if s.t.val = (params s.alg).ns - 1 then .wrload else s.ph := by
  simp only [schedStep2, afterExpand_ph]

@[simp] theorem schedStep1_t (s : State) :
    (schedStep1 s).t = if s.t.val = (params s.alg).ns - 1 then s.t else s.t + 1 := by simp only [schedStep1, afterExpand_t]

@[simp] theorem schedStep1_ph (s : State) :
    (schedStep1 s).ph = if s.t.val = (params s.alg).ns - 1 then .wrload else s.ph := by
  simp only [schedStep1, afterExpand_ph]

@[simp] theorem round2_t (s : State) :
    (round2 s).t = if s.t.val = (params s.alg).rounds - 1 then s.t else s.t + 1 := by simp only [round2, afterRound_t]

@[simp] theorem round2_ph (s : State) :
    (round2 s).ph = if s.t.val = (params s.alg).rounds - 1 then .feed else s.ph := by simp only [round2, afterRound_ph]

@[simp] theorem round1_t (s : State) :
    (round1 s).t = if s.t.val = (params s.alg).rounds - 1 then s.t else s.t + 1 := by simp only [round1, afterRound_t]

@[simp] theorem round1_ph (s : State) :
    (round1 s).ph = if s.t.val = (params s.alg).rounds - 1 then .feed else s.ph := by simp only [round1, afterRound_ph]

theorem schedStep2_ws (s : State) :
    (schedStep2 s).ws = s.ws.set s.t.val (writeCell s.width (lcSigma1 s.width (word s.width s.ws (s.t.val - 2)) +
      word s.width s.ws (s.t.val - 7) + lcSigma0 s.width (word s.width s.ws (s.t.val - 15)) +
      word s.width s.ws (s.t.val - 16))) := by
  simp only [schedStep2, afterExpand_ws]

theorem schedStep1_ws (s : State) :
    (schedStep1 s).ws = s.ws.set s.t.val (writeCell .w32 (rotl (w := 32) (word .w32 s.ws (s.t.val - 3) ^^^
      word .w32 s.ws (s.t.val - 8) ^^^ word .w32 s.ws (s.t.val - 14) ^^^ word .w32 s.ws (s.t.val - 16)) 1)) := by
  simp only [schedStep1, afterExpand_ws]

/-- T1 of a SHA-2 round (R96), from the registers of the state. -/
abbrev roundT1 (s : State) : BitVec s.width.bits :=
  word s.width s.wr 7 + ucSigma1 s.width (word s.width s.wr 4) +
    ch (word s.width s.wr 4) (word s.width s.wr 5) (word s.width s.wr 6) + roundConstant2 s.width s.t.val +
    word s.width s.ws s.t.val

/-- T2 of a SHA-2 round (R96). -/
abbrev roundT2 (s : State) : BitVec s.width.bits :=
  ucSigma0 s.width (word s.width s.wr 0) + maj (word s.width s.wr 0) (word s.width s.wr 1) (word s.width s.wr 2)

theorem round2_wr (s : State) :
    (round2 s).wr = #v[writeCell s.width (roundT1 s + roundT2 s), writeCell s.width (word s.width s.wr 0),
      writeCell s.width (word s.width s.wr 1), writeCell s.width (word s.width s.wr 2),
      writeCell s.width (word s.width s.wr 3 + roundT1 s), writeCell s.width (word s.width s.wr 4),
      writeCell s.width (word s.width s.wr 5), writeCell s.width (word s.width s.wr 6)] := by
  simp only [round2, afterRound_wr]

/-- The new register a of a SHA-1 round (R98). -/
abbrev roundTemp (s : State) : BitVec 32 :=
  rotl (w := 32) (word .w32 s.wr 0) 5 +
    roundFunction1 s.t.val (word .w32 s.wr 1) (word .w32 s.wr 2) (word .w32 s.wr 3) + word .w32 s.wr 4 +
    roundConstant1 s.t.val + word .w32 s.ws s.t.val

theorem round1_wr (s : State) :
    (round1 s).wr = #v[writeCell .w32 (roundTemp s), writeCell .w32 (word .w32 s.wr 0),
      writeCell .w32 (rotl (w := 32) (word .w32 s.wr 1) 30), writeCell .w32 (word .w32 s.wr 2),
      writeCell .w32 (word .w32 s.wr 3), s.wr[5], s.wr[6], s.wr[7]] := by
  simp only [round1, afterRound_wr]

/-- Everything `deriveFinish` writes. -/
theorem deriveFinish_224 (s : State) (h : s.alg = 5) :
    deriveFinish s = { s with div224 := s.h, divv224 := true, opk := .none } := if_pos h

theorem deriveFinish_256 (s : State) (h : s.alg = 6) :
    deriveFinish s = { s with div256 := s.h, divv256 := true, opk := .none } := by
  unfold deriveFinish; rw [if_neg (by rw [h]; decide), if_pos h]

theorem deriveFinish_other (s : State) (h5 : s.alg ≠ 5) (h6 : s.alg ≠ 6) : deriveFinish s = { s with opk := .none } := by
  unfold deriveFinish; rw [if_neg h5, if_neg h6]

theorem startFullBlock_full (s : State) (h : s.bufcnt.toNat = (params s.alg).blockBytes) :
    startFullBlock s = { s with opk := .block, ph := .load } := if_pos h

theorem startFullBlock_more (s : State) (h : s.bufcnt.toNat ≠ (params s.alg).blockBytes) : startFullBlock s = s := if_neg h

end Sys2Proof.Machine
end

