-- ==== Sys2Proof/Laws/Ops.lean ====
section
/-! SUPPORT. For each shared operation, what it can do: later proofs cite these lemmas and do not unfold the operations. -/

namespace Sys2Proof.Machine

/-! ## Filling an array, and reading its words -/

@[simp] theorem getElem_fill {α : Type} {n : Nat} (v : Vector α n) (lo hi : Nat) (f : Nat → α) (i : Nat) (hi' : i < n) :
    (fill v lo hi f)[i] = if lo ≤ i ∧ i < hi then f i else v[i] := by
  simp [fill]

theorem fill_empty {α : Type} {n : Nat} (v : Vector α n) (lo : Nat) (f : Nat → α) : fill v lo lo f = v := by
  ext i hi
  simp only [getElem_fill]
  rw [if_neg (by omega)]

theorem getD_of_lt {α : Type} {n : Nat} (v : Vector α n) (i : Nat) (h : i < n) (d : α) : v.getD i d = v[i] := by
  simp [Vector.getD, Array.getD, h]

theorem word_of_lt {n : Nat} (W : Width) (v : Vector Cell n) (i : Nat) (h : i < n) :
    word W v i = readCell W v[i] := by
  rw [word, getD_of_lt v i h]

/-- A word written to a cell is the word read back (R16). -/
@[simp] theorem readCell_writeCell (W : Width) (x : BitVec W.bits) : readCell W (writeCell W x) = x := by
  cases W
  · exact BitVec.setWidth_setWidth_of_le x (by decide)
  · simp [readCell, writeCell]

/-- A 64-bit word fills its cell. -/
@[simp] theorem writeCell_readCell_w64 (c : Cell) : writeCell .w64 (readCell .w64 c) = c := by
  simp [readCell, writeCell]

/-- What is written under width W fits W (R16). -/
theorem fits_writeCell (W : Width) (x : BitVec W.bits) : fits W (writeCell W x) := by
  have h := x.isLt
  cases W <;> simp only [fits, writeCell, Width.bits, BitVec.toNat_setWidth] at * <;> omega

theorem fits_w64 (c : Cell) : fits .w64 c := c.isLt

theorem word_fill {n : Nat} (W : Width) (v : Vector Cell n) (lo hi : Nat) (f : Nat → Cell) (i : Nat) (h : i < n) :
    word W (fill v lo hi f) i = if lo ≤ i ∧ i < hi then readCell W (f i) else word W v i := by
  rw [word_of_lt W _ i h, word_of_lt W _ i h, getElem_fill]
  split <;> rfl

theorem word_set {n : Nat} (W : Width) (v : Vector Cell n) (k : Nat) (hk : k < n) (x : Cell) (i : Nat) (h : i < n) :
    word W (v.set k x) i = if k = i then readCell W x else word W v i := by
  rw [word_of_lt W _ i h, word_of_lt W _ i h, Vector.getElem_set]
  split <;> rfl

/-! ## The commands -/

theorem opInit_reserved (s : State) : opInit 7 s = raiseError .badAlg s := rfl

theorem opInit_published (a : BitVec 3) (s : State) (h : a.toNat ≤ 4) :
    opInit a s = { newJob a s with h := fill s.h 0 (params a).nh fun i => (ivRom a).getD i 0 } := by
  have h7 : a ≠ 7 := fun e => by subst e; exact absurd h (by decide)
  simp only [opInit, if_neg h7, if_pos h]

theorem opInit_cached224 (s : State) (h : s.divv224 = true) :
    opInit 5 s = { newJob 5 s with h := s.div224 } := by
  unfold opInit
  rw [if_neg (by decide), if_neg (by decide), if_pos ⟨rfl, h⟩]

theorem opInit_cached256 (s : State) (h : s.divv256 = true) :
    opInit 6 s = { newJob 6 s with h := s.div256 } := by
  unfold opInit
  rw [if_neg (by decide), if_neg (by decide), if_neg (by rintro ⟨h, -⟩; exact absurd h (by decide)), if_pos ⟨rfl, h⟩]

/-- Whether INIT of `a` must derive its IV (R106, R120). -/
def mustDerive (a : BitVec 3) (s : State) : Prop :=
  a = 5 ∧ s.divv224 = false ∨ a = 6 ∧ s.divv256 = false

theorem opInit_derives (a : BitVec 3) (s : State) (h : mustDerive a s) :
    opInit a s = deriveStart a (newJob a s) := by
  unfold opInit
  rcases h with ⟨rfl, h⟩ | ⟨rfl, h⟩
  · rw [if_neg (by decide), if_neg (by decide), if_neg (by simp [h]), if_neg (by rintro ⟨h, -⟩; exact absurd h (by decide))]
  · rw [if_neg (by decide), if_neg (by decide), if_neg (by rintro ⟨h, -⟩; exact absurd h (by decide)), if_neg (by simp [h])]

/-- Everything INIT can do. -/
theorem opInit_cases (a : BitVec 3) (s : State) :
    (a = 7 ∧ opInit a s = raiseError .badAlg s) ∨
    (a.toNat ≤ 4 ∧ opInit a s = { newJob a s with h := fill s.h 0 (params a).nh fun i => (ivRom a).getD i 0 }) ∨
    (a = 5 ∧ s.divv224 = true ∧
      opInit a s = { s with alg := 5, js := .active, errcode := .none, msglen := 0, bufcnt := 0, h := s.div224 }) ∨
    (a = 6 ∧ s.divv256 = true ∧
      opInit a s = { s with alg := 6, js := .active, errcode := .none, msglen := 0, bufcnt := 0, h := s.div256 }) ∨
    (mustDerive a s ∧
      opInit a s = deriveStart a (newJob a s)) := by
  by_cases h4 : a.toNat ≤ 4
  · exact .inr (.inl ⟨h4, opInit_published a s h4⟩)
  · have h567 : a = 5 ∨ a = 6 ∨ a = 7 := by
      have := a.isLt
      simp only [← BitVec.toNat_inj]
      simp only [BitVec.reduceToNat]
      omega
    rcases h567 with rfl | rfl | rfl
    · by_cases hv : s.divv224 = true
      · exact .inr (.inr (.inl ⟨rfl, hv, opInit_cached224 s hv⟩))
      · have hm : mustDerive 5 s := .inl ⟨rfl, by simpa using hv⟩
        exact .inr (.inr (.inr (.inr ⟨hm, opInit_derives 5 s hm⟩)))
    · by_cases hv : s.divv256 = true
      · exact .inr (.inr (.inr (.inl ⟨rfl, hv, opInit_cached256 s hv⟩)))
      · have hm : mustDerive 6 s := .inr ⟨rfl, by simpa using hv⟩
        exact .inr (.inr (.inr (.inr ⟨hm, opInit_derives 6 s hm⟩)))
    · exact .inl ⟨rfl, rfl⟩

/-- Everything DATA can do. -/
theorem opData_cases (v : BusWord) (s : State) :
    (s.js ≠ .active ∧ opData v s = raiseError .notActive s) ∨
    (s.js = .active ∧ lmax s.alg < s.msglen.toNat + 4 ∧ opData v s = raiseError .lenOverflow s) ∨
    (s.js = .active ∧ s.msglen.toNat + 4 ≤ lmax s.alg ∧
      opData v s = startFullBlock (appendBytes 4 (laneByte v) s)) := by
  unfold opData
  by_cases hj : s.js = .active
  · by_cases ho : lmax s.alg < s.msglen.toNat + 4
    · exact .inr (.inl ⟨hj, ho, by simp [hj, lenOverflows, ho]⟩)
    · exact .inr (.inr ⟨hj, by omega, by simp [hj, lenOverflows, ho]⟩)
  · exact .inl ⟨hj, by simp [hj]⟩

/-- Everything FINAL can do. -/
theorem opFinal_cases (nb : BitVec 2) (tb0 tb1 tb2 : Byte) (s : State) :
    (s.js ≠ .active ∧ opFinal nb tb0 tb1 tb2 s = raiseError .notActive s) ∨
    (s.js = .active ∧ lmax s.alg < s.msglen.toNat + nb.toNat ∧
      opFinal nb tb0 tb1 tb2 s = raiseError .lenOverflow s) ∨
    (s.js = .active ∧ s.msglen.toNat + nb.toNat ≤ lmax s.alg ∧
      opFinal nb tb0 tb1 tb2 s =
        { padFirst (appendBytes nb.toNat (tailByte tb0 tb1 tb2) s) with opk := .final, pb := 0, ph := .load }) := by
  unfold opFinal
  by_cases hj : s.js = .active
  · by_cases ho : lmax s.alg < s.msglen.toNat + nb.toNat
    · exact .inr (.inl ⟨hj, ho, by simp [hj, lenOverflows, ho]⟩)
    · exact .inr (.inr ⟨hj, by omega, by simp [hj, lenOverflows, ho]⟩)
  · exact .inl ⟨hj, by simp [hj]⟩

/-- A function of the command a word selects is the choice between its values (R118). -/
theorem apply_selectCmd {α β : Type} (g : α → β) (v : BusWord) (nop : α) (init : BitVec 3 → α)
    (final : BitVec 2 → Byte → Byte → Byte → α) (b0 b1 b2 r : α) :
    g (selectCmd v nop init final b0 b1 b2 r) =
      selectCmd v (g nop) (fun a => g (init a)) (fun n x y z => g (final n x y z)) (g b0) (g b1) (g b2) (g r) := by
  unfold selectCmd
  repeat' split
  all_goals rfl

/-! ## What a host operation can do -/

/-- Every host operation answers a next state, and the state is one of these. -/
theorem exec_cases (i : Instr) (s : State) :
    ∃ t, exec i s = .next t ∧
      (t = s ∨ (∃ x, t = answer x s) ∨ (∃ a, t = opInit a s) ∨
        (∃ nb tb0 tb1 tb2, t = opFinal nb tb0 tb1 tb2 s) ∨ t = opRsvd s ∨ (∃ v, t = opData v s)) := by
  cases i with
  | wrCmd v =>
    refine ⟨_, rfl, ?_⟩
    unfold selectCmd
    repeat' split
    · exact .inl rfl
    · exact .inr (.inr (.inl ⟨_, rfl⟩))
    · exact .inr (.inr (.inr (.inl ⟨_, _, _, _, rfl⟩)))
    all_goals exact .inr (.inr (.inr (.inr (.inl rfl))))
  | wrData v => exact ⟨_, rfl, .inr (.inr (.inr (.inr (.inr ⟨v, rfl⟩))))⟩
  | rdStatus => exact ⟨_, rfl, .inr (.inl ⟨_, rfl⟩)⟩
  | rdMsglenLo => exact ⟨_, rfl, .inr (.inl ⟨_, rfl⟩)⟩
  | rdMsglenHi => exact ⟨_, rfl, .inr (.inl ⟨_, rfl⟩)⟩
  | rdDigest i => exact ⟨_, rfl, .inr (.inl ⟨_, rfl⟩)⟩
  | wrIgnored off v => exact ⟨_, rfl, .inl rfl⟩
  | rdZero off => exact ⟨_, rfl, .inr (.inl ⟨_, rfl⟩)⟩
  | nop => exact ⟨_, rfl, .inl rfl⟩
  | init a => exact ⟨_, rfl, .inr (.inr (.inl ⟨a, rfl⟩))⟩
  | final nb tb0 tb1 tb2 => exact ⟨_, rfl, .inr (.inr (.inr (.inl ⟨nb, tb0, tb1, tb2, rfl⟩)))⟩
  | badBitsNop v => exact ⟨_, rfl, .inr (.inr (.inr (.inr (.inl rfl))))⟩
  | badBitsInit v => exact ⟨_, rfl, .inr (.inr (.inr (.inr (.inl rfl))))⟩
  | badBitsFinal v => exact ⟨_, rfl, .inr (.inr (.inr (.inr (.inl rfl))))⟩
  | cmdRsvd v => exact ⟨_, rfl, .inr (.inr (.inr (.inr (.inl rfl))))⟩

/-! ## The engine -/

theorem busy_iff (s : State) : s.busy = true ↔ s.opk ≠ .none := by simp [State.busy]

theorem not_busy_iff (s : State) : s.busy = false ↔ s.opk = .none := by simp [State.busy]

/-- The engine has no step while it is idle (R100). -/
theorem engineStep_idle (s : State) (h : s.opk = .none) : engineStep s = s := by simp [engineStep, h]

/-- While OPK ≠ NONE the phase says which step is taken (R100). -/
theorem engineStep_busy (s : State) (h : s.opk ≠ .none) :
    engineStep s = match s.ph with
      | .load => schedLoad s
      | .expand => if s.alg = 0 then schedStep1 s else schedStep2 s
      | .wrload => wrLoad s
      | .round => if s.alg = 0 then round1 s else round2 s
      | .feed => feedForward s
      | .next => nextStep s := by
  unfold engineStep
  cases ho : s.opk <;> first | exact absurd ho h | rfl

/-- Everything an engine step can do while OPK ≠ NONE (R100). -/
theorem engineStep_cases (s : State) (h : s.opk ≠ .none) :
    (s.ph = .load ∧ engineStep s = schedLoad s) ∨
    (s.ph = .expand ∧ s.alg = 0 ∧ engineStep s = schedStep1 s) ∨
    (s.ph = .expand ∧ s.alg ≠ 0 ∧ engineStep s = schedStep2 s) ∨
    (s.ph = .wrload ∧ engineStep s = wrLoad s) ∨
    (s.ph = .round ∧ s.alg = 0 ∧ engineStep s = round1 s) ∨
    (s.ph = .round ∧ s.alg ≠ 0 ∧ engineStep s = round2 s) ∨
    (s.ph = .feed ∧ engineStep s = feedForward s) ∨
    (s.ph = .next ∧ s.opk = .block ∧ engineStep s = { s with bufcnt := 0, opk := .none }) ∨
    (s.ph = .next ∧ s.opk = .final ∧ s.pb.val + 1 < s.npb.count ∧
      engineStep s = { padSecond s with pb := s.pb + 1, ph := .load }) ∨
    (s.ph = .next ∧ s.opk = .final ∧ s.npb.count ≤ s.pb.val + 1 ∧ engineStep s = finalFinish (serialize s)) ∨
    (s.ph = .next ∧ s.opk = .derive ∧ engineStep s = deriveFinish s) := by
  have hs := engineStep_busy s h
  cases hp : s.ph <;> simp only [hp] at hs <;> simp only [hs, reduceCtorEq, false_and, true_and, false_or, or_false]
  case expand => by_cases ha : s.alg = 0 <;> simp only [ha, if_true, if_false, not_true, not_false_iff, true_and, false_and, true_or, or_true, ne_eq]
  case round => by_cases ha : s.alg = 0 <;> simp only [ha, if_true, if_false, not_true, not_false_iff, true_and, false_and, true_or, or_true, ne_eq]
  case next =>
    cases ho : s.opk
    case none => exact absurd ho h
    case block => exact .inl ⟨rfl, by simp only [nextStep, ho, hp]⟩
    case derive => exact .inr (.inr (.inr ⟨rfl, by simp only [nextStep, ho]⟩))
    case final =>
      by_cases hb : s.pb.val + 1 < s.npb.count
      · exact .inr (.inl ⟨rfl, hb, by simp only [nextStep, ho, if_pos hb]⟩)
      · exact .inr (.inr (.inl ⟨rfl, by omega, by simp only [nextStep, ho, if_neg hb]⟩))

/-! ## What is held -/

/-- An idle machine, or one whose next access is a STATUS read, holds nothing (R116). -/
theorem holds_eq_false {s : State} {a : BusAccess} {rest : List BusAccess} {i : Instr} (hb : s.bus = a :: rest)
    (hd : decodeAccess s.cfg.base a = .ok i) (h : s.busy = false ∨ i = .rdStatus) : s.holds = false := by
  rcases h with h | rfl
  · simp [State.holds, h]
  · simp [State.holds, hb, waitsWhileBusy, hd]

/-- While BUSY = 1 any other access is held (R116). -/
theorem holds_eq_true {s : State} {a : BusAccess} {rest : List BusAccess} {i : Instr} (hb : s.bus = a :: rest)
    (hd : decodeAccess s.cfg.base a = .ok i) (h : s.busy = true) (hi : i ≠ .rdStatus) : s.holds = true := by
  simp only [State.holds, hb, waitsWhileBusy, hd, h]
  cases i <;> simp_all

/-- An access that is no operation is never held (R35). -/
theorem holds_of_error {s : State} {a : BusAccess} {rest : List BusAccess} {r : Reject} (hb : s.bus = a :: rest)
    (hd : decodeAccess s.cfg.base a = .error r) : s.holds = false := by
  simp [State.holds, hb, waitsWhileBusy, hd]

/-- What is held is an operation other than a STATUS read, and BUSY is 1 (R116). -/
theorem operation_of_holds {s : State} (h : s.holds = true) :
    s.busy = true ∧ ∃ a rest i, s.bus = a :: rest ∧ decodeAccess s.cfg.base a = .ok i ∧ i ≠ .rdStatus := by
  unfold State.holds at h
  rw [Bool.and_eq_true] at h
  refine ⟨h.1, ?_⟩
  cases hb : s.bus with
  | nil => simp [hb] at h
  | cons a rest =>
    have hw : waitsWhileBusy s.cfg.base a = true := by simpa [hb] using h.2
    cases hd : decodeAccess s.cfg.base a with
    | error r => simp [waitsWhileBusy, hd] at hw
    | ok i =>
      refine ⟨a, rest, i, rfl, hd, ?_⟩
      rintro rfl
      simp [waitsWhileBusy, hd] at hw

/-! ## What a transition can do -/

/-- Everything a transition that answers a next state can be: a hardware reset, an engine step, or a host access that takes
effect. In the last two the environment's choice, if there was one, is used up. -/
theorem step_cases {s t : State} (h : step s = .next t) :
    (∃ ts, s.turns = .reset :: ts ∧ t = hardReset { s with turns := ts }) ∨
    (s.turns.head? ≠ some .reset ∧ t = engineStep { s with turns := s.turns.tail }) ∨
    (s.turns.head? ≠ some .reset ∧ ∃ a rest i, s.bus = a :: rest ∧ decodeAccess s.cfg.base a = .ok i ∧
      (s.busy = false ∨ i = .rdStatus) ∧ exec i { s with bus := rest, turns := s.turns.tail } = .next t) := by
  have host : ∀ ts, hostTurn { s with turns := ts } = .next t →
      t = engineStep { s with turns := ts } ∨
      ∃ a rest i, s.bus = a :: rest ∧ decodeAccess s.cfg.base a = .ok i ∧
        (s.busy = false ∨ i = .rdStatus) ∧ exec i { s with bus := rest, turns := ts } = .next t := by
    intro ts hh
    unfold hostTurn at hh
    cases hb : s.bus with
    | nil => simp only [hb] at hh; exact .inl (Host.Outcome.next.inj hh).symm
    | cons a rest =>
      simp only [hb] at hh
      split at hh
      · next hheld => exact .inl (Host.Outcome.next.inj hh).symm
      · next hfree =>
        simp only [takeAccess] at hh
        cases hd : decodeAccess s.cfg.base a with
        | error r => simp [hd] at hh
        | ok i =>
          simp only [hd] at hh
          refine .inr ⟨a, rest, i, rfl, hd, ?_, hh⟩
          by_contra hc
          obtain ⟨hbusy, hi⟩ := not_or.1 hc
          exact hfree (holds_eq_true (s := { s with bus := a :: rest, turns := ts }) rfl hd
            (Bool.eq_true_of_not_eq_false hbusy) hi)
  unfold step transition at h
  cases ht : s.turns with
  | nil =>
    simp only [ht] at h
    have := host [] (by rw [← ht]; exact h)
    rcases this with h | h
    · exact .inr (.inl ⟨by simp, h⟩)
    · exact .inr (.inr ⟨by simp, h⟩)
  | cons u ts =>
    cases u with
    | reset =>
      simp only [ht] at h
      exact .inl ⟨ts, rfl, (Host.Outcome.next.inj h).symm⟩
    | host =>
      simp only [ht] at h
      rcases host ts h with h | h
      · exact .inr (.inl ⟨by simp, h⟩)
      · exact .inr (.inr ⟨by simp, h⟩)
    | engine =>
      simp only [ht, engineTurn] at h
      split at h
      · exact .inr (.inl ⟨by simp, (Host.Outcome.next.inj h).symm⟩)
      · rcases host ts h with h | h
        · exact .inr (.inl ⟨by simp, h⟩)
        · exact .inr (.inr ⟨by simp, h⟩)

end Sys2Proof.Machine
end

