-- ==== Sys2Proof/Laws/PerInstr.lean ====
section
/-! SUPPORT. Per-instruction families: for each, a statement about an instruction as syntax, and one lemma for each
constructor of Instr. -/

namespace Sys2Proof.Laws.EncodedRow

/-- A bus row selects the transfer. -/
def onBus (p : Pattern 8) : Transfer → Bool
  | .bus td _ => p.hits td
  | .cmd _ => false

/-- A cmd row selects the transfer. -/
def onCmd (p : Pattern 32) : Transfer → Bool
  | .bus _ _ => false
  | .cmd v => p.hits v

/-- Whether the opcode-table row of an operation selects a transfer, by that row's own match and mask. -/
def rowSelects : Instr → Transfer → Bool
  | .wrCmd _ => onBus rowWrCmd
  | .wrData _ => onBus rowWrData
  | .rdStatus => onBus rowRdStatus
  | .rdMsglenLo => onBus rowRdMsglenLo
  | .rdMsglenHi => onBus rowRdMsglenHi
  | .rdDigest _ => onBus rowRdDigest
  | .wrIgnored _ _ => onBus rowWrIgnored
  | .rdZero _ => onBus rowRdZero
  | .nop => onCmd rowNop
  | .init _ => onCmd rowInit
  | .final _ _ _ _ => onCmd rowFinal
  | .badBitsNop _ => onCmd rowBadBitsNop
  | .badBitsInit _ => onCmd rowBadBitsInit
  | .badBitsFinal _ => onCmd rowBadBitsFinal
  | .cmdRsvd _ => onCmd rowCmdRsvd

/-- The encoding of a well-formed operation is selected by its own row of the opcode table (R56). -/
def Statement (i : Instr) : Prop := i.wf = true → rowSelects i (encode i) = true

theorem wrCmd (v : BusWord) : Statement (.wrCmd v) := fun _ => rfl

theorem wrData (v : BusWord) : Statement (.wrData v) := fun _ => rfl

theorem rdStatus : Statement .rdStatus := fun _ => rfl

theorem rdMsglenLo : Statement .rdMsglenLo := fun _ => rfl

theorem rdMsglenHi : Statement .rdMsglenHi := fun _ => rfl

theorem rdDigest (i : BitVec 4) : Statement (.rdDigest i) := by
  intro _
  revert i
  decide

theorem wrIgnored (off : BitVec 7) (v : BusWord) : Statement (.wrIgnored off v) := by
  have key : ∀ off : BitVec 7, (alignedOffset off && ignoresWrites off) = true →
      rowWrIgnored.hits (descriptor true off) = true := by decide
  exact fun h => key off h

theorem rdZero (off : BitVec 7) : Statement (.rdZero off) := by
  have key : ∀ off : BitVec 7, (alignedOffset off && readsZero off) = true →
      rowRdZero.hits (descriptor false off) = true := by decide
  exact fun h => key off h

theorem nop : Statement .nop := fun _ => rfl

theorem init (a : BitVec 3) : Statement (.init a) := by
  intro _
  revert a
  decide

theorem final (nb : BitVec 2) (tb0 tb1 tb2 : Byte) : Statement (.final nb tb0 tb1 tb2) := by
  intro _
  show rowFinal.hits (tb0 ++ tb1 ++ tb2 ++ (0 : BitVec 2) ++ nb ++ (2 : BitVec 4)) = true
  rw [rowFinal_hit, decide_eq_true_eq]
  have hnb := nb.isLt
  constructor <;> simp only [← BitVec.toNat_inj, toNat_field, toNat_append_eq] <;> omega

theorem badBitsNop (v : BusWord) : Statement (.badBitsNop v) := by
  intro h
  simp only [Instr.wf, opcodeOf, Bool.and_eq_true, beq_iff_eq] at h
  show rowBadBitsNop.hits v = true
  rw [rowBadBitsNop_hit, decide_eq_true_eq]
  exact h.1

theorem badBitsInit (v : BusWord) : Statement (.badBitsInit v) := by
  intro h
  simp only [Instr.wf, opcodeOf, Bool.and_eq_true, beq_iff_eq] at h
  show rowBadBitsInit.hits v = true
  rw [rowBadBitsInit_hit, decide_eq_true_eq]
  exact h.1

theorem badBitsFinal (v : BusWord) : Statement (.badBitsFinal v) := by
  intro h
  simp only [Instr.wf, opcodeOf, Bool.and_eq_true, beq_iff_eq] at h
  show rowBadBitsFinal.hits v = true
  rw [rowBadBitsFinal_hit, decide_eq_true_eq]
  exact h.1

theorem cmdRsvd (v : BusWord) : Statement (.cmdRsvd v) := by
  intro _
  show ((v &&& 0) == 0) = true
  simp

end Sys2Proof.Laws.EncodedRow
end

