-- ==== Sys2Proof/Laws/Step.lean ====
section
/-! SUPPORT. Whose turn it is, runs of several steps, and the engine's step in each phase; with the conversions between
cells, words, bytes and numbers that the engine's statements need. -/

namespace Sys2Proof.Machine

/-! ## The bus -/

/-- The host's turn refuses an access that is no operation, while BUSY = 1 as well (R35). -/
theorem hostTurn_of_error {s : State} {a : BusAccess} {rest : List BusAccess} {r : Reject} (hb : s.bus = a :: rest)
    (hd : decodeAccess s.cfg.base a = .error r) : hostTurn s = .refused (refusalOf r) := by
  simp only [hostTurn, hb, holds_of_error hb hd, takeAccess, hd, Bool.false_eq_true, if_false]

/-- The host's turn, when its next access is not held. -/
theorem hostTurn_of_not_held {s : State} {a : BusAccess} {rest : List BusAccess} {i : Instr} (hb : s.bus = a :: rest)
    (hd : decodeAccess s.cfg.base a = .ok i) (h : s.holds = false) : hostTurn s = exec i { s with bus := rest } := by
  simp only [hostTurn, hb, h, takeAccess, hd, Bool.false_eq_true, if_false]

/-- The host's turn, when it has issued nothing or its next access is held. -/
theorem hostTurn_of_waiting {s : State} (h : s.bus = [] ∨ s.holds = true) : hostTurn s = .next (engineStep s) := by
  unfold hostTurn
  rcases h with h | h
  · simp only [h]
  · cases hb : s.bus with
    | nil => rfl
    | cons a rest => simp only [h, if_true]

/-- Where the environment has made no choice, a step is the host's turn. -/
theorem step_of_no_turns {s : State} (h : s.turns = []) : step s = hostTurn s := by
  unfold step transition
  simp only [h]

/-! ## Runs -/

/-- A run whose first step goes on is the run from there. It is said for every machine, so that it rewrites a run of
`core` whose state is written as `State`. -/
theorem run_of_next (M : Host.Core) (n : Nat) (s t : M.State) (h : M.step s = .next t) : M.run (n + 1) s = M.run n t := by
  simp only [Host.Core.run, h]

theorem engineSteps_add (m n : Nat) (s : State) : engineSteps (m + n) s = engineSteps n (engineSteps m s) := by
  induction m generalizing s with
  | zero => simp [engineSteps]
  | succ m ih =>
    rw [Nat.succ_add]
    simp only [engineSteps]
    exact ih _

theorem engineSteps_succ (n : Nat) (s : State) : engineSteps (n + 1) s = engineStep (engineSteps n s) :=
  engineSteps_add n 1 s

/-! ## The engine's step in each phase -/

theorem engineStep_load {s : State} (h : s.busy = true) (hp : s.ph = .load) : engineStep s = schedLoad s := by
  rw [engineStep_busy s ((busy_iff s).1 h), hp]

theorem engineStep_expand {s : State} (h : s.busy = true) (hp : s.ph = .expand) :
    engineStep s = if s.alg = 0 then schedStep1 s else schedStep2 s := by
  rw [engineStep_busy s ((busy_iff s).1 h), hp]

theorem engineStep_wrload {s : State} (h : s.busy = true) (hp : s.ph = .wrload) : engineStep s = wrLoad s := by
  rw [engineStep_busy s ((busy_iff s).1 h), hp]

theorem engineStep_round {s : State} (h : s.busy = true) (hp : s.ph = .round) :
    engineStep s = if s.alg = 0 then round1 s else round2 s := by
  rw [engineStep_busy s ((busy_iff s).1 h), hp]

theorem engineStep_feed {s : State} (h : s.busy = true) (hp : s.ph = .feed) : engineStep s = feedForward s := by
  rw [engineStep_busy s ((busy_iff s).1 h), hp]

theorem engineStep_next {s : State} (h : s.busy = true) (hp : s.ph = .next) : engineStep s = nextStep s := by
  rw [engineStep_busy s ((busy_iff s).1 h), hp]

/-- T advances by one inside its range (R17). -/
theorem t_succ (t : Fin 80) (h : t.val < 79) : (t + 1).val = t.val + 1 := by
  rw [Fin.val_add]
  simp
  omega

/-! ## Cells, words and bytes as numbers -/

theorem toNat_writeCell (W : Width) (x : BitVec W.bits) : (writeCell W x).toNat = x.toNat := by
  have h := x.isLt
  cases W <;> simp only [writeCell, Width.bits, BitVec.toNat_setWidth] at * <;> omega

theorem toNat_readCell (W : Width) (c : Cell) : (readCell W c).toNat = c.toNat % 2 ^ W.bits := by
  simp [readCell]

theorem beByte_eq_div (n v i : Nat) : beByte n v i = BitVec.ofNat 8 (v / 256 ^ (n - 1 - i)) := by
  unfold beByte
  rw [Nat.shiftRight_eq_div_pow, pow_mul]
  rfl

/-- BEword_32 (R10). -/
theorem toNat_beWord_w32 (f : Nat → Byte) : (beWord .w32 f).toNat =
    (f 0).toNat * 2 ^ 24 + (f 1).toNat * 2 ^ 16 + (f 2).toNat * 2 ^ 8 + (f 3).toNat := by
  have b0 := (f 0).isLt; have b1 := (f 1).isLt; have b2 := (f 2).isLt; have b3 := (f 3).isLt
  simp only [beWord, Width.bits, List.range, List.range.loop, List.foldl, BitVec.toNat_ofNat]
  omega

/-- BEword_64 (R10). -/
theorem toNat_beWord_w64 (f : Nat → Byte) : (beWord .w64 f).toNat =
    (f 0).toNat * 2 ^ 56 + (f 1).toNat * 2 ^ 48 + (f 2).toNat * 2 ^ 40 + (f 3).toNat * 2 ^ 32 +
      (f 4).toNat * 2 ^ 24 + (f 5).toNat * 2 ^ 16 + (f 6).toNat * 2 ^ 8 + (f 7).toNat := by
  have b0 := (f 0).isLt; have b1 := (f 1).isLt; have b2 := (f 2).isLt; have b3 := (f 3).isLt
  have b4 := (f 4).isLt; have b5 := (f 5).isLt; have b6 := (f 6).isLt; have b7 := (f 7).isLt
  simp only [beWord, Width.bits, List.range, List.range.loop, List.foldl, BitVec.toNat_ofNat]
  omega

/-! ## Filled arrays as lists -/

/-- An array filled throughout. -/
theorem toList_fill_all {α : Type} {n : Nat} (v : Vector α n) (f : Nat → α) :
    (fill v 0 n f).toList = (List.range n).map f := by
  apply List.ext_getElem
  · simp
  · intro i h1 h2
    have hi : i < n := by simpa using h1
    rw [Vector.getElem_toList, getElem_fill, if_pos (by omega)]
    simp

/-- An array whose first k elements are filled from a list of length k. -/
theorem toList_fill_prefix {α : Type} {n : Nat} (v : Vector α n) (k : Nat) (l : List α) (d : α) (hl : l.length = k)
    (hk : k ≤ n) : (fill v 0 k fun i => l.getD i d).toList = l ++ v.toList.drop k := by
  apply List.ext_getElem
  · simp
    omega
  · intro i h1 h2
    have hi : i < n := by simpa using h1
    rw [Vector.getElem_toList, getElem_fill]
    by_cases h : i < k
    · rw [if_pos (by omega), List.getElem_append_left (by omega)]
      simp [List.getD, hl ▸ h]
    · rw [if_neg (by omega), List.getElem_append_right (by omega)]
      simp
      congr 1
      omega

/-! ## The parameters of every algorithm code (R6) -/

theorem params_block_sizes : ∀ a : BitVec 3,
    ((params a).blockBytes = 64 ∧ (params a).lenBytes = 8 ∨ (params a).blockBytes = 128 ∧ (params a).lenBytes = 16) ∧
      lmax a < 2 ^ 64 := by decide

theorem params_counts : ∀ a : BitVec 3, 64 ≤ (params a).ns ∧ (params a).ns ≤ 80 ∧ 64 ≤ (params a).rounds ∧
    (params a).rounds ≤ 80 ∧ (params a).nh ≤ 8 ∧ 5 ≤ (params a).nh := by decide

end Sys2Proof.Machine
end

