-- ==== Sys2Proof/Tests/Slice0.lean ====
section
/-! SUPPORT. The model's own tests: what WellFormed refuses, words written out from the spec's encodings, one step on a
small state, the vectors of spec/95_test_vectors.md, and a witness for the hypotheses of every statement. The expected
values are the spec's; the source stands above each group. -/

namespace Sys2Proof.Tests

set_option maxRecDepth 20000
set_option Elab.async false

open Sys2Proof Sys2Proof.Machine

/-! ## What WellFormed refuses (R56, R58) -/

theorem test_wf_refuses_wrIgnored_misaligned : (Instr.wrIgnored 0x05 0).wf = false := by decide
theorem test_wf_refuses_wrIgnored_at_cmd : (Instr.wrIgnored 0x00 0).wf = false := by decide
theorem test_wf_refuses_wrIgnored_at_data : (Instr.wrIgnored 0x08 0).wf = false := by decide
theorem test_wf_refuses_rdZero_misaligned : (Instr.rdZero 0x15).wf = false := by decide
theorem test_wf_refuses_rdZero_at_status : (Instr.rdZero 0x04).wf = false := by decide
theorem test_wf_refuses_rdZero_at_msglen : (Instr.rdZero 0x0C).wf = false ∧ (Instr.rdZero 0x10).wf = false := by decide
theorem test_wf_refuses_rdZero_at_digest : (Instr.rdZero 0x40).wf = false := by decide
theorem test_wf_refuses_badBitsNop_of_nop : (Instr.badBitsNop 0).wf = false := by decide
theorem test_wf_refuses_badBitsNop_of_init : (Instr.badBitsNop 0x11).wf = false := by decide
theorem test_wf_refuses_badBitsInit_of_init : (Instr.badBitsInit 0x71).wf = false := by decide
theorem test_wf_refuses_badBitsInit_of_nop : (Instr.badBitsInit 0x80).wf = false := by decide
theorem test_wf_refuses_badBitsFinal_of_final : (Instr.badBitsFinal 0x61626332).wf = false := by decide
theorem test_wf_refuses_badBitsFinal_of_rsvd : (Instr.badBitsFinal 0xC3).wf = false := by decide
theorem test_wf_refuses_cmdRsvd_of_init : (Instr.cmdRsvd 0x01).wf = false ∧ (Instr.cmdRsvd 0x02).wf = false := by decide

/-! ## Words written out bit by bit from the encodings of R51 to R53 and R56, and 95_test_vectors.md 2.9 -/

-- bus rows: {WE, OFF[6:0]}
theorem test_word_wrCmd : decodeTableWord 8 0b1_0000000 = some (.wrCmd 0) := by decide
theorem test_word_wrData : decodeTableWord 8 0b1_0001000 = some (.wrData 0) := by decide
theorem test_word_rdStatus : decodeTableWord 8 0b0_0000100 = some .rdStatus := by decide
theorem test_word_rdMsglenLo : decodeTableWord 8 0b0_0001100 = some .rdMsglenLo := by decide
theorem test_word_rdMsglenHi : decodeTableWord 8 0b0_0010000 = some .rdMsglenHi := by decide
theorem test_word_rdDigest : decodeTableWord 8 0b0_1_0000_00 = some (.rdDigest 0) ∧
    decodeTableWord 8 0b0_1_1101_00 = some (.rdDigest 13) := by decide
theorem test_word_wrIgnored : decodeTableWord 8 0b1_0000100 = some (.wrIgnored 0x04 0) ∧
    decodeTableWord 8 0b1_1111100 = some (.wrIgnored 0x7C 0) := by decide
theorem test_word_rdZero : decodeTableWord 8 0b0_0001000 = some (.rdZero 0x08) ∧
    decodeTableWord 8 0b0_0010100 = some (.rdZero 0x14) := by decide
-- every descriptor with OFF[1:0] ≠ 00 is refused (R57)
theorem test_word_misaligned : decodeTableWord 8 0b1_0000001 = none ∧ decodeTableWord 8 0b0_1000010 = none ∧
    decodeTableWord 8 0b0_0000111 = none := by decide
-- cmd rows
theorem test_word_nop : decodeTableWord 32 0x00000000 = some .nop := by decide
theorem test_word_init : decodeTableWord 32 0b0000_0000_0000_0000_0000_0000_0110_0001 = some (.init 6) ∧
    decodeTableWord 32 0x00000071 = some (.init 7) := by decide
theorem test_word_final : decodeTableWord 32 0b01100001_01100010_00000000_00_10_0010 = some (.final 2 0x61 0x62 0) ∧
    decodeTableWord 32 0x01020332 = some (.final 3 1 2 3) := by decide
-- the bytes past NB are don't-care bits, not reserved ones (R55)
theorem test_word_final_ignored_tail : decodeTableWord 32 0xFFFFFF02 = some (.final 0 0xFF 0xFF 0xFF) := by decide
theorem test_word_badBitsNop : decodeTableWord 32 0x80000000 = some (.badBitsNop 0x80000000) := by decide
theorem test_word_badBitsInit : decodeTableWord 32 0x00000081 = some (.badBitsInit 0x81) := by decide
theorem test_word_badBitsFinal : decodeTableWord 32 0x00000042 = some (.badBitsFinal 0x42) := by decide
theorem test_word_cmdRsvd : decodeTableWord 32 0x00000003 = some (.cmdRsvd 3) ∧
    decodeTableWord 32 0xFFFFFFFF = some (.cmdRsvd 0xFFFFFFFF) := by decide

/-- The assembler's words are those of 95_test_vectors.md 2.9. -/
theorem test_assembler_words :
    (Assembler.init 0 6).v = 0x00000061 ∧ (Assembler.final 0 []).v = 0x00000002 ∧
    (Assembler.final 0 [0x61]).v = 0x61000012 ∧ (Assembler.final 0 [0x61, 0x62]).v = 0x61620022 ∧
    (Assembler.final 0 [0x61, 0x62, 0x63]).v = 0x61626332 ∧ (Assembler.nop 0).v = 0 := by decide

/-- R61: `hash sha1, "abcde"` is INIT, one DATA and a FINAL of one byte. -/
theorem test_assembler_hash : (Assembler.hash 0x80 0 [0x61, 0x62, 0x63, 0x64, 0x65]).map (fun a => (a.addr, a.v)) =
    [(0x80, 0x00000001), (0x88, 0x61626364), (0x80, 0x65000012)] := by decide

/-! ## The word datapath (95_test_vectors.md 2.1) -/

theorem test_ch : ch (0x12345678 : BitVec 32) 0x9ABCDEF0 0x0FEDCBA9 = 0x1FFDDFF1 := by decide
theorem test_maj : maj (0x12345678 : BitVec 32) 0x9ABCDEF0 0x0FEDCBA9 = 0x1ABCDEF8 := by decide
theorem test_parity : parity (0x12345678 : BitVec 32) 0x9ABCDEF0 0x0FEDCBA9 = 0x87654321 := by decide
theorem test_rotr : rotr (0x0123456789ABCDEF : BitVec 64) 1 = 0x8091A2B3C4D5E6F7 := by decide
theorem test_rotl : rotl (0x67452301 : BitVec 32) 5 = 0xE8A4602C ∧ rotl (0x12345678 : BitVec 32) 1 = 0x2468ACF0 := by decide
theorem test_sigmas_32 : ucSigma0 .w32 (0x12345678 : BitVec 32) = (0x66146474 : BitVec 32) ∧
    ucSigma1 .w32 (0x12345678 : BitVec 32) = (0x3561ABDA : BitVec 32) ∧
    lcSigma0 .w32 (0x12345678 : BitVec 32) = (0xE7FCE6EE : BitVec 32) ∧
    lcSigma1 .w32 (0x12345678 : BitVec 32) = (0xA1F78649 : BitVec 32) := by decide
theorem test_sigmas_64 : ucSigma0 .w64 (0x0123456789ABCDEF : BitVec 64) = (0xB7C57A100C7EC1AB : BitVec 64) ∧
    ucSigma1 .w64 (0x0123456789ABCDEF : BitVec 64) = (0x7703112333475567 : BitVec 64) ∧
    lcSigma0 .w64 (0x0123456789ABCDEF : BitVec 64) = (0x6F92C77C6C4F1AA1 : BitVec 64) ∧
    lcSigma1 .w64 (0x0123456789ABCDEF : BitVec 64) = (0x70A3460DBBD4317A : BitVec 64) := by decide
theorem test_add_wraps : (0x80000000 : BitVec 32) + 0x80000000 = 0 ∧
    (0xFFFFFFFFFFFFFFFF : BitVec 64) + 1 = 0 := by decide

/-! ## Small states -/

/-- The state an outcome goes on in. -/
def nextOf : Host.Outcome State Fault Refusal → Option State
  | .next s => some s
  | .fault _ => none
  | .refused _ => none

/-- STATUS after a host operation. -/
def statusAfter (i : Instr) (s : State) : Option BusWord := (nextOf (exec i s)).map State.status

/-- After power-up and `init a`. -/
def job (a : BitVec 3) : State := opInit a State.reset

/-- A job of `a` with `n` message bytes, `k` of them in BUF, between two accesses. -/
def jobAt (a : BitVec 3) (n : BitVec 64) (k : BitVec 8) : State := { job a with msglen := n, bufcnt := k }

/-- A job that has ended: SHA-256 of a message of `n` bytes (R112). -/
def doneJob (n : BitVec 64) : State := { job 2 with js := .done, msglen := n }

/-- The engine at phase `p` and index `t` of a data block of `a`. -/
def engineAt (a : BitVec 3) (p : Phase) (t : Fin 80) : State :=
  { job a with opk := .block, ph := p, t := t, bufcnt := if a.toNat < 3 then 64 else 128,
               msglen := if a.toNat < 3 then 64 else 128 }

/-- `s` with accesses issued. -/
def issues (s : State) (b : List BusAccess) : State := { s with bus := b }

/-! ## One operation (95_test_vectors.md 2.9 and 2.10) -/

theorem test_status_after_reset : statusAfter .nop State.reset = some 0x00000700 := by decide                       -- E16
theorem test_init_sha256 : statusAfter (.init 2) State.reset = some 0x00200202 := by decide
theorem test_init_sha1 : statusAfter (.wrCmd 0x01) State.reset = some 0x00140002 := by decide
theorem test_init_sha384 : statusAfter (.init 3) State.reset = some 0x00300302 := by decide
theorem test_init_derives : statusAfter (.init 5) State.reset = some 0x001C0503 := by decide
theorem test_init_derives_256 : statusAfter (.init 6) State.reset = some 0x00200603 := by decide
theorem test_init_iv : (nextOf (exec (.init 2) State.reset)).map (·.h.toList) =
    some [0x6A09E667, 0xBB67AE85, 0x3C6EF372, 0xA54FF53A, 0x510E527F, 0x9B05688C, 0x1F83D9AB, 0x5BE0CD19] := by decide
theorem test_init_cached : (nextOf (exec (.init 5) { State.reset with divv224 := true, div224 := Vector.replicate 8 9 })).map
    (fun t => (t.status, t.h.toList)) = some (0x001C0D02, List.replicate 8 9) := by decide
theorem test_init_seed : (nextOf (exec (.init 6) State.reset)).map (·.h.toList) =
    some [0xCFAC43C256196CAD, 0x1EC20B20216F029E, 0x99CB56D75B315D8E, 0x00EA509FFAB89354,
          0xF4ABF7DA08432774, 0x3EA0CD298E9BC9BA, 0xBA267C0E5EE418CE, 0xFE4568BCB6DB84DC] := by decide             -- R108
theorem test_init_7 : statusAfter (.init 7) State.reset = some 0x00000726 := by decide                              -- E3
theorem test_data_without_job : statusAfter (.wrData 0x61626364) State.reset = some 0x00000736 := by decide         -- E1
theorem test_first_code_kept : statusAfter (.init 7) { State.reset with js := .error, errcode := .notActive } =
    some 0x00000736 := by decide                                                                                     -- E2
theorem test_init_clears_error : statusAfter (.init 4) { State.reset with js := .error, errcode := .notActive } =
    some 0x00400402 := by decide                                                                                     -- E4
theorem test_reserved_opcode : statusAfter (.wrCmd 0x13) (job 4) = some 0x00400416 := by decide                     -- E5
theorem test_final_in_error : statusAfter (.final 0 0 0 0) { job 4 with js := .error, errcode := .badCmd } =
    some 0x00400416 := by decide                                                                                     -- E6
theorem test_bad_nop : statusAfter (.wrCmd 0x10) (job 0) = some 0x00140016 := by decide                             -- E7
theorem test_bad_final : (nextOf (exec (.wrCmd 0xC2) (job 0))).map (fun t => (t.status, t.bufcnt)) =
    some (0x00140016, 0) := by decide                                                                                -- E8
theorem test_bad_init : (nextOf (exec (.wrCmd 0x81) (job 0))).map (fun t => (t.status, t.alg)) =
    some (0x00140016, 0) := by decide                                                                                -- E9
theorem test_data_after_done : statusAfter (.wrData 0) (doneJob 0) = some 0x00200236 := by decide                   -- E10
theorem test_data_below_lmax : (nextOf (exec (.wrData 0) (jobAt 2 0x1FFFFFFFFFFFFFF8 56))).map
    (fun t => (t.status, t.msglen)) = some (0x00200202, 0x1FFFFFFFFFFFFFFC) := by decide                            -- E11
theorem test_data_past_lmax : (nextOf (exec (.wrData 0) (jobAt 2 0x1FFFFFFFFFFFFFFC 60))).map
    (fun t => (t.status, t.msglen)) = some (0x00200246, 0x1FFFFFFFFFFFFFFC) := by decide                            -- E12
theorem test_final_to_lmax : (nextOf (exec (.final 3 1 2 3) (jobAt 2 0x1FFFFFFFFFFFFFFC 60))).map
    (fun t => (t.status, t.msglen, t.npb, (t.buf.toList.drop 60).take 4)) =
    some (0x00200203, 0x1FFFFFFFFFFFFFFF, .two, [1, 2, 3, 0x80]) := by decide                                       -- E13
theorem test_data_past_lmax_64 : statusAfter (.wrData 0) (jobAt 4 0xFFFFFFFFFFFFFFFC 124) =
    some 0x00400446 := by decide                                                                                     -- E14
theorem test_final_to_lmax_64 : (nextOf (exec (.final 3 1 2 3) (jobAt 4 0xFFFFFFFFFFFFFFFC 124))).map
    (fun t => (t.status, t.msglen)) = some (0x00400403, 0xFFFFFFFFFFFFFFFF) := by decide                            -- E15

/-- 95_test_vectors.md 2.9: DATA packing after `init sha1`. -/
theorem test_data_packing : (nextOf (exec (.wrData 0x61626364) (job 0))).map
    (fun t => (t.msglen, t.bufcnt, t.buf.toList.take 5, t.busy)) =
    some (4, 4, [0x61, 0x62, 0x63, 0x64, 0], false) := by decide

/-- 95_test_vectors.md 2.9: the 16th DATA write of a SHA-256 job fills BUF and starts a block. -/
theorem test_data_fills : (nextOf (exec (.wrData 0) (jobAt 2 60 60))).map (fun t => (t.bufcnt, t.busy, t.opk, t.js)) =
    some (64, true, .block, .active) := by decide

/-- P1 line 2: FINAL "abc" pads one SHA-256 block. -/
theorem test_final_pads : (nextOf (exec (.wrCmd 0x61626332) (job 2))).map
    (fun t => (t.status, t.msglen, t.npb, t.buf.toList.take 64)) =
    some (0x00200203, 3, .one, [0x61, 0x62, 0x63, 0x80] ++ List.replicate 59 0 ++ [0x18]) := by decide

/-- P4 line 16: a FINAL at r = 56 writes 0x80 and seven zeros, and needs two blocks. -/
theorem test_final_two_blocks : (nextOf (exec (.final 0 0 0 0) { jobAt 2 56 56 with buf := Vector.replicate 128 0xFF })).map
    (fun t => (t.npb, (t.buf.toList.drop 55).take 10)) =
    some (.two, [0xFF, 0x80, 0, 0, 0, 0, 0, 0, 0, 0xFF]) := by decide

/-- The corner cases of R83: r = 55 is the last length that fits one block. -/
theorem test_final_r55 : (nextOf (exec (.final 3 7 8 9) (jobAt 2 52 52))).map
    (fun t => (t.npb, (t.buf.toList.drop 52).take 12)) =
    some (.one, [7, 8, 9, 0x80, 0, 0, 0, 0, 0, 0, 0x01, 0xB8]) := by decide

/-- The second padded block of E13: zeros, then the length field. -/
theorem test_pad_second : ((padSecond (jobAt 2 0x1FFFFFFFFFFFFFFF 63)).buf.toList.drop 55).take 9 =
    [0, 0xFF, 0xFF, 0xFF, 0xFF, 0xFF, 0xFF, 0xFF, 0xF8] := by decide

/-- 41_padding.md R84 for F = 16: the length field of MSGLEN = 2^64 − 1 (95_test_vectors.md 2.2). -/
theorem test_pad_second_64 : ((padSecond (jobAt 4 0xFFFFFFFFFFFFFFFF 127)).buf.toList.drop 112) =
    [0, 0, 0, 0, 0, 0, 0, 7, 0xFF, 0xFF, 0xFF, 0xFF, 0xFF, 0xFF, 0xFF, 0xF8] := by decide

theorem test_read_status : (nextOf (exec .rdStatus (doneJob 3))).map (·.rdata) = some 0x00200204 := by decide
theorem test_read_msglen : (nextOf (exec .rdMsglenLo (jobAt 4 0x123456789ABCDEF0 0))).map (·.rdata) = some 0x9ABCDEF0 ∧
    (nextOf (exec .rdMsglenHi (jobAt 4 0x123456789ABCDEF0 0))).map (·.rdata) = some 0x12345678 := by decide
/-- R54: DIGEST3 is DIG[12..16), the first byte on top. -/
theorem test_read_digest : (nextOf (exec (.rdDigest 3) { State.reset with dig := Vector.ofFn fun i => BitVec.ofNat 8 i.val })).map
    (·.rdata) = some 0x0C0D0E0F := by decide
theorem test_read_zero : (nextOf (exec (.rdZero 0x14) { State.reset with rdata := 5 })).map (·.rdata) = some 0 := by decide
theorem test_write_ignored : nextOf (exec (.wrIgnored 0x40 0xFFFFFFFF) (job 1)) = some (job 1) := by decide

/-! ## One engine step (95_test_vectors.md 2.3 to 2.7) -/

/-- LOAD of the SHA-256 block of "abc". -/
theorem test_load : (engineStep (opFinal 3 0x61 0x62 0x63 (job 2))).ws.toList.take 16 =
    [0x61626380, 0, 0, 0, 0, 0, 0, 0, 0, 0, 0, 0, 0, 0, 0, 0x18] := by decide

/-- LOAD of the SHA-512 block of "abc". -/
theorem test_load_64 : (engineStep (opFinal 3 0x61 0x62 0x63 (job 4))).ws.toList.take 16 =
    [0x6162638000000000, 0, 0, 0, 0, 0, 0, 0, 0, 0, 0, 0, 0, 0, 0, 0x18] := by decide

/-- EXPAND of entries 16 and 17 of SHA-256 "abc", and 16 of SHA-1 "abc". -/
theorem test_expand_17 : ((engineSteps 3 (opFinal 3 0x61 0x62 0x63 (job 2))).ws.toList.drop 16).take 2 =
    [0x61626380, 0x000F0000] := by decide
theorem test_expand_sha1 : ((engineSteps 2 (opFinal 3 0x61 0x62 0x63 (job 0))).ws.toList.drop 16).take 1 =
    [0xC2C4C700] := by decide

/-- Round 0 of SHA-256 and of SHA-1 over "abc", and of SHA-512. -/
theorem test_round_sha256 : (engineStep { engineAt 2 .round 0 with
      wr := (job 2).h, ws := (job 2).ws.set 0 0x61626380 }).wr.toList =
    [0x5D6AEBCD, 0x6A09E667, 0xBB67AE85, 0x3C6EF372, 0xFA2A4622, 0x510E527F, 0x9B05688C, 0x1F83D9AB] := by decide
theorem test_round_sha1 : (engineStep { engineAt 0 .round 0 with
      wr := (job 0).h, ws := (job 0).ws.set 0 0x61626380 }).wr.toList.take 5 =
    [0x0116FC33, 0x67452301, 0x7BF36AE2, 0x98BADCFE, 0x10325476] := by decide
theorem test_round_sha512 : (engineStep { engineAt 4 .round 0 with
      wr := (job 4).h, ws := (job 4).ws.set 0 0x6162638000000000 }).wr.toList =
    [0xF6AFCEB8BCFCDDF5, 0x6A09E667F3BCC908, 0xBB67AE8584CAA73B, 0x3C6EF372FE94F82B,
     0x58CB02347AB51F91, 0x510E527FADE682D1, 0x9B05688C2B3E6C1F, 0x1F83D9ABFB41BD6B] := by decide

/-- 95_test_vectors.md 2.5: the first word of the feed-forward of SHA-256 "abc". -/
theorem test_feed : (engineStep { engineAt 2 .feed 63 with wr := (job 2).wr.set 0 0x506E3058, h := (job 2).h }).h[0] =
    0xBA7816BF := by decide

/-- 95_test_vectors.md T3: SHA-512/224 keeps the high half of H[3]; the rest of DIG is 0. -/
theorem test_serialize : (serialize { job 5 with
      h := #v[0x4634270F707B6A54, 0xDAAE7530460842E2, 0x0E37ED265CEEE9A4, 0x3E8924AAF57C93D9, 1, 2, 3, 4] }).dig.toList.drop 20 =
    [0x5C, 0xEE, 0xE9, 0xA4, 0x3E, 0x89, 0x24, 0xAA] ++ List.replicate 36 0 := by decide

/-- 95_test_vectors.md T1: SHA-224 drops H[7]. -/
theorem test_serialize_224 : (digestWord (serialize { job 1 with
      h := #v[0x23097D22, 0x3405D822, 0x8642A477, 0xBDA255B3, 0x2AADBCE4, 0xBDA0B3F7, 0xE36C9DA7, 0xD2DA082D] }).dig 6,
    digestWord (serialize { job 1 with h := #v[1, 2, 3, 4, 5, 6, 7, 0xD2DA082D] }).dig 7) = (0xE36C9DA7, 0) := by decide

/-- The last step of FINAL and of a derivation (R112, R108): STATUS after them. -/
theorem test_final_ends : (engineStep { job 2 with opk := .final, ph := .next }).status = 0x00200204 := by decide
theorem test_derivation_ends : (engineStep { job 5 with ph := .next }).status = 0x001C0D02 := by decide
theorem test_derivation_256_ends : (engineStep { job 6 with ph := .next }).status = 0x00201602 := by decide

/-! ## The bus, and a reset -/

/-- R116: while BUSY = 1 a DATA write waits and a STATUS read does not. -/
theorem test_held : (nextOf (step (issues (job 5) [Assembler.data 0 7]))).map (fun t => (t.bus.length, t.ph)) =
    some (1, .expand) ∧
    (nextOf (step (issues (job 5) [Assembler.rd 0 0x04]))).map (fun t => (t.bus.length, t.rdata, t.ph)) =
    some (0, 0x001C0503, .load) := by decide

/-- R143: a reset during a derivation, with an access held: the access ends, and what follows it stays to be issued. -/
theorem test_reset_while_held :
    (nextOf (step { issues (job 5) [Assembler.data 0 7, Assembler.rd 0 0x04] with turns := [.reset] })).map
      (fun t => (t.status, t.bus, t.divv224)) = some (0x00000700, [Assembler.rd 0 0x04], false) := by decide

/-- U13: reset leaves DIG as the draw of that reset, whatever it is. -/
theorem test_reset_draws : (nextOf (step { job 2 with turns := [.reset], draws := 3 })).map (fun t => (t.dig, t.draws)) =
    some (Config.drawDIG 3, 4) := by rfl

/-- R34: the window is at BASE. -/
theorem test_base : (nextOf (step { issues State.reset [Assembler.init 0x4000 2] with cfg := ⟨0x4000⟩ })).map State.status =
    some 0x00200202 := by decide

/-! ## Witnesses: states and operands that meet the hypotheses of each statement, one for each clause and boundary -/

/-- The host has issued one access, and has none behind it. -/
def issuing (s : State) (i : Instr) : State := issues s [accessOf s.cfg.base (encode i)]

/-- A FINAL of one padded block, and of two, of a SHA-256 job, at their first step. -/
def finalOne : State := opFinal 3 0x61 0x62 0x63 (job 2)
def finalTwo : State := opFinal 0 0 0 0 (jobAt 2 56 56)

/-- A FINAL's last step, a data block's, and a derivation's. -/
def finalLast : State := { finalOne with ph := .next }
def blockLast : State := engineAt 2 .next 63
def deriveLast (a : BitVec 3) : State := { job a with ph := .next }

/-- A job in error. -/
def inError : State := raiseError .badCmd (job 4)

theorem witness_DecodeInvertsEncode : (Instr.rdZero 0x3C).wf = true ∧ (Instr.wrIgnored 0x7C 5).wf = true ∧
    (Instr.badBitsFinal 0xC2).wf = true ∧ (Instr.cmdRsvd 0xFFFFFFFF).wf = true := by decide

theorem witness_EncodeInvertsDecode : decodeBus 0xFC 5 = some (.wrIgnored 0x7C 5) ∧
    (0xFC : BitVec 8).extractLsb' 7 1 = 1 ∧ decodeBus 0x7C 5 = some (.rdDigest 15) ∧
    (0x7C : BitVec 8).extractLsb' 7 1 = 0 := by decide

/-- An access of an idle machine, and a STATUS read of a busy one. -/
theorem witness_StepRunsTheDecodedAccess :
    ((issuing (job 2) (.wrData 7)).bus = [accessOf 0 (encode (.wrData 7))] ∧
      decodeAccess 0 (accessOf 0 (encode (.wrData 7))) = .ok (.wrData 7) ∧
      (issuing (job 2) (.wrData 7)).busy = false ∧ (issuing (job 2) (.wrData 7)).turns.head? ≠ some .reset) ∧
    ((issuing (job 5) .rdStatus).bus = [accessOf 0 (encode .rdStatus)] ∧
      decodeAccess 0 (accessOf 0 (encode .rdStatus)) = .ok .rdStatus ∧ (issuing (job 5) .rdStatus).turns = []) := by decide

theorem witness_FetchWordRunsItsInstruction : decodeTableWord 32 0x21 = some (.init 2) ∧ State.reset.busy = false ∧
    decodeTableWord 8 0x04 = some .rdStatus ∧ (job 5).busy = true := by decide

/-- An idle machine with a byte access, a misaligned one and an aligned one at the window's last register; and a busy one
that answers a STATUS read. -/
theorem witness_OnlyAlignedWordAccessesHaveMeaning :
    (job 2).busy = false ∧ (job 2).turns.head? ≠ some .reset ∧ (issues (job 2) [⟨8, 1, true, 0⟩]).bus = [⟨8, 1, true, 0⟩] ∧
    (1 ≠ 4 ∧ nextOf (step (issues (job 2) [⟨8, 1, true, 0⟩])) = none) ∧
    ((job 2).cfg.base ≤ 0x7D ∧ 0x7D ≤ (job 2).cfg.base + 0x7F ∧ (0x7D - (job 2).cfg.base) % 4 ≠ 0 ∧
      nextOf (step (issues (job 2) [⟨0x7D, 4, true, 0⟩])) = none) ∧
    (0x7C ≤ (job 2).cfg.base + 0x7F ∧ (0x7C - (job 2).cfg.base) % 4 = 0 ∧
      nextOf (step (issues (job 2) [⟨0x7C, 4, true, 0⟩])) = some (job 2)) ∧
    (job 5).busy = true ∧ (job 5).turns = [] ∧
    nextOf (step (issues (job 5) [⟨0x04, 4, false, 0⟩])) = some { job 5 with rdata := 0x001C0503 } := by decide

-- R35: refused whatever BUSY is, and a reset before the host's turn does not drop it
theorem test_malformed_is_refused_while_busy :
    step (issues (job 5) [⟨8, 1, true, 0⟩]) = .refused .notWordWide ∧
    step (issues (job 5) [⟨0x05, 4, false, 0⟩]) = .refused .misaligned ∧
    step (issues (job 5) [⟨0x80, 4, false, 0⟩]) = .refused .outsideWindow := ⟨rfl, rfl, rfl⟩

theorem test_malformed_outlasts_a_reset :
    (nextOf (step { issues (job 5) [⟨8, 1, true, 0⟩] with turns := [.reset] })).map (·.bus) = some [⟨8, 1, true, 0⟩] := rfl

/-- The three refusals. -/
theorem witness_StepRefusesOnlyMeaninglessAccesses :
    step (issues State.reset [⟨8, 2, false, 0⟩]) = .refused .notWordWide ∧
    step (issues State.reset [⟨0x80, 4, false, 0⟩]) = .refused .outsideWindow ∧
    step (issues State.reset [⟨0x02, 4, false, 0⟩]) = .refused .misaligned := ⟨rfl, rfl, rfl⟩

theorem witness_jobInv_active : (job 2).JobInv := by constructor <;> decide
theorem witness_jobInv_deriving : (issuing (job 5) (.wrData 7)).JobInv := by constructor <;> decide
theorem witness_jobInv_final : finalLast.JobInv := by constructor <;> decide
theorem witness_jobInv_block : blockLast.JobInv := by constructor <;> decide
theorem witness_jobInv_lmax : (jobAt 2 0x1FFFFFFFFFFFFFFC 60).JobInv := by constructor <;> decide
theorem witness_jobInv_error : (issuing inError (.wrCmd 0x21)).JobInv := by constructor <;> decide

/-- A DATA write held by a derivation; a STATUS read then. -/
theorem witness_HeldAccessWaitsForTheEngine :
    (issuing (job 5) (.wrData 7)).bus = [accessOf 0 (encode (.wrData 7))] ∧
    decodeAccess 0 (accessOf 0 (encode (.wrData 7))) = .ok (.wrData 7) ∧
    (issuing (job 5) (.wrData 7)).busy = true ∧ Turn.reset ∉ (issuing (job 5) (.wrData 7)).turns ∧
    Turn.reset ∉ ({ issuing (job 5) (.wrData 7) with turns := [.host, .engine] } : State).turns ∧
    (Instr.wrData 7) ≠ .rdStatus ∧
    decodeAccess 0 (accessOf 0 (encode .rdStatus)) = .ok .rdStatus := by decide

/-- A machine the host has left alone, and one whose access is held, for the five steps that follow. -/
theorem witness_WaitingHostLeavesTheEngineToRun :
    Turn.reset ∉ (job 5).turns ∧ (job 5).bus = [] ∧ Turn.reset ∉ (issuing (job 5) (.wrData 7)).turns ∧ (issuing (job 5) (.wrData 7)).holds = true ∧
    (∀ k, k < 5 → (engineSteps k (issuing (job 5) (.wrData 7))).busy = true) := by decide

theorem witness_ReadsOnlyAnswerTheHost : (nextOf (exec (.rdZero 0x3C) (job 2))).isSome = true := by decide

/-- The offsets at the ends of each range. -/
theorem witness_WriteOnlyAndReservedOffsetsReadZero :
    (0x14 ≤ (0x14 : BitVec 7).toNat ∧ (0x14 : BitVec 7).toNat ≤ 0x3C ∧ (0x14 : BitVec 7).toNat % 4 = 0) ∧
    (0x14 ≤ (0x3C : BitVec 7).toNat ∧ (0x3C : BitVec 7).toNat ≤ 0x3C ∧ (0x3C : BitVec 7).toNat % 4 = 0) ∧
    decodeBus (descriptor false 0x00) 1 = some (.rdZero 0x00) ∧ decodeBus (descriptor false 0x08) 1 = some (.rdZero 0x08) ∧
    decodeBus (descriptor false 0x14) 1 = some (.rdZero 0x14) ∧ decodeBus (descriptor false 0x3C) 1 = some (.rdZero 0x3C) := by
  decide

theorem witness_WritesToReadOnlyOffsetsAreIgnored :
    decodeBus (descriptor true 0x04) 1 = some (.wrIgnored 0x04 1) ∧ decodeBus (descriptor true 0x0C) 1 = some (.wrIgnored 0x0C 1) ∧
    decodeBus (descriptor true 0x10) 1 = some (.wrIgnored 0x10 1) ∧ decodeBus (descriptor true 0x14) 1 = some (.wrIgnored 0x14 1) ∧
    decodeBus (descriptor true 0x3C) 1 = some (.wrIgnored 0x3C 1) ∧ decodeBus (descriptor true 0x40) 1 = some (.wrIgnored 0x40 1) ∧
    decodeBus (descriptor true 0x7C) 1 = some (.wrIgnored 0x7C 1) ∧
    (issues (job 5) [⟨0x7C, 4, true, 1⟩]).turns.head? ≠ some .reset ∧ (issues (job 5) [⟨0x7C, 4, true, 1⟩]).busy = true ∧
    (issues (job 5) [⟨0x7C, 4, true, 1⟩]).bus = [⟨(job 5).cfg.base + (0x7C : BitVec 7).toNat, 4, true, 1⟩] := by decide

theorem witness_MalformedCommandRecordsBadCmd : statusAfter (.badBitsNop 0x10) (job 0) = some 0x00140016 ∧
    statusAfter (.badBitsInit 0x81) (job 0) = some 0x00140016 ∧ statusAfter (.badBitsFinal 0xC2) (job 0) = some 0x00140016 ∧
    statusAfter (.cmdRsvd 0x13) (job 4) = some 0x00400416 := by decide

/-- A malformed word of each opcode; no job; and a job at LMAX, for DATA and for the least FINAL past it. -/
theorem witness_ErrorsAreRecordedInPriorityOrder :
    ((0x10 : BusWord).extractLsb' 0 4 = 0 ∧ (0x10 : BusWord) ≠ 0) ∧
    ((0x81 : BusWord).extractLsb' 0 4 = 1 ∧ (0x81 : BusWord).extractLsb' 7 25 ≠ 0) ∧
    ((0x42 : BusWord).extractLsb' 0 4 = 2 ∧ (0x42 : BusWord).extractLsb' 6 2 ≠ 0) ∧
    3 ≤ ((0x03 : BusWord).extractLsb' 0 4).toNat ∧ State.reset.js ≠ .active ∧
    (jobAt 2 0x1FFFFFFFFFFFFFFC 60).js = .active ∧
    lmax 2 < (jobAt 2 0x1FFFFFFFFFFFFFFC 60).msglen.toNat + 4 ∧
    lmax 2 < (jobAt 2 0x1FFFFFFFFFFFFFFD 61).msglen.toNat + (3 : BitVec 2).toNat := by decide

theorem witness_InitLoadsThePublishedIv : (0 : BitVec 3).toNat ≤ 4 ∧ (4 : BitVec 3).toNat ≤ 4 := by decide
theorem witness_InitCopiesAValidCache : (deriveFinish (job 5)).divv224 = true ∧ (deriveFinish (job 6)).divv256 = true := by decide
theorem witness_InitStartsTheDerivation : State.reset.divv224 = false ∧ State.reset.divv256 = false := by decide

/-- A job at its start, and one whose next DATA write reaches LMAX − 3 and fills the buffer. -/
theorem witness_DataAppendsFourBytes : (job 2).busy = false ∧ (job 2).js = .active ∧ (job 2).msglen.toNat + 4 ≤ lmax (job 2).alg ∧
    (jobAt 2 60 60).JobInv ∧ (jobAt 2 60 60).busy = false ∧ (jobAt 2 60 60).bufcnt.toNat + 4 = (params 2).blockBytes := by
  refine ⟨by decide, by decide, by decide, ?_, by decide, by decide⟩
  constructor <;> decide

/-- The three tail bytes that reach LMAX: r = 63, so two blocks. And r = 55, so one. -/
theorem witness_FinalAppendsAndPads : (jobAt 2 0x1FFFFFFFFFFFFFFC 60).busy = false ∧
    (jobAt 2 0x1FFFFFFFFFFFFFFC 60).msglen.toNat + (3 : BitVec 2).toNat = lmax (jobAt 2 0x1FFFFFFFFFFFFFFC 60).alg ∧
    (opFinal 3 1 2 3 (jobAt 2 0x1FFFFFFFFFFFFFFC 60)).npb = .two ∧ (opFinal 3 1 2 3 (jobAt 2 52 52)).npb = .one := by decide

/-- Each list of amounts has a member at each width that uses it. -/
theorem witness_RotationsAndShiftsMoveBits : 25 ∈ rotrAmounts Width.w32.bits ∧ 61 ∈ rotrAmounts Width.w64.bits ∧
    30 ∈ rotlAmounts Width.w32.bits ∧ 10 ∈ shrAmounts Width.w32.bits ∧ 7 ∈ shrAmounts Width.w64.bits := by decide

theorem witness_BitwiseFunctionsSelectBits : 31 < Width.w32.bits ∧ 63 < Width.w64.bits := by decide

theorem witness_LoadStepReadsBigEndianWords : (engineAt 2 .load 0).busy = true ∧ (engineAt 2 .load 0).width = .w32 ∧
    (engineAt 4 .load 0).busy = true ∧ (engineAt 4 .load 0).width = .w64 := by decide

/-- The first and the last entry, for SHA-2 and for SHA-1. -/
theorem witness_ExpandStepFollowsTheRecurrence :
    (engineAt 2 .expand 16).busy = true ∧ (engineAt 2 .expand 63).t.val = (params 2).ns - 1 ∧
    (engineAt 0 .expand 16).alg = 0 ∧ (engineAt 0 .expand 79).t.val = (params 0).ns - 1 ∧
    16 ≤ (engineAt 2 .expand 16).t.val ∧ (engineAt 2 .expand 16).t.val < (params (engineAt 2 .expand 16).alg).ns := by decide

theorem witness_RegisterLoadAndFeedForward : (engineAt 0 .wrload 79).busy = true ∧ (engineAt 0 .wrload 79).ph = .wrload ∧
    (engineAt 4 .feed 79).busy = true ∧ (engineAt 4 .feed 79).ph = .feed := by decide

/-- The first and the last round. -/
theorem witness_Sha2RoundUpdatesTheRegisters : (engineAt 2 .round 0).busy = true ∧ (engineAt 2 .round 0).alg ≠ 0 ∧
    (engineAt 2 .round 63).t.val = (params (engineAt 2 .round 63).alg).rounds - 1 ∧
    (engineAt 2 .round 63).t.val < (params (engineAt 2 .round 63).alg).rounds := by decide

/-- Rounds on both sides of each change of function and constant. -/
theorem witness_Sha1RoundUpdatesTheRegisters : (engineAt 0 .round 19).busy = true ∧ (engineAt 0 .round 19).alg = 0 ∧
    (engineAt 0 .round 19).ph = .round ∧ ¬ (engineAt 0 .round 20).t.val < 20 ∧ (engineAt 0 .round 39).t.val < 40 ∧
    (engineAt 0 .round 59).t.val < 60 ∧ (engineAt 0 .round 79).t.val = 79 := by decide

/-- A step inside a busy period, and the last one of each kind. -/
theorem witness_EngineChangesStatusOnlyAtTheLastStep : (engineStep finalOne).busy = true ∧
    (finalLast.busy = true ∧ (engineStep finalLast).busy = false ∧ (engineStep finalLast).js = .done) ∧
    (blockLast.busy = true ∧ (engineStep blockLast).busy = false ∧ (engineStep blockLast).js = .active) ∧
    (engineStep (deriveLast 5)).divv224 = true ∧ (engineStep (deriveLast 6)).divv256 = true := by decide

/-- Two states that agree on the control and not on the data. -/
theorem witness_EngineControlIgnoresData : (job 2).ph = (doneJob 8).ph ∧ (job 2).t = (doneJob 8).t ∧ (job 2).opk = (doneJob 8).opk ∧
    (job 2).pb = (doneJob 8).pb ∧ (job 2).npb = (doneJob 8).npb ∧ (job 2).alg = (doneJob 8).alg ∧ job 2 ≠ doneJob 8 := by decide

/-- One padded block, and two; and a data block with PB left at 1 by an earlier FINAL, which no rule reads. -/
theorem witness_BusyPeriodsTakeTheCountedSteps :
    ({ engineAt 4 .load 0 with pb := 1 } : State).busy = true ∧ ({ engineAt 4 .load 0 with pb := 1 } : State).opk ≠ .final ∧
    finalOne.busy = true ∧ finalOne.ph = .load ∧ finalOne.pb = 0 ∧
    ¬ (finalOne.opk = .final ∧ finalOne.npb = .two) ∧ finalTwo.busy = true ∧ finalTwo.ph = .load ∧ finalTwo.pb = 0 ∧
    finalTwo.opk = .final ∧ finalTwo.npb = .two := by decide

theorem witness_DataBlockStepsCompress : (engineAt 0 .load 0).opk = .block ∧ (engineAt 0 .load 0).ph = .load := by decide

theorem witness_FinalStepsFinishTheJob : finalOne.opk = .final ∧ finalOne.ph = .load ∧ finalOne.pb = 0 ∧ finalOne.npb = .one ∧
    finalTwo.opk = .final ∧ finalTwo.ph = .load ∧ finalTwo.pb = 0 ∧ finalTwo.npb = .two := by decide

theorem witness_DerivationFillsItsCache : State.reset.busy = false ∧ State.reset.divv224 = false ∧
    State.reset.divv256 = false := by decide

/-- An empty message, and the lengths on both sides of the last that fits one block. -/
theorem witness_PaddingFillsWholeBlocks : (64 = 64 ∧ 8 = 8) ∧ 8 * ([] : List Byte).length < 256 ^ 8 ∧
    (Reference.pad [] 64 8).length = 64 ∧ (Reference.pad (List.replicate 55 0x61) 64 8).length = 64 ∧
    (Reference.pad (List.replicate 56 0x61) 64 8).length = 128 := by decide

/-- `hash sha224, "abcde"` issued after power-up, and in the middle of an errored SHA-512 job. -/
theorem witness_HashSequenceComputesTheDigest :
    (1 : BitVec 3) ≠ 7 ∧
    (let s := issues State.reset (Assembler.hash 0 1 [0x61, 0x62, 0x63, 0x64, 0x65])
     s.busy = false ∧ s.CachesRight ∧ s.issuesHash 1 [0x61, 0x62, 0x63, 0x64, 0x65]) ∧
    (let s := issues inError (Assembler.hash 0 1 [0x61, 0x62, 0x63, 0x64, 0x65])
     s.busy = false ∧ s.CachesRight ∧ s.issuesHash 1 [0x61, 0x62, 0x63, 0x64, 0x65]) ∧
    5 ≤ lmax 1 := by decide

/-- The states of `witness_HashSequenceComputesTheDigest` are two starts that differ. -/
theorem witness_SameMessageGivesTheSameDigest :
    issues State.reset (Assembler.hash 0 1 [0x61]) ≠ issues inError (Assembler.hash 0 1 [0x61]) ∧
    (issues State.reset (Assembler.hash 0 1 [0x61])).issuesHash 1 [0x61] ∧
    (issues inError (Assembler.hash 0 1 [0x61])).issuesHash 1 [0x61] := by decide

/-- A reset in the middle of a derivation that holds an access. -/
theorem witness_HardwareResetAbortsEverything :
    ({ issuing (job 5) (.wrData 7) with turns := [.reset, .host] } : State).turns = .reset :: [.host] ∧
    ({ issuing (job 5) (.wrData 7) with turns := [.reset, .host] } : State).holds = true := by decide

/-- States in a derivation and in an active job that meet the invariants, and take a step. -/
theorem witness_StepKeepsTheJobInvariant : (issuing (job 5) (.wrData 7)).JobInv ∧
    ∃ t, step (issuing (job 5) (.wrData 7)) = .next t := ⟨witness_jobInv_deriving, _, rfl⟩

theorem witness_StepKeepsCellsWithinTheWord : (job 2).JobInv ∧ (job 2).CellInv ∧ ∃ t, step (job 2) = .next t := by
  refine ⟨witness_jobInv_active, ?_, _, rfl⟩
  constructor
  · unfold fits; decide
  · intro h; exact absurd h (by decide)
  · intro h; exact absurd h (by decide)

theorem witness_StepKeepsTheCachesRight : (job 5).CacheInv ∧ ∃ t, step (job 5) = .next t := by
  refine ⟨⟨by decide, by decide, fun _ => ?_⟩, _, rfl⟩
  constructor <;> decide

/-- JS written by a reset, by FINAL's last step, by INIT, and by an error of a command and of a DATA write. -/
theorem witness_JobStateHasFourWriters :
    (nextOf (step { job 2 with turns := [.reset] })).map State.js = some .none ∧
    (nextOf (step finalLast)).map State.js = some .done ∧
    (nextOf (step (issuing State.reset (.wrCmd 0x21)))).map State.js = some .active ∧
    (nextOf (step (issuing (job 2) (.wrCmd 0x10)))).map State.js = some .error ∧
    (nextOf (step (issuing State.reset (.wrData 0)))).map State.js = some .error := by decide

/-- An error kept by NOP, left by INIT, and left by a reset. -/
theorem witness_ErrorIsLeftOnlyByInitOrReset :
    (issuing inError (.wrCmd 0x21)).JobInv ∧ inError.js = .error ∧
    (nextOf (step (issuing inError (.wrCmd 0)))).map State.js = some .error ∧
    (nextOf (step (issuing inError (.wrCmd 0x21)))).map State.js = some .active ∧
    (nextOf (step { inError with turns := [.reset] })).map State.js = some .none := by
  exact ⟨witness_jobInv_error, by decide, by decide, by decide, by decide⟩

/-- The last step of a FINAL changes DIG. -/
theorem witness_DigestIsWrittenOnlyByFinal : ∃ t, step finalLast = .next t ∧ t.dig ≠ finalLast.dig :=
  ⟨_, rfl, by decide⟩

/-- INIT changes ALG; DATA and FINAL change MSGLEN. -/
theorem witness_OnlyHostWritesChangeAlgAndMsglen :
    (issuing inError (.wrCmd 0x21)).JobInv ∧ (issuing inError (.wrCmd 0x21)).turns.head? ≠ some .reset ∧
    (nextOf (step (issuing inError (.wrCmd 0x21)))).map State.alg = some 2 ∧ inError.alg = 4 ∧
    (nextOf (step (issuing (job 2) (.wrData 0)))).map State.msglen = some 4 ∧
    (nextOf (step (issuing (job 2) (.wrCmd 0x61626332)))).map State.msglen = some 3 := by
  exact ⟨witness_jobInv_error, by decide, by decide, by decide, by decide, by decide⟩

/-- The last step of each derivation. -/
theorem witness_ValidBitsAreSetByDerivationAndClearedByReset :
    (deriveLast 5).JobInv ∧ (deriveLast 6).JobInv ∧ (deriveLast 5).turns.head? ≠ some .reset ∧
    (nextOf (step (deriveLast 5))).map State.divv224 = some true ∧
    (nextOf (step (deriveLast 6))).map State.divv256 = some true := by
  refine ⟨?_, ?_, by decide, by decide, by decide⟩ <;> constructor <;> decide

end Sys2Proof.Tests
end

section
/-! What a step is, by the agent that moves and the host access that takes effect (R13, R115 to R123, R143), and
what each of these leaves in the status fields. The invariants and the rules about the whole machine rest on this. -/

namespace Sys2Proof.Machine

/-! ## The host access that takes effect -/

/-- A write to CMD runs the command its value selects (R118). -/
theorem exec_wrCmd_eq_exec_decodeCmd (v : BusWord) (s : State) : exec (.wrCmd v) s = exec (decodeCmd v) s :=
  (apply_selectCmd Host.Outcome.next v s (opInit · s) (opFinal · · · · s) _ _ _ _).trans
    (apply_selectCmd (exec · s) v .nop .init .final (.badBitsNop v) (.badBitsInit v) (.badBitsFinal v)
      (.cmdRsvd v)).symm

/-- The commands a word can select: NOP, INIT, FINAL, or a malformed one, which records an error (R57, R122). -/
theorem decodeCmd_cases (v : BusWord) :
    decodeCmd v = .nop ∨ (∃ k, decodeCmd v = .init k) ∨ (∃ nb tb0 tb1 tb2, decodeCmd v = .final nb tb0 tb1 tb2) ∨
      ∀ s, exec (decodeCmd v) s = .next (opRsvd s) := by
  unfold decodeCmd selectCmd
  repeat' split
  · exact .inl rfl
  · exact .inr (.inl ⟨_, rfl⟩)
  · exact .inr (.inr (.inl ⟨_, _, _, _, rfl⟩))
  all_goals exact .inr (.inr (.inr fun _ => rfl))

/-- An access is a write to CMD or to DATA, or it only answers the host; a write that is ignored answers what stands in
`rdata` already (R36 to R38, R51). -/
theorem decodeBus_cases {td : BitVec 8} {v : BusWord} {i : Instr} (h : decodeBus td v = some i) :
    i = .wrCmd v ∨ i = .wrData v ∨ ∀ s, ∃ x, exec i s = .next { s with rdata := x } := by
  unfold decodeBus at h
  repeat' split at h
  all_goals cases h
  · exact .inl rfl
  · exact .inr (.inl rfl)
  all_goals exact .inr (.inr fun s => ⟨_, rfl⟩)

theorem decodeAccess_cases {base : Nat} {a : BusAccess} {i : Instr} (h : decodeAccess base a = .ok i) :
    i = .wrCmd a.v ∨ i = .wrData a.v ∨ ∀ s, ∃ x, exec i s = .next { s with rdata := x } := by
  unfold decodeAccess at h
  split at h
  · cases h
  split at h
  · cases h
  split at h
  · next hd =>
    cases h
    exact decodeBus_cases hd
  · cases h

/-! ## What a step is -/

/-- `EngineMove s t`: `t` is what one engine step makes of `s`, by the phase and, in NEXT, by the operation in progress
(R100). -/
inductive EngineMove (s : State) : State → Prop
  | idle (ho : s.opk = .none) : EngineMove s s
  | load (ho : s.opk ≠ .none) (hp : s.ph = .load) : EngineMove s (schedLoad s)
  | expand1 (ho : s.opk ≠ .none) (hp : s.ph = .expand) (ha : s.alg = 0) : EngineMove s (schedStep1 s)
  | expand2 (ho : s.opk ≠ .none) (hp : s.ph = .expand) (ha : s.alg ≠ 0) : EngineMove s (schedStep2 s)
  | wrload (ho : s.opk ≠ .none) (hp : s.ph = .wrload) : EngineMove s (wrLoad s)
  | round1 (ho : s.opk ≠ .none) (hp : s.ph = .round) (ha : s.alg = 0) : EngineMove s (round1 s)
  | round2 (ho : s.opk ≠ .none) (hp : s.ph = .round) (ha : s.alg ≠ 0) : EngineMove s (round2 s)
  | feed (ho : s.opk ≠ .none) (hp : s.ph = .feed) : EngineMove s (feedForward s)
  | blockDone (ho : s.opk = .block) (hp : s.ph = .next) : EngineMove s { s with bufcnt := 0, opk := .none }
  | secondBlock (ho : s.opk = .final) (hp : s.ph = .next) (hmore : s.pb.val + 1 < s.npb.count) :
    EngineMove s { padSecond s with pb := s.pb + 1, ph := .load }
  | finalDone (ho : s.opk = .final) (hp : s.ph = .next) : EngineMove s (finalFinish (serialize s))
  | deriveDone (ho : s.opk = .derive) (hp : s.ph = .next) : EngineMove s (deriveFinish s)

theorem engineMove_engineStep (s : State) : EngineMove s (engineStep s) := by
  by_cases ho : s.opk = .none
  · rw [engineStep_idle s ho]
    exact .idle ho
  · rcases engineStep_cases s ho with ⟨hp, e⟩ | ⟨hp, ha, e⟩ | ⟨hp, ha, e⟩ | ⟨hp, e⟩ | ⟨hp, ha, e⟩ | ⟨hp, ha, e⟩ |
      ⟨hp, e⟩ | ⟨hp, hop, e⟩ | ⟨hp, hop, hmore, e⟩ | ⟨hp, hop, -, e⟩ | ⟨hp, hop, e⟩ <;> rw [e]
    · exact .load ho hp
    · exact .expand1 ho hp ha
    · exact .expand2 ho hp ha
    · exact .wrload ho hp
    · exact .round1 ho hp ha
    · exact .round2 ho hp ha
    · exact .feed ho hp
    · exact .blockDone hop hp
    · exact .secondBlock hop hp hmore
    · exact .finalDone hop hp
    · exact .deriveDone hop hp

/-- `Transition s t`: `t` is what one transition makes of `s`, by the agent that moves (R13). A host access takes effect
with itself and the environment's choice used up; NOP and an ignored write are answers that leave `rdata` as it is. -/
inductive Transition (s : State) : State → Prop
  /-- A hardware reset (R143). -/
  | reset (ts : List Turn) (hturn : s.turns = .reset :: ts) : Transition s (hardReset { s with turns := ts })
  /-- A step of the engine (R100). -/
  | engine (hturn : s.turns.head? ≠ some .reset) (t : State) (hmove : EngineMove { s with turns := s.turns.tail } t) :
    Transition s t
  /-- An access that changes nothing but the host's side (R36 to R38, R119). -/
  | answered (hturn : s.turns.head? ≠ some .reset) (rest : List BusAccess) (x : BusWord) :
    Transition s { s with bus := rest, turns := s.turns.tail, rdata := x }
  /-- INIT (R120). -/
  | init (hturn : s.turns.head? ≠ some .reset) (hidle : s.busy = false) (a : BusAccess) (rest : List BusAccess)
    (v : BusWord) (k : BitVec 3) (hbus : s.bus = a :: rest) (hdec : decodeAccess s.cfg.base a = .ok (.wrCmd v))
    (hcmd : decodeCmd v = .init k) : Transition s (opInit k { s with bus := rest, turns := s.turns.tail })
  /-- FINAL (R121). -/
  | final (hturn : s.turns.head? ≠ some .reset) (hidle : s.busy = false) (a : BusAccess) (rest : List BusAccess)
    (v : BusWord) (nb : BitVec 2) (tb0 tb1 tb2 : Byte) (hbus : s.bus = a :: rest)
    (hdec : decodeAccess s.cfg.base a = .ok (.wrCmd v)) (hcmd : decodeCmd v = .final nb tb0 tb1 tb2) :
    Transition s (opFinal nb tb0 tb1 tb2 { s with bus := rest, turns := s.turns.tail })
  /-- A malformed command word (R122). -/
  | malformed (hturn : s.turns.head? ≠ some .reset) (hidle : s.busy = false) (a : BusAccess) (rest : List BusAccess)
    (v : BusWord) (hbus : s.bus = a :: rest) (hdec : decodeAccess s.cfg.base a = .ok (.wrCmd v)) :
    Transition s (opRsvd { s with bus := rest, turns := s.turns.tail })
  /-- DATA (R123). -/
  | data (hturn : s.turns.head? ≠ some .reset) (hidle : s.busy = false) (a : BusAccess) (rest : List BusAccess)
    (v : BusWord) (hbus : s.bus = a :: rest) (hdec : decodeAccess s.cfg.base a = .ok (.wrData v)) :
    Transition s (opData v { s with bus := rest, turns := s.turns.tail })

/-- A write to CMD that takes effect while SHAENG is idle (R118). -/
theorem Transition.of_wrCmd {s t : State} (hturn : s.turns.head? ≠ some .reset) (hidle : s.busy = false) {a : BusAccess}
    {rest : List BusAccess} {v : BusWord} (hbus : s.bus = a :: rest)
    (hdec : decodeAccess s.cfg.base a = .ok (.wrCmd v))
    (hexec : exec (.wrCmd v) { s with bus := rest, turns := s.turns.tail } = .next t) : Transition s t := by
  rw [exec_wrCmd_eq_exec_decodeCmd] at hexec
  rcases decodeCmd_cases v with hcmd | ⟨k, hcmd⟩ | ⟨nb, tb0, tb1, tb2, hcmd⟩ | hbad
  · rw [hcmd] at hexec
    cases hexec
    exact .answered hturn rest s.rdata
  · rw [hcmd] at hexec
    cases hexec
    exact .init hturn hidle a rest v k hbus hdec hcmd
  · rw [hcmd] at hexec
    cases hexec
    exact .final hturn hidle a rest v nb tb0 tb1 tb2 hbus hdec hcmd
  · rw [hbad] at hexec
    cases hexec
    exact .malformed hturn hidle a rest v hbus hdec

/-- A step that answers a next state is one of the transitions. -/
theorem transition_of_step {s t : State} (h : step s = .next t) : Transition s t := by
  rcases step_cases h with ⟨ts, hturn, rfl⟩ | ⟨hturn, rfl⟩ | ⟨hturn, a, rest, i, hbus, hdec, hfree, hexec⟩
  · exact .reset ts hturn
  · exact .engine hturn _ (engineMove_engineStep _)
  · have idle : i ≠ .rdStatus → s.busy = false := fun hi => hfree.resolve_right hi
    rcases decodeAccess_cases hdec with rfl | rfl | hans
    · exact .of_wrCmd hturn (idle (by simp)) hbus hdec hexec
    · cases hexec
      exact .data hturn (idle (by simp)) a rest a.v hbus hdec
    · obtain ⟨x, hx⟩ := hans { s with bus := rest, turns := s.turns.tail }
      rw [hx] at hexec
      cases hexec
      exact .answered hturn rest x

/-! ## What the commands leave in the fields -/

@[simp] theorem opRsvd_eq_raiseError (s : State) : opRsvd s = raiseError .badCmd s := rfl

/-- An accepted INIT opens a job for its algorithm (R120). -/
theorem opInit_accepted {k : BitVec 3} (hk : k ≠ 7) (s : State) :
    (opInit k s).alg = k ∧ (opInit k s).js = .active ∧ (opInit k s).errcode = .none ∧ (opInit k s).msglen = 0 ∧
      (opInit k s).bufcnt = 0 ∧ (opInit k s).cfg = s.cfg := by
  rcases opInit_cases k s with ⟨rfl, -⟩ | ⟨-, e⟩ | ⟨rfl, -, e⟩ | ⟨rfl, -, e⟩ | ⟨-, e⟩
  · exact absurd rfl hk
  all_goals
    rw [e]
    simp

/-- Appended bytes that stay within LMAX are counted without a wrap (R23, R130). -/
theorem toNat_appendBytes_msglen {n : Nat} {s : State} (h : s.msglen.toNat + n ≤ lmax s.alg) (f : Nat → Byte) :
    (appendBytes n f s).msglen.toNat = s.msglen.toNat + n := by
  have hmax := (params_block_sizes s.alg).2
  rw [appendBytes_msglen, BitVec.toNat_add, BitVec.toNat_ofNat]
  omega

/-- What DATA does to the fields of the job: it counts four bytes, or records an error (R123). -/
theorem opData_job (v : BusWord) (s : State) :
    (opData v s).alg = s.alg ∧ ((opData v s).js = s.js ∨ (opData v s).js = .error) ∧
      ((opData v s).msglen = s.msglen ∨ (opData v s).msglen.toNat = s.msglen.toNat + 4) := by
  rcases opData_cases v s with ⟨-, e⟩ | ⟨-, -, e⟩ | ⟨-, hmax, e⟩ <;> rw [e]
  · simp
  · simp
  · exact ⟨by simp, by simp, .inr ((startFullBlock_msglen _).symm ▸ toNat_appendBytes_msglen hmax _)⟩

/-- What FINAL does to the fields of the job: it counts its tail bytes, or records an error (R121). -/
theorem opFinal_job (nb : BitVec 2) (tb0 tb1 tb2 : Byte) (s : State) :
    (opFinal nb tb0 tb1 tb2 s).alg = s.alg ∧
      ((opFinal nb tb0 tb1 tb2 s).js = s.js ∨ (opFinal nb tb0 tb1 tb2 s).js = .error) ∧
      ((opFinal nb tb0 tb1 tb2 s).msglen = s.msglen ∨
        (opFinal nb tb0 tb1 tb2 s).msglen.toNat = s.msglen.toNat + nb.toNat) := by
  rcases opFinal_cases nb tb0 tb1 tb2 s with ⟨-, e⟩ | ⟨-, -, e⟩ | ⟨-, hmax, e⟩ <;> rw [e]
  · simp
  · simp
  · exact ⟨by simp, by simp, .inr ((padFirst_msglen _).symm ▸ toNat_appendBytes_msglen hmax _)⟩

/-- The caches and their valid bits are as they were (R29). -/
def KeepsCaches (s t : State) : Prop :=
  t.div224 = s.div224 ∧ t.div256 = s.div256 ∧ t.divv224 = s.divv224 ∧ t.divv256 = s.divv256

/-! No command and no DATA writes DIG or a cache (R28, R29). -/

theorem opInit_keeps_results (k : BitVec 3) (s : State) :
    (opInit k s).dig = s.dig ∧ KeepsCaches s (opInit k s) := by
  rcases opInit_cases k s with ⟨-, e⟩ | ⟨-, e⟩ | ⟨-, -, e⟩ | ⟨-, -, e⟩ | ⟨-, e⟩ <;> simp [KeepsCaches, e]

theorem opFinal_keeps_results (nb : BitVec 2) (tb0 tb1 tb2 : Byte) (s : State) :
    (opFinal nb tb0 tb1 tb2 s).dig = s.dig ∧ KeepsCaches s (opFinal nb tb0 tb1 tb2 s) := by
  rcases opFinal_cases nb tb0 tb1 tb2 s with ⟨-, e⟩ | ⟨-, -, e⟩ | ⟨-, -, e⟩ <;> simp [KeepsCaches, e]

theorem opData_keeps_results (v : BusWord) (s : State) : (opData v s).dig = s.dig ∧ KeepsCaches s (opData v s) := by
  rcases opData_cases v s with ⟨-, e⟩ | ⟨-, -, e⟩ | ⟨-, -, e⟩ <;> simp [KeepsCaches, e]

/-- DIG and the caches are written by the engine and a reset alone (R28, R29, R33). -/
theorem Transition.results {s t : State} (h : Transition s t) :
    s.turns.head? = some .reset ∨ EngineMove { s with turns := s.turns.tail } t ∨ t.dig = s.dig ∧ KeepsCaches s t := by
  cases h with
  | reset ts hturn => exact .inl (by simp [hturn])
  | engine _ _ hmove => exact .inr (.inl hmove)
  | answered => exact .inr (.inr ⟨rfl, rfl, rfl, rfl, rfl⟩)
  | init => exact .inr (.inr (opInit_keeps_results _ _))
  | final => exact .inr (.inr (opFinal_keeps_results _ _ _ _ _))
  | malformed => exact .inr (.inr ⟨rfl, rfl, rfl, rfl, rfl⟩)
  | data => exact .inr (.inr (opData_keeps_results _ _))

/-! ## What the engine leaves in the fields -/

/-- No engine step writes the fields that say which job it works for (R101). -/
theorem EngineMove.keeps_job {s t : State} (h : EngineMove s t) :
    t.alg = s.alg ∧ t.errcode = s.errcode ∧ t.msglen = s.msglen ∧ t.cfg = s.cfg := by
  cases h <;> simp

/-- JS and DIG are written only at the last step of FINAL (R20, R28). -/
theorem EngineMove.final_or_keeps {s t : State} (h : EngineMove s t) :
    (s.opk = .final ∧ s.ph = .next ∧ t = finalFinish (serialize s)) ∨ t.js = s.js ∧ t.dig = s.dig := by
  cases h with
  | finalDone ho hp => exact .inl ⟨ho, hp, rfl⟩
  | _ => exact .inr (by simp)

/-- The caches are written only at the last step of a derivation (R29). -/
theorem EngineMove.derive_or_keeps {s t : State} (h : EngineMove s t) :
    (s.opk = .derive ∧ s.ph = .next ∧ t = deriveFinish s) ∨ KeepsCaches s t := by
  cases h with
  | deriveDone ho hp => exact .inl ⟨ho, hp, rfl⟩
  | _ => exact .inr (by simp [KeepsCaches])

end Sys2Proof.Machine
end

section
/-! Every step keeps the bookkeeping of the job (O49). -/

namespace Sys2Proof.Machine

/-! ## Changes the bookkeeping does not see -/

/-- What the bookkeeping does not mention may change; T and PH may too, inside the phase's range (R17). -/
theorem State.JobInv.withData {s : State} (hs : s.JobInv) (h wr : Vector Cell 8) (ws : Vector Cell 80) (t : Fin 80)
    (ph : Phase) (buf : Vector Byte 128) (rdata : BusWord) (bus : List BusAccess) (turns : List Turn)
    (hexpand : s.busy = true → ph = .expand → 16 ≤ t.val ∧ t.val < (params s.alg).ns)
    (hround : s.busy = true → ph = .round → t.val < (params s.alg).rounds) :
    State.JobInv { s with
      h := h, wr := wr, ws := ws, t := t, ph := ph, buf := buf, rdata := rdata, bus := bus, turns := turns } where
  base_aligned := hs.base_aligned
  error_has_code := hs.error_has_code
  busy_active := hs.busy_active
  has_algorithm := hs.has_algorithm
  no_job := hs.no_job
  no_algorithm := hs.no_algorithm
  msglen_le := hs.msglen_le
  bufcnt_le := hs.bufcnt_le
  bufcnt_idle := hs.bufcnt_idle
  bufcnt_block := hs.bufcnt_block
  bufcnt_final := hs.bufcnt_final
  derive_fresh := hs.derive_fresh
  derive_needed := hs.derive_needed
  padded_blocks := hs.padded_blocks
  expand_range := hexpand
  round_range := hround

/-- The host's side is no part of the bookkeeping. -/
theorem State.JobInv.withHostSide {s : State} (hs : s.JobInv) (rdata : BusWord) (bus : List BusAccess)
    (turns : List Turn) : State.JobInv { s with rdata := rdata, bus := bus, turns := turns } :=
  hs.withData s.h s.wr s.ws s.t s.ph s.buf rdata bus turns hs.expand_range hs.round_range

/-- The schedule RAM and the working registers are no part of it either. -/
theorem State.JobInv.withSchedule {s : State} (hs : s.JobInv) (ws : Vector Cell 80) : State.JobInv { s with ws := ws } :=
  hs.withData s.h s.wr ws s.t s.ph s.buf s.rdata s.bus s.turns hs.expand_range hs.round_range

theorem State.JobInv.withRegisters {s : State} (hs : s.JobInv) (wr : Vector Cell 8) : State.JobInv { s with wr := wr } :=
  hs.withData s.h wr s.ws s.t s.ph s.buf s.rdata s.bus s.turns hs.expand_range hs.round_range

/-- The bookkeeping of an idle state. -/
theorem jobInv_of_idle {s : State} (hidle : s.opk = .none) (hbase : s.cfg.wf)
    (herr : s.js = .error ↔ s.errcode ≠ .none) (halg : s.js = .active ∨ s.js = .done → s.alg ≠ 7)
    (hnone : s.js = .none → s.alg = 7 ∧ s.msglen = 0) (h7 : s.alg = 7 → s.msglen = 0)
    (hmax : s.msglen.toNat ≤ lmax s.alg) (hcnt : s.bufcnt.toNat ≤ (params s.alg).blockBytes)
    (hactive : s.js = .active →
      s.bufcnt.toNat = s.msglen.toNat % (params s.alg).blockBytes ∧ s.bufcnt.toNat % 4 = 0) : s.JobInv := by
  have hbusy : s.busy ≠ true := by simp [State.busy, hidle]
  exact {
    base_aligned := hbase
    error_has_code := herr
    busy_active := fun h => absurd h hbusy
    has_algorithm := halg
    no_job := hnone
    no_algorithm := h7
    msglen_le := hmax
    bufcnt_le := hcnt
    bufcnt_idle := fun _ => hactive
    bufcnt_block := by simp [hidle]
    bufcnt_final := by simp [hidle]
    derive_fresh := by simp [hidle]
    derive_needed := by simp [hidle]
    padded_blocks := by simp [hidle]
    expand_range := fun h => absurd h hbusy
    round_range := fun h => absurd h hbusy }

/-- The bookkeeping of an active state in which the engine starts a block. -/
theorem jobInv_of_load {s : State} (hbusy : s.opk ≠ .none) (hph : s.ph = .load) (hbase : s.cfg.wf)
    (hjs : s.js = .active) (herr : s.errcode = .none) (h7 : s.alg ≠ 7) (hmax : s.msglen.toNat ≤ lmax s.alg)
    (hcnt : s.bufcnt.toNat ≤ (params s.alg).blockBytes)
    (hblock : s.opk = .block →
      s.bufcnt.toNat = (params s.alg).blockBytes ∧ s.msglen.toNat % (params s.alg).blockBytes = 0)
    (hfinal : s.opk = .final → s.bufcnt.toNat = s.msglen.toNat % (params s.alg).blockBytes ∧ s.pb.val < s.npb.count ∧
      (s.npb = .two ↔ (params s.alg).blockBytes - (params s.alg).lenBytes ≤ s.bufcnt.toNat))
    (hderive : s.opk = .derive → s.msglen = 0 ∧ s.bufcnt = 0 ∧
      (s.alg = 5 ∧ s.divv224 = false ∨ s.alg = 6 ∧ s.divv256 = false)) : s.JobInv where
  base_aligned := hbase
  error_has_code := by simp [hjs, herr]
  busy_active := fun _ => hjs
  has_algorithm := fun _ => h7
  no_job := by simp [hjs]
  no_algorithm := fun h => absurd h h7
  msglen_le := hmax
  bufcnt_le := hcnt
  bufcnt_idle := fun h => absurd ((not_busy_iff s).1 h) hbusy
  bufcnt_block := hblock
  bufcnt_final := fun h => (hfinal h).1
  derive_fresh := fun h => ⟨(hderive h).1, (hderive h).2.1⟩
  derive_needed := fun h => (hderive h).2.2
  padded_blocks := fun h => (hfinal h).2
  expand_range := by simp [hph]
  round_range := by simp [hph]

/-! ## The host's commands -/

/-- `pad_first` needs a second block exactly when the length field does not fit beside the message bytes (R83). -/
theorem padFirst_npb_eq_two_iff (r : State) :
    (padFirst r).npb = .two ↔ (params r.alg).blockBytes - (params r.alg).lenBytes ≤ r.bufcnt.toNat := by
  have hsize := (params_block_sizes r.alg).1
  unfold padFirst
  dsimp only
  split <;> simp <;> omega

section Commands

variable {s : State} (hs : s.JobInv) (hidle : s.opk = .none)

include hs

theorem deriveStart_jobInv {k : BitVec 3} (hk : mustDerive k s) : (deriveStart k (newJob k s)).JobInv := by
  have h7 : k ≠ 7 := by rcases hk with ⟨rfl, -⟩ | ⟨rfl, -⟩ <;> decide
  apply jobInv_of_load <;> simp
  · exact hs.base_aligned
  · exact h7
  · exact hk

include hidle

/-- Recording an error keeps the bookkeeping of an idle state (R129). -/
theorem raiseError_jobInv {c : ErrCode} (hc : c ≠ .none) : (raiseError c s).JobInv := by
  apply jobInv_of_idle <;> simp only [raiseError_opk, raiseError_cfg, raiseError_js, raiseError_errcode, raiseError_alg,
    raiseError_msglen, raiseError_bufcnt]
  · exact hidle
  · exact hs.base_aligned
  · by_cases he : s.js = .error
    · simpa [he] using hs.error_has_code.1 he
    · simpa [he] using hc
  · simp
  · simp
  · exact hs.no_algorithm
  · exact hs.msglen_le
  · exact hs.bufcnt_le
  · simp

/-- The job that an accepted INIT opens, before any derivation (R120). -/
theorem newJob_jobInv {k : BitVec 3} (hk : k ≠ 7) (h : Vector Cell 8) : State.JobInv { newJob k s with h := h } := by
  apply jobInv_of_idle <;> simp [hidle]
  · exact hs.base_aligned
  · exact hk

theorem opInit_jobInv (k : BitVec 3) : (opInit k s).JobInv := by
  rcases opInit_cases k s with ⟨-, e⟩ | ⟨hk, e⟩ | ⟨rfl, -, e⟩ | ⟨rfl, -, e⟩ | ⟨hk, e⟩ <;> rw [e]
  · exact raiseError_jobInv hs hidle (by decide)
  · exact newJob_jobInv hs hidle (by rintro rfl; exact absurd hk (by decide)) _
  · exact newJob_jobInv hs hidle (k := 5) (by decide) s.div224
  · exact newJob_jobInv hs hidle (k := 6) (by decide) s.div256
  · exact deriveStart_jobInv hs hk

/-- The byte counters after an accepted append: both grow by n, and BUFCNT was a whole number of DATA words inside the block
(R121, R123). -/
theorem appendBytes_counts (hjs : s.js = .active) {n : Nat} (hn : n ≤ 4) (hmax : s.msglen.toNat + n ≤ lmax s.alg)
    (f : Nat → Byte) :
    (appendBytes n f s).msglen.toNat = s.msglen.toNat + n ∧ (appendBytes n f s).bufcnt.toNat = s.bufcnt.toNat + n ∧
      s.bufcnt.toNat = s.msglen.toNat % (params s.alg).blockBytes ∧ s.bufcnt.toNat % 4 = 0 := by
  obtain ⟨hcnt, h4⟩ := hs.bufcnt_idle ((not_busy_iff s).2 hidle) hjs
  obtain ⟨hsize, -⟩ := params_block_sizes s.alg
  refine ⟨toNat_appendBytes_msglen hmax f, ?_, hcnt, h4⟩
  rw [appendBytes_bufcnt, BitVec.toNat_add, BitVec.toNat_ofNat]
  rcases hsize with ⟨hB, -⟩ | ⟨hB, -⟩ <;> rw [hB] at hcnt <;> omega

theorem opData_jobInv (v : BusWord) : (opData v s).JobInv := by
  rcases opData_cases v s with ⟨-, e⟩ | ⟨-, -, e⟩ | ⟨hjs, hmax, e⟩ <;> rw [e]
  · exact raiseError_jobInv hs hidle (by decide)
  · exact raiseError_jobInv hs hidle (by decide)
  have herr : s.errcode = .none := by simpa [hjs] using hs.error_has_code
  have h7 : s.alg ≠ 7 := hs.has_algorithm (.inl hjs)
  obtain ⟨hlen, hcnt, hmod, h4⟩ := appendBytes_counts hs hidle hjs (by omega) hmax (laneByte v)
  obtain ⟨hsize, -⟩ := params_block_sizes s.alg
  by_cases hfull : (appendBytes 4 (laneByte v) s).bufcnt.toNat = (params s.alg).blockBytes
  · rw [startFullBlock_full _ hfull]
    have hwhole : (s.msglen.toNat + 4) % (params s.alg).blockBytes = 0 := by
      rcases hsize with ⟨hB, -⟩ | ⟨hB, -⟩ <;> rw [hB] at hmod hfull ⊢ <;> omega
    refine jobInv_of_load (s := { appendBytes 4 (laneByte v) s with opk := .block, ph := .load }) (by simp) rfl
      hs.base_aligned hjs herr h7 (hlen.le.trans hmax) hfull.le (fun _ => ⟨hfull, ?_⟩) (by simp) (by simp)
    simp only [hlen, appendBytes_alg, hwhole]
  · rw [startFullBlock_more _ hfull]
    have hroom : s.bufcnt.toNat + 4 < (params s.alg).blockBytes := by
      rcases hsize with ⟨hB, -⟩ | ⟨hB, -⟩ <;> rw [hB] at hmod hfull ⊢ <;> omega
    refine jobInv_of_idle (s := appendBytes 4 (laneByte v) s) hidle hs.base_aligned hs.error_has_code (fun _ => h7)
      (by simp [hjs]) (fun h => absurd h h7) (hlen.le.trans hmax) (hcnt.le.trans hroom.le) fun _ => ?_
    simp only [hlen, hcnt, appendBytes_alg]
    rcases hsize with ⟨hB, -⟩ | ⟨hB, -⟩ <;> rw [hB] at hmod hroom ⊢ <;> omega

theorem opFinal_jobInv (nb : BitVec 2) (tb0 tb1 tb2 : Byte) : (opFinal nb tb0 tb1 tb2 s).JobInv := by
  rcases opFinal_cases nb tb0 tb1 tb2 s with ⟨-, e⟩ | ⟨-, -, e⟩ | ⟨hjs, hmax, e⟩ <;> rw [e]
  · exact raiseError_jobInv hs hidle (by decide)
  · exact raiseError_jobInv hs hidle (by decide)
  have herr : s.errcode = .none := by simpa [hjs] using hs.error_has_code
  obtain ⟨hlen, hcnt, hmod, h4⟩ := appendBytes_counts hs hidle hjs (by omega) hmax (tailByte tb0 tb1 tb2)
  obtain ⟨hsize, -⟩ := params_block_sizes s.alg
  have hroom : s.bufcnt.toNat + nb.toNat < (params s.alg).blockBytes := by
    rcases hsize with ⟨hB, -⟩ | ⟨hB, -⟩ <;> rw [hB] at hmod ⊢ <;> omega
  have hwhole : s.bufcnt.toNat + nb.toNat = (s.msglen.toNat + nb.toNat) % (params s.alg).blockBytes := by
    rcases hsize with ⟨hB, -⟩ | ⟨hB, -⟩ <;> rw [hB] at hmod hroom ⊢ <;> omega
  have hpb : ∀ n : PadBlocks, (0 : Fin 2).val < n.count := by intro n; cases n <;> decide
  apply jobInv_of_load <;> simp only [padFirst_cfg, padFirst_js, padFirst_errcode, padFirst_alg, padFirst_msglen,
    padFirst_bufcnt, padFirst_npb_eq_two_iff, appendBytes_cfg, appendBytes_js, appendBytes_errcode, appendBytes_alg,
    hlen, hcnt]
  · simp
  · exact hs.base_aligned
  · exact hjs
  · exact herr
  · exact hs.has_algorithm (.inl hjs)
  · exact hmax
  · exact hroom.le
  · simp
  · exact fun _ => ⟨hwhole, hpb _, trivial⟩
  · simp

end Commands

/-! ## The engine's steps -/

section Engine

variable {s : State} (hs : s.JobInv)

include hs

/-- After a schedule entry T is still in EXPAND's range, or WRLOAD comes next (R17, R88, R89). -/
theorem afterExpand_jobInv (hbusy : s.opk ≠ .none) (hp : s.ph = .expand) : (afterExpand s).JobInv := by
  obtain ⟨hlo, hhi⟩ := hs.expand_range ((busy_iff s).2 hbusy) hp
  obtain ⟨-, hns, -⟩ := params_counts s.alg
  by_cases hlast : s.t.val = (params s.alg).ns - 1
  · rw [afterExpand_last s hlast]
    exact hs.withData s.h s.wr s.ws s.t .wrload s.buf s.rdata s.bus s.turns (by simp) (by simp)
  · rw [afterExpand_more s hlast]
    have ht := t_succ s.t (by omega)
    exact hs.withData s.h s.wr s.ws (s.t + 1) s.ph s.buf s.rdata s.bus s.turns (fun _ _ => by omega) (by simp [hp])

/-- After a round T is still in ROUND's range, or FEED comes next (R17, R96, R98). -/
theorem afterRound_jobInv (hbusy : s.opk ≠ .none) (hp : s.ph = .round) : (afterRound s).JobInv := by
  have hhi := hs.round_range ((busy_iff s).2 hbusy) hp
  obtain ⟨-, -, -, hr, -⟩ := params_counts s.alg
  by_cases hlast : s.t.val = (params s.alg).rounds - 1
  · rw [afterRound_last s hlast]
    exact hs.withData s.h s.wr s.ws s.t .feed s.buf s.rdata s.bus s.turns (by simp) (by simp)
  · rw [afterRound_more s hlast]
    have ht := t_succ s.t (by omega)
    exact hs.withData s.h s.wr s.ws (s.t + 1) s.ph s.buf s.rdata s.bus s.turns (by simp [hp]) (fun _ _ => by omega)

/-- The end of an engine operation that leaves the job active, with an empty buffer (R100, R123). -/
theorem finish_jobInv (hwhole : s.msglen.toNat % (params s.alg).blockBytes = 0) {t : State}
    (hidle : t.opk = .none) (hcfg : t.cfg = s.cfg) (htjs : t.js = s.js) (herr : t.errcode = s.errcode)
    (halg : t.alg = s.alg) (hlen : t.msglen = s.msglen) (hcnt : t.bufcnt = 0) : t.JobInv := by
  apply jobInv_of_idle hidle <;> simp only [hcfg, htjs, herr, halg, hlen, hcnt]
  · exact hs.base_aligned
  · exact hs.error_has_code
  · exact hs.has_algorithm
  · exact hs.no_job
  · exact hs.no_algorithm
  · exact hs.msglen_le
  · simp
  · simp [hwhole]

end Engine

theorem EngineMove.jobInv {s t : State} (h : EngineMove s t) (hs : s.JobInv) : t.JobInv := by
  have active : s.opk ≠ .none → s.js = .active := fun ho => hs.busy_active ((busy_iff s).2 ho)
  obtain ⟨hns, -, hrounds, -⟩ := params_counts s.alg
  cases h with
  | idle => exact hs
  | load =>
    exact hs.withData s.h s.wr (schedLoad s).ws 16 .expand s.buf s.rdata s.bus s.turns
      (fun _ _ => ⟨by simp, by simp; omega⟩) (by simp)
  | expand1 ho hp => exact afterExpand_jobInv (hs.withSchedule _) ho hp
  | expand2 ho hp => exact afterExpand_jobInv (hs.withSchedule _) ho hp
  | wrload =>
    exact hs.withData s.h (wrLoad s).wr s.ws 0 .round s.buf s.rdata s.bus s.turns (by simp)
      (fun _ _ => by simp; omega)
  | round1 ho hp => exact afterRound_jobInv (hs.withRegisters _) ho hp
  | round2 ho hp => exact afterRound_jobInv (hs.withRegisters _) ho hp
  | feed => exact hs.withData (feedForward s).h s.wr s.ws s.t .next s.buf s.rdata s.bus s.turns (by simp) (by simp)
  | blockDone ho =>
    exact finish_jobInv hs (hs.bufcnt_block ho).2 rfl rfl rfl rfl rfl rfl rfl
  | secondBlock ho hp hmore =>
    have hjs := active (by simp [ho])
    obtain ⟨hpb, hnpb⟩ := hs.padded_blocks ho
    have hnext : (s.pb + 1).val = s.pb.val + 1 := by
      have : s.npb.count ≤ 2 := by cases s.npb <;> decide
      rw [Fin.val_add]
      simp
      omega
    apply jobInv_of_load <;> simp only [padSecond_opk, padSecond_cfg, padSecond_js, padSecond_errcode, padSecond_alg,
      padSecond_msglen, padSecond_bufcnt, padSecond_npb]
    · simp [ho]
    · exact hs.base_aligned
    · exact hjs
    · simpa [hjs] using hs.error_has_code
    · exact hs.has_algorithm (.inl hjs)
    · exact hs.msglen_le
    · exact hs.bufcnt_le
    · simp [ho]
    · exact fun _ => ⟨hs.bufcnt_final ho, by omega, hnpb⟩
    · simp [ho]
  | finalDone ho =>
    have hjs := active (by simp [ho])
    apply jobInv_of_idle <;> simp only [finalFinish_opk, finalFinish_cfg, finalFinish_js, finalFinish_errcode,
      finalFinish_alg, finalFinish_msglen, finalFinish_bufcnt, serialize_cfg, serialize_errcode, serialize_alg,
      serialize_msglen]
    · exact hs.base_aligned
    · simpa [hjs] using hs.error_has_code
    · exact fun _ => hs.has_algorithm (.inl hjs)
    · simp
    · exact hs.no_algorithm
    · exact hs.msglen_le
    · simp
    · simp
  | deriveDone ho =>
    obtain ⟨hlen, hcnt⟩ := hs.derive_fresh ho
    exact finish_jobInv hs (by simp [hlen]) (deriveFinish_opk s) (deriveFinish_cfg s)
      (deriveFinish_js s) (deriveFinish_errcode s) (deriveFinish_alg s) (deriveFinish_msglen s)
      ((deriveFinish_bufcnt s).trans hcnt)

/-! ## The step -/

theorem hardReset_jobInv {s : State} (hbase : s.cfg.wf) : (hardReset s).JobInv := by
  apply jobInv_of_idle <;> simp
  exact hbase

theorem Transition.jobInv {s t : State} (h : Transition s t) (hs : s.JobInv) : t.JobInv := by
  have host := hs.withHostSide s.rdata
  cases h with
  | reset ts => exact hardReset_jobInv hs.base_aligned
  | engine _ t hmove => exact hmove.jobInv (host s.bus s.turns.tail)
  | answered _ rest x => exact hs.withHostSide x rest s.turns.tail
  | init _ hidle _ rest _ k => exact opInit_jobInv (host rest s.turns.tail) ((not_busy_iff s).1 hidle) k
  | final _ hidle _ rest _ nb tb0 tb1 tb2 =>
    exact opFinal_jobInv (host rest s.turns.tail) ((not_busy_iff s).1 hidle) nb tb0 tb1 tb2
  | malformed _ hidle _ rest => exact raiseError_jobInv (host rest s.turns.tail) ((not_busy_iff s).1 hidle) (by decide)
  | data _ hidle _ rest v => exact opData_jobInv (host rest s.turns.tail) ((not_busy_iff s).1 hidle) v

/-- Settles O49, by the transition that the step is: each operation keeps the bookkeeping. -/
theorem stepKeepsTheJobInvariant : Obligations.StepKeepsTheJobInvariant :=
  fun _ _ hs hstep => (transition_of_step hstep).jobInv hs

end Sys2Proof.Machine
end

section
/-! Every step keeps the cells a job reads within its word width (O50). -/

namespace Sys2Proof.Machine

/-- The HashState cells of a width-W job hold words of its width (R16). -/
abbrev State.HashFits (s : State) : Prop := ∀ i (_ : i < 8), i < (params s.alg).nh → fits s.width s.h[i]

/-- Where the engine is idle or starts a block, only the HashState is read later. -/
theorem cellInv_of_not_started {s : State} (hstart : s.opk = .none ∨ s.ph = .load)
    (hhash : s.js = .active → s.HashFits) : s.CellInv where
  hash_state := hhash
  schedule hbusy i _ hphase := by
    have hph := hstart.resolve_left ((busy_iff s).1 hbusy)
    simp [hph] at hphase
  working hbusy hphase := by
    have hph := hstart.resolve_left ((busy_iff s).1 hbusy)
    simp [hph] at hphase

/-- The host's side is not part of the cells. -/
theorem State.CellInv.withHostSide {s : State} (hs : s.CellInv) (rdata : BusWord) (bus : List BusAccess)
    (turns : List Turn) : State.CellInv { s with rdata := rdata, bus := bus, turns := turns } where
  hash_state := hs.hash_state
  schedule := hs.schedule
  working := hs.working

/-! ## The host's commands -/

/-- The published IVs fit the width of their algorithms (R105). -/
theorem ivRom_fits : ∀ (a : BitVec 3) (i : Fin 8), i.val < (params a).nh → a.toNat ≤ 4 →
    ((ivRom a).getD i 0).toNat < 2 ^ (params a).width.bits := by decide

theorem fits_of_width_w64 {W : Width} (h : W = .w64) (c : Cell) : fits W c := h ▸ fits_w64 c

section Commands

variable {s : State} (hs : s.CellInv) (hidle : s.opk = .none)

include hidle

theorem raiseError_cellInv (c : ErrCode) : (raiseError c s).CellInv :=
  cellInv_of_not_started (.inl hidle) (by simp)

theorem opInit_cellInv (k : BitVec 3) : (opInit k s).CellInv := by
  rcases opInit_cases k s with ⟨-, e⟩ | ⟨hk, e⟩ | ⟨rfl, -, e⟩ | ⟨rfl, -, e⟩ | ⟨hk, e⟩ <;> rw [e]
  · exact raiseError_cellInv hidle _
  · refine cellInv_of_not_started (.inl hidle) fun _ i hi hn => ?_
    have hn : i < (params k).nh := hn
    simp only [getElem_fill, Nat.zero_le, hn, and_self, if_true]
    exact ivRom_fits k ⟨i, hi⟩ hn hk
  · exact cellInv_of_not_started (.inl hidle) fun _ i hi _ => fits_of_width_w64 rfl _
  · exact cellInv_of_not_started (.inl hidle) fun _ i hi _ => fits_of_width_w64 rfl _
  · refine cellInv_of_not_started (.inr (by simp)) fun _ i hi _ => fits_of_width_w64 ?_ _
    rcases hk with ⟨rfl, -⟩ | ⟨rfl, -⟩ <;> simp [State.width, params]

include hs

theorem opData_cellInv (v : BusWord) : (opData v s).CellInv := by
  rcases opData_cases v s with ⟨-, e⟩ | ⟨-, -, e⟩ | ⟨-, -, e⟩ <;> rw [e]
  · exact raiseError_cellInv hidle _
  · exact raiseError_cellInv hidle _
  have hstart : (startFullBlock (appendBytes 4 (laneByte v) s)).opk = .none ∨
      (startFullBlock (appendBytes 4 (laneByte v) s)).ph = .load := by
    unfold startFullBlock
    split
    · exact .inr rfl
    · exact .inl hidle
  exact cellInv_of_not_started hstart (by simpa [State.HashFits, State.width] using hs.hash_state)

theorem opFinal_cellInv (nb : BitVec 2) (tb0 tb1 tb2 : Byte) : (opFinal nb tb0 tb1 tb2 s).CellInv := by
  rcases opFinal_cases nb tb0 tb1 tb2 s with ⟨-, e⟩ | ⟨-, -, e⟩ | ⟨-, -, e⟩ <;> rw [e]
  · exact raiseError_cellInv hidle _
  · exact raiseError_cellInv hidle _
  · exact cellInv_of_not_started (.inr rfl) (by simpa [State.HashFits, State.width] using hs.hash_state)

end Commands

/-! ## The engine's steps -/

/-- The entries up to T fit once the entry at T does (R88, R89). -/
theorem State.CellInv.set_fits {s : State} (hs : s.CellInv) (ho : s.opk ≠ .none) (hp : s.ph = .expand) {c : Cell}
    (hc : fits s.width c) : ∀ i (_ : i < 80), i ≤ s.t.val → fits s.width (s.ws.set s.t.val c)[i] := by
  intro i hi hit
  rw [Vector.getElem_set]
  split
  · exact hc
  · exact hs.schedule ((busy_iff s).2 ho) i hi (.inl ⟨hp, by omega⟩)

/-- When the entries up to T fit, those below the next T do, and at the last entry all NS do (R88, R89). -/
theorem afterExpand_cellInv {s : State} (hj : s.JobInv) (ho : s.opk ≠ .none) (hp : s.ph = .expand)
    (hhash : s.js = .active → s.HashFits) (hsched : ∀ i (_ : i < 80), i ≤ s.t.val → fits s.width s.ws[i]) :
    (afterExpand s).CellInv := by
  obtain ⟨-, hhi⟩ := hj.expand_range ((busy_iff s).2 ho) hp
  obtain ⟨-, hns, -⟩ := params_counts s.alg
  by_cases hlast : s.t.val = (params s.alg).ns - 1
  · rw [afterExpand_last s hlast]
    exact {
      hash_state := hhash
      schedule := fun _ i hi hphase => hsched i hi (by simp at hphase; omega)
      working := by simp }
  · rw [afterExpand_more s hlast]
    have ht := t_succ s.t (by omega)
    exact {
      hash_state := hhash
      schedule := fun _ i hi hphase => hsched i hi (by simp [hp] at hphase; omega)
      working := by simp [hp] }

/-- Registers that fit stay so over a round's end (R96, R98). -/
theorem afterRound_cellInv {s : State} (hp : s.ph = .round) (hhash : s.js = .active → s.HashFits)
    (hsched : ∀ i (_ : i < 80), i < (params s.alg).ns → fits s.width s.ws[i])
    (hwr : ∀ i (_ : i < 8), i < (params s.alg).nh → fits s.width s.wr[i]) : (afterRound s).CellInv := by
  by_cases hlast : s.t.val = (params s.alg).rounds - 1
  · rw [afterRound_last s hlast]
    exact {
      hash_state := hhash
      schedule := fun _ i hi hphase => hsched i hi (by simpa using hphase)
      working := fun _ _ => hwr }
  · rw [afterRound_more s hlast]
    exact {
      hash_state := hhash
      schedule := fun _ i hi hphase => hsched i hi (by simpa [hp] using hphase)
      working := fun _ _ => hwr }

/-! What each phase writes fits (R16). -/

theorem width_congr {s t : State} (h : t.alg = s.alg) : t.width = s.width := by rw [State.width, State.width, h]

theorem width_of_sha1 {s : State} (ha : s.alg = 0) : s.width = .w32 := by
  simp [State.width, ha, params]

theorem schedLoad_ws_fits (s : State) : ∀ i (_ : i < 80), i < 16 → fits s.width (schedLoad s).ws[i] := by
  intro i hi h16
  simp only [schedLoad_ws, getElem_fill, Nat.zero_le, h16, and_self, if_true]
  exact fits_writeCell _ _

theorem schedStep2_ws_fits {s : State} (hs : s.CellInv) (ho : s.opk ≠ .none) (hp : s.ph = .expand) :
    ∀ i (_ : i < 80), i ≤ s.t.val → fits s.width (schedStep2 s).ws[i] := by
  rw [schedStep2_ws]
  exact hs.set_fits ho hp (fits_writeCell _ _)

theorem schedStep1_ws_fits {s : State} (hs : s.CellInv) (ho : s.opk ≠ .none) (hp : s.ph = .expand) (ha : s.alg = 0) :
    ∀ i (_ : i < 80), i ≤ s.t.val → fits s.width (schedStep1 s).ws[i] := by
  rw [schedStep1_ws]
  refine hs.set_fits ho hp ?_
  rw [width_of_sha1 ha]
  exact fits_writeCell .w32 _

theorem wrLoad_wr_fits (s : State) : ∀ i (_ : i < 8), i < (params s.alg).nh → fits s.width (wrLoad s).wr[i] := by
  intro i hi hn
  simp only [wrLoad_wr, getElem_fill, Nat.zero_le, hn, and_self, if_true]
  exact fits_writeCell _ _

theorem feedForward_h_fits (s : State) : ∀ i (_ : i < 8), i < (params s.alg).nh → fits s.width (feedForward s).h[i] := by
  intro i hi hn
  simp only [feedForward_h, getElem_fill, Nat.zero_le, hn, and_self, if_true]
  exact fits_writeCell _ _

theorem round2_wr_fits (s : State) : ∀ i (_ : i < 8), fits s.width (round2 s).wr[i] := by
  intro i hi
  rw [round2_wr]
  interval_cases i <;> exact fits_writeCell _ _

/-- A SHA-1 round writes a to e (R98). -/
theorem round1_wr_fits (s : State) : ∀ i (_ : i < 8), i < 5 → fits .w32 (round1 s).wr[i] := by
  intro i hi h5
  rw [round1_wr]
  interval_cases i <;> exact fits_writeCell .w32 _

theorem EngineMove.cellInv {s t : State} (h : EngineMove s t) (hj : s.JobInv) (hs : s.CellInv) : t.CellInv := by
  obtain ⟨halg, -⟩ := h.keeps_job
  have hwidth := width_congr halg
  cases h with
  | idle => exact hs
  | load =>
    constructor <;> rw [hwidth] <;> simp only [halg, schedLoad_js, schedLoad_h, schedLoad_ph, schedLoad_t]
    · exact hs.hash_state
    · exact fun _ i hi hphase => schedLoad_ws_fits s i hi (by simpa using hphase)
    · simp
  | expand1 ho hp ha =>
    have hset := schedStep1_ws_fits hs ho hp ha
    rw [schedStep1_ws] at hset
    exact afterExpand_cellInv (hj.withSchedule _) ho hp hs.hash_state hset
  | expand2 ho hp =>
    have hset := schedStep2_ws_fits hs ho hp
    rw [schedStep2_ws] at hset
    exact afterExpand_cellInv (hj.withSchedule _) ho hp hs.hash_state hset
  | wrload ho hp =>
    constructor <;> rw [hwidth] <;> simp only [halg, wrLoad_js, wrLoad_h, wrLoad_ph, wrLoad_ws]
    · exact hs.hash_state
    · exact fun _ i hi hphase => hs.schedule ((busy_iff s).2 ho) i hi (by simpa [hp] using hphase)
    · exact fun _ _ => wrLoad_wr_fits s
  | round1 ho hp ha =>
    have hsched := fun i hi hn => hs.schedule ((busy_iff s).2 ho) i hi (.inr ⟨by simp [hp], hn⟩)
    have hwr : ∀ i (_ : i < 8), i < (params s.alg).nh → fits s.width (Machine.round1 s).wr[i] := fun i hi hn =>
      width_of_sha1 ha ▸ round1_wr_fits s i hi (by simpa [ha, params] using hn)
    rw [Machine.round1_wr] at hwr
    exact afterRound_cellInv hp hs.hash_state hsched hwr
  | round2 ho hp =>
    have hsched := fun i hi hn => hs.schedule ((busy_iff s).2 ho) i hi (.inr ⟨by simp [hp], hn⟩)
    have hwr := round2_wr_fits s
    rw [Machine.round2_wr] at hwr
    exact afterRound_cellInv hp hs.hash_state hsched fun i hi _ => hwr i hi
  | feed ho hp =>
    constructor <;> rw [hwidth] <;> simp only [halg, feedForward_js, feedForward_ph, feedForward_ws, feedForward_wr]
    · exact fun _ => feedForward_h_fits s
    · exact fun _ i hi hphase => hs.schedule ((busy_iff s).2 ho) i hi (by simpa [hp] using hphase)
    · exact fun _ _ => hs.working ((busy_iff s).2 ho) (by simp [hp])
  | blockDone => exact cellInv_of_not_started (.inl rfl) hs.hash_state
  | secondBlock => exact cellInv_of_not_started (.inr rfl) (by simpa [State.HashFits, State.width] using hs.hash_state)
  | finalDone => exact cellInv_of_not_started (.inl rfl) (by simp)
  | deriveDone =>
    exact cellInv_of_not_started (.inl (deriveFinish_opk s))
      (by simpa [State.HashFits, State.width] using hs.hash_state)

/-! ## The step -/

theorem Transition.cellInv {s t : State} (h : Transition s t) (hj : s.JobInv) (hs : s.CellInv) : t.CellInv := by
  have host := hs.withHostSide s.rdata
  cases h with
  | reset => exact cellInv_of_not_started (.inl (hardReset_opk _)) (by simp)
  | engine _ t hmove => exact hmove.cellInv (hj.withHostSide s.rdata s.bus s.turns.tail) (host s.bus s.turns.tail)
  | answered _ rest x => exact hs.withHostSide x rest s.turns.tail
  | init _ hidle _ rest _ k =>
    exact opInit_cellInv (s := { s with bus := rest, turns := s.turns.tail }) ((not_busy_iff s).1 hidle) k
  | final _ hidle _ rest _ nb tb0 tb1 tb2 =>
    exact opFinal_cellInv (host rest s.turns.tail) ((not_busy_iff s).1 hidle) nb tb0 tb1 tb2
  | malformed _ hidle _ rest =>
    exact raiseError_cellInv (s := { s with bus := rest, turns := s.turns.tail }) ((not_busy_iff s).1 hidle) _
  | data _ hidle _ rest v => exact opData_cellInv (host rest s.turns.tail) ((not_busy_iff s).1 hidle) v

/-- Settles O50, by the transition that the step is: what each operation writes is a word of the job's width. -/
theorem stepKeepsCellsWithinTheWord : Obligations.StepKeepsCellsWithinTheWord :=
  fun _ _ hj hs hstep => (transition_of_step hstep).cellInv hj hs

end Sys2Proof.Machine
end

section
/-! The source's schedule and registers by their recurrences, and the 64-bit engine steps in terms of them (R87, R88, R95,
R96, R99). -/

namespace Sys2Proof.Machine

namespace Reference

/-! ## The schedule -/

theorem length_extend {w : Nat} (next : List (BitVec w) → Nat → BitVec w) (first : List (BitVec w)) (n : Nat) :
    (extend next first n).length = first.length + n := by
  induction n with
  | zero => rfl
  | succ n ih => rw [extend, List.length_append, ih]; rfl

/-- A longer schedule begins with the shorter one. -/
theorem getElem?_extend_of_le {w : Nat} (next : List (BitVec w) → Nat → BitVec w) (first : List (BitVec w)) {m n : Nat}
    (hmn : m ≤ n) {i : Nat} (hi : i < first.length + m) : (extend next first n)[i]? = (extend next first m)[i]? := by
  induction n, hmn using Nat.le_induction with
  | base => rfl
  | succ n hmn ih => rw [extend, List.getElem?_append_left (by rw [length_extend]; omega), ih]

/-- The word a schedule is extended by. -/
theorem getElem?_extend_last {w : Nat} (next : List (BitVec w) → Nat → BitVec w) (first : List (BitVec w)) (n : Nat)
    (hfirst : first.length = 16) :
    (extend next first (n + 1))[16 + n]? = some (next (extend next first n) (16 + n)) := by
  rw [extend, List.getElem?_append_right (by rw [length_extend, hfirst]), length_extend, hfirst]
  simp

theorem length_loadWords (W : Width) (block : List Byte) : (loadWords W block).length = 16 := by simp [loadWords]

theorem length_schedule2 (W : Width) {ns : Nat} (hns : 16 ≤ ns) (block : List Byte) :
    (schedule2 W ns block).length = ns := by
  rw [schedule2, length_extend, length_loadWords]
  omega

/-- The first 16 words of a schedule are the block's (R87). -/
theorem schedule2_load (W : Width) (ns : Nat) (block : List Byte) {i : Nat} (hi : i < 16) :
    (schedule2 W ns block)[i]? = some (beWord W fun k => block.getD (i * W.bytes + k) 0) := by
  rw [schedule2, getElem?_extend_of_le _ _ (Nat.zero_le _) (by rw [length_loadWords]; omega), extend]
  simp [loadWords, hi]

/-- The recurrence reads only the words 2, 7, 15 and 16 places back (R88). -/
theorem nextWord2_congr {W : Width} {u v : List (BitVec W.bits)} {t : Nat} (ht : 16 ≤ t)
    (h : ∀ i, i < t → u[i]? = v[i]?) : nextWord2 W u t = nextWord2 W v t := by
  simp only [nextWord2, List.getD_eq_getElem?_getD]
  rw [h (t - 2) (by omega), h (t - 7) (by omega), h (t - 15) (by omega), h (t - 16) (by omega)]

/-- Every later word of a schedule follows the recurrence (R88). -/
theorem schedule2_next (W : Width) (ns : Nat) (block : List Byte) {t : Nat} (hlo : 16 ≤ t) (hhi : t < ns) :
    (schedule2 W ns block)[t]? = some (nextWord2 W (schedule2 W ns block) t) := by
  obtain ⟨m, rfl⟩ := Nat.exists_eq_add_of_le hlo
  have hfirst := length_loadWords W block
  rw [schedule2, getElem?_extend_of_le (m := m + 1) _ _ (by omega) (by omega), getElem?_extend_last _ _ _ hfirst]
  refine congrArg some (nextWord2_congr hlo fun i hi => ?_)
  exact (getElem?_extend_of_le _ _ (by omega) (by omega)).symm

/-! ## The registers -/

/-- Eight words loaded into the registers are the registers' words (R95). -/
theorem words_load2 {W : Width} {h : List (BitVec W.bits)} (hlen : h.length = 8) : (load2 W h).words = h := by
  apply List.ext_getElem
  · simp [Regs2.words, hlen]
  · intro i h1 h2
    have : i < 8 := by omega
    interval_cases i <;> simp [Regs2.words, load2, h2]

theorem registersAfter_zero {W : Width} (ws : List (BitVec W.bits)) {h : List (BitVec W.bits)} (hlen : h.length = 8) :
    registersAfter W ws h 0 = h := words_load2 hlen

end Reference

/-! ## The engine's steps at 64 bits -/

@[simp] theorem readCell_w64 (c : Cell) : readCell .w64 c = c := BitVec.setWidth_eq c

@[simp] theorem writeCell_w64 (x : BitVec Width.w64.bits) : writeCell .w64 x = x := BitVec.setWidth_eq x

theorem word_w64 {n : Nat} (v : Vector Cell n) (i : Nat) (hi : i < n) : word .w64 v i = v[i] := by
  rw [word_of_lt .w64 v i hi, readCell_w64]

theorem getD_toList {α : Type} {n : Nat} (v : Vector α n) (i : Nat) (d : α) : v.toList.getD i d = v.getD i d := by
  simp [Vector.getD, Array.getD_eq_getD_getElem?, List.getD_eq_getElem?_getD]

/-- LOAD fills the first 16 schedule entries from the block in BUF (R87). -/
theorem schedLoad_ws_w64 {s : State} (hw : s.width = .w64) (ns : Nat) {i : Nat} (hi : i < 80) (h16 : i < 16) :
    (Reference.schedule2 .w64 ns s.buf.toList)[i]? = some (schedLoad s).ws[i] := by
  simp only [Reference.schedule2_load _ _ _ h16, getD_toList]
  rw [schedLoad_ws, hw]
  simp only [getElem_fill, Nat.zero_le, h16, and_self, if_true, writeCell_w64]

/-- EXPAND2 writes the next word of the schedule whose earlier words stand in WS (R88). -/
theorem schedStep2_ws_w64 {s : State} (hw : s.width = .w64) {ns : Nat} {block : List Byte} (hlo : 16 ≤ s.t.val)
    (hhi : s.t.val < ns)
    (hws : ∀ i (_ : i < 80), i < s.t.val → (Reference.schedule2 .w64 ns block)[i]? = some s.ws[i]) :
    ∀ i (_ : i < 80), i ≤ s.t.val → (Reference.schedule2 .w64 ns block)[i]? = some (schedStep2 s).ws[i] := by
  intro i hi hit
  have hword : ∀ k, k < s.t.val → (Reference.schedule2 .w64 ns block).getD k 0 = word .w64 s.ws k := by
    intro k hk
    rw [List.getD_eq_getElem?_getD, hws k (by omega) hk, word_w64 s.ws k (by omega), Option.getD_some]
  rw [schedStep2_ws, hw, Vector.getElem_set]
  split
  · next heq =>
    subst heq
    rw [Reference.schedule2_next _ _ _ hlo hhi, Reference.nextWord2, hword _ (by omega), hword _ (by omega),
      hword _ (by omega), hword _ (by omega), writeCell_w64]
  · exact hws i hi (by omega)

/-- WRLOAD copies the HashState (R95). -/
theorem wrLoad_wr_w64 {s : State} (hw : s.width = .w64) (hnh : (params s.alg).nh = 8) : (wrLoad s).wr = s.h := by
  rw [wrLoad_wr, hw, hnh]
  ext i hi
  simp [hi, word_w64]

/-- ROUND2 on the registers is the source's round (R96). -/
theorem round2_wr_w64 {s : State} (hw : s.width = .w64) {r : Reference.Regs2 64} (hr : s.wr.toList = r.words) :
    (round2 s).wr.toList = (Reference.roundStep2 .w64 s.t.val s.ws[s.t.val] r).words := by
  have hreg : ∀ i (_ : i < 8), some (word .w64 s.wr i) = r.words[i]? := by
    intro i hi
    rw [word_w64 s.wr i hi, ← hr]
    simp [hi]
  have ha : word .w64 s.wr 0 = r.a := Option.some.inj (hreg 0 (by decide))
  have hb : word .w64 s.wr 1 = r.b := Option.some.inj (hreg 1 (by decide))
  have hc : word .w64 s.wr 2 = r.c := Option.some.inj (hreg 2 (by decide))
  have hd : word .w64 s.wr 3 = r.d := Option.some.inj (hreg 3 (by decide))
  have he : word .w64 s.wr 4 = r.e := Option.some.inj (hreg 4 (by decide))
  have hf : word .w64 s.wr 5 = r.f := Option.some.inj (hreg 5 (by decide))
  have hg : word .w64 s.wr 6 = r.g := Option.some.inj (hreg 6 (by decide))
  have hh : word .w64 s.wr 7 = r.h := Option.some.inj (hreg 7 (by decide))
  simp only [round2, afterRound_wr]
  rw [hw]
  simp only [ha, hb, hc, hd, he, hf, hg, hh, word_w64 s.ws _ s.t.isLt, writeCell_w64]
  rfl

/-- FEED adds the registers to the HashState (R99). -/
theorem feedForward_h_w64 {s : State} (hw : s.width = .w64) (hnh : (params s.alg).nh = 8) :
    (feedForward s).h.toList = List.zipWith (· + ·) s.h.toList s.wr.toList := by
  rw [feedForward_h, hw, hnh]
  apply List.ext_getElem
  · simp
  · intro i h1 h2
    have hi : i < 8 := by simpa using h1
    simp [hi, word_w64]

end Sys2Proof.Machine
end

section
/-! Every step keeps a valid cache right, and a derivation on its way (O51). -/

namespace Sys2Proof.Machine

/-! ## The source's derived IV -/

/-- The parameters of the algorithms with a derived IV (R6, R108). -/
theorem params_of_deriving {a : BitVec 3} (ha : a = 5 ∨ a = 6) :
    (params a).width = .w64 ∧ (params a).ns = 80 ∧ (params a).rounds = 80 ∧ (params a).nh = 8 ∧ a ≠ 0 := by
  rcases ha with rfl | rfl <;> decide

/-- The label block in BUF is the source's padded label (R107). -/
theorem labelBlock_eq {a : BitVec 3} (ha : a = 5 ∨ a = 6) :
    Reference.labelBlock a = (List.range 128).map (labelBlockByte a) := by
  rcases ha with rfl | rfl <;> decide

/-- The seed of a derivation, as the HashState it starts from (R108). -/
abbrev seedState : List Cell := (List.range 8).map seedWord

/-- The schedule of a derivation (R108). -/
abbrev deriveSchedule (a : BitVec 3) : List Cell := Reference.schedule2 .w64 80 (Reference.labelBlock a)

/-- The derived IV is the feed-forward of the seed and the registers after 80 rounds (R99, R108). -/
theorem derivedIv_eq {a : BitVec 3} (ha : a = 5 ∨ a = 6) : Reference.derivedIv a =
    List.zipWith (· + ·) seedState (Reference.registersAfter .w64 (deriveSchedule a) seedState 80) := by
  obtain ⟨hw, hns, hr, -, h0⟩ := params_of_deriving ha
  simp only [Reference.derivedIv, Reference.compress, if_neg h0]
  rw [hw, hns, hr]
  simp only [List.map_id'' readCell_w64, List.map_id'' writeCell_w64, Reference.compress2,
    Reference.words_load2 (W := .w64) (h := seedState) rfl]

/-! ## The caches -/

theorem KeepsCaches.cachesRight {s t : State} (h : KeepsCaches s t) (hs : s.CachesRight) : t.CachesRight := by
  obtain ⟨h224, h256, hv224, hv256⟩ := h
  rwa [State.CachesRight, h224, h256, hv224, hv256]

theorem cacheInv_of_not_deriving {s : State} (ho : s.opk ≠ .derive) (hs : s.CachesRight) : s.CacheInv where
  caches := hs
  deriving_algorithm h := absurd h ho
  progress h := absurd h ho

/-- The end of a derivation fills its cache with the derived IV that H holds (R108). -/
theorem deriveFinish_cachesRight {s : State} (hs : s.CachesRight) (hh : s.h.toList = Reference.derivedIv s.alg) :
    (deriveFinish s).CachesRight := by
  by_cases h5 : s.alg = 5
  · rw [deriveFinish_224 s h5]
    exact ⟨fun _ => h5 ▸ hh, hs.2⟩
  · by_cases h6 : s.alg = 6
    · rw [deriveFinish_256 s h6]
      exact ⟨hs.1, fun _ => h6 ▸ hh⟩
    · rw [deriveFinish_other s h5 h6]
      exact hs

/-! ## The host's operations -/

theorem State.CacheInv.withHostSide {s : State} (hs : s.CacheInv) (rdata : BusWord) (bus : List BusAccess)
    (turns : List Turn) : State.CacheInv { s with rdata := rdata, bus := bus, turns := turns } where
  caches := hs.caches
  deriving_algorithm := hs.deriving_algorithm
  progress ho :=
    have hp := hs.progress ho
    { label := hp.label
      seed := hp.seed
      expanding := hp.expanding
      expanded := hp.expanded
      rounds := hp.rounds
      rounded := hp.rounded
      derived := hp.derived }

/-- A derivation starts from the padded label and the seed (R107, R108). -/
theorem deriveStart_progress {a : BitVec 3} (ha : a = 5 ∨ a = 6) (s : State) :
    (deriveStart a (newJob a s)).DeriveProgress := by
  constructor <;> simp only [deriveStart_ph, deriveStart_h, deriveStart_buf, deriveStart_alg, newJob_alg, reduceCtorEq,
    false_imp_iff, or_self]
  · exact fun _ => (toList_fill_all _ _).trans (labelBlock_eq ha).symm
  · exact fun _ => toList_fill_all _ _

theorem opInit_cacheInv (k : BitVec 3) {s : State} (hidle : s.opk = .none) (hs : s.CachesRight) :
    (opInit k s).CacheInv := by
  have hc := (opInit_keeps_results k s).2.cachesRight hs
  rcases opInit_cases k s with ⟨-, e⟩ | ⟨-, e⟩ | ⟨-, -, e⟩ | ⟨-, -, e⟩ | ⟨hk, e⟩ <;> rw [e] at hc ⊢
  · exact cacheInv_of_not_deriving (by simp [hidle]) hc
  · exact cacheInv_of_not_deriving (by simp [hidle]) hc
  · exact cacheInv_of_not_deriving (by simp [hidle]) hc
  · exact cacheInv_of_not_deriving (by simp [hidle]) hc
  · have ha : k = 5 ∨ k = 6 := hk.imp And.left And.left
    exact {
      caches := hc
      deriving_algorithm := fun _ => ha
      progress := fun _ => deriveStart_progress ha s }

theorem opData_opk_ne_derive (v : BusWord) {s : State} (hidle : s.opk = .none) : (opData v s).opk ≠ .derive := by
  rcases opData_cases v s with ⟨-, e⟩ | ⟨-, -, e⟩ | ⟨-, -, e⟩ <;> rw [e]
  · simp [hidle]
  · simp [hidle]
  · unfold startFullBlock
    split <;> simp [hidle]

theorem opFinal_opk_ne_derive (nb : BitVec 2) (tb0 tb1 tb2 : Byte) {s : State} (hidle : s.opk = .none) :
    (opFinal nb tb0 tb1 tb2 s).opk ≠ .derive := by
  rcases opFinal_cases nb tb0 tb1 tb2 s with ⟨-, e⟩ | ⟨-, -, e⟩ | ⟨-, -, e⟩ <;> simp [e, hidle]

/-! ## The engine's steps in a derivation -/

section Derivation

variable {s : State} (hp : s.DeriveProgress) (ha : s.alg = 5 ∨ s.alg = 6)

include hp ha

theorem schedLoad_progress (hph : s.ph = .load) : (schedLoad s).DeriveProgress := by
  obtain ⟨hw, -⟩ := params_of_deriving ha
  constructor <;> simp only [schedLoad_ph, schedLoad_h, schedLoad_alg, schedLoad_t, reduceCtorEq, false_imp_iff, or_self]
  · exact fun _ => hp.seed (by simp [hph])
  · refine fun _ => ⟨by simp, fun i hi h16 => ?_⟩
    rw [← hp.label hph]
    exact schedLoad_ws_w64 hw 80 hi (by simpa using h16)

theorem schedStep2_progress (hph : s.ph = .expand) : (schedStep2 s).DeriveProgress := by
  obtain ⟨hw, hns, -⟩ := params_of_deriving ha
  obtain ⟨hlo, hws⟩ := hp.expanding hph
  have hset := schedStep2_ws_w64 hw hlo s.t.isLt hws
  have hseed := hp.seed (by simp [hph])
  by_cases hlast : s.t.val = 80 - 1
  · have hnext : (schedStep2 s).ph = .wrload := by rw [schedStep2_ph, hns, if_pos hlast]
    constructor <;> simp only [hnext, schedStep2_h, schedStep2_alg, reduceCtorEq, false_imp_iff]
    · exact fun _ => hseed
    · intro _
      apply List.ext_getElem?
      intro i
      by_cases hi : i < 80
      · rw [hset i hi (by omega)]
        simp [hi]
      · rw [List.getElem?_eq_none (by simpa using hi),
          List.getElem?_eq_none (by rw [Reference.length_schedule2 _ (by decide)]; omega)]
  · have hnext : (schedStep2 s).ph = .expand := by rw [schedStep2_ph, hns, if_neg hlast, hph]
    have ht : (schedStep2 s).t.val = s.t.val + 1 := by rw [schedStep2_t, hns, if_neg hlast, t_succ s.t (by omega)]
    constructor <;> simp only [hnext, ht, schedStep2_h, schedStep2_alg, reduceCtorEq, false_imp_iff, or_self]
    · exact fun _ => hseed
    · exact fun _ => ⟨by omega, fun i hi hit => hset i hi (by omega)⟩

theorem wrLoad_progress (hph : s.ph = .wrload) : (wrLoad s).DeriveProgress := by
  obtain ⟨hw, -, -, hnh, -⟩ := params_of_deriving ha
  constructor <;> simp only [wrLoad_ph, wrLoad_h, wrLoad_alg, wrLoad_t, wrLoad_ws, wrLoad_wr_w64 hw hnh,
    reduceCtorEq, false_imp_iff]
  · exact fun _ => hp.seed (by simp [hph])
  · exact fun _ => hp.expanded (.inl hph)
  · exact fun _ => (Reference.registersAfter_zero (W := .w64) _ (by simp)).symm

theorem round2_progress (hph : s.ph = .round) : (round2 s).DeriveProgress := by
  obtain ⟨hw, -, hr, -, -⟩ := params_of_deriving ha
  have hws := hp.expanded (.inr hph)
  have hseed := hp.seed (by simp [hph])
  have hwr : (round2 s).wr.toList = Reference.registersAfter .w64 (deriveSchedule s.alg) s.h.toList (s.t.val + 1) := by
    rw [round2_wr_w64 hw (hp.rounds hph), ← getD_of_lt s.ws s.t.val s.t.isLt 0, ← getD_toList, hws]
    rfl
  by_cases hlast : s.t.val = 80 - 1
  · have hnext : (round2 s).ph = .feed := by rw [round2_ph, hr, if_pos hlast]
    constructor <;> simp only [hnext, round2_h, round2_alg, reduceCtorEq, false_imp_iff, or_self]
    · exact fun _ => hseed
    · exact fun _ => hwr.trans (by rw [hlast])
  · have hnext : (round2 s).ph = .round := by rw [round2_ph, hr, if_neg hlast, hph]
    have ht : (round2 s).t.val = s.t.val + 1 := by rw [round2_t, hr, if_neg hlast, t_succ s.t (by omega)]
    constructor <;> simp only [hnext, ht, round2_h, round2_ws, round2_alg, reduceCtorEq, false_imp_iff]
    · exact fun _ => hseed
    · exact fun _ => hws
    · exact fun _ => hwr

theorem feedForward_progress (hph : s.ph = .feed) : (feedForward s).DeriveProgress := by
  obtain ⟨hw, -, -, hnh, -⟩ := params_of_deriving ha
  constructor <;> simp only [feedForward_ph, feedForward_alg, reduceCtorEq, false_imp_iff, or_self, not_true, ne_eq]
  intro _
  rw [feedForward_h_w64 hw hnh, hp.rounded hph, hp.seed (by simp [hph]), derivedIv_eq ha]

end Derivation

/-! ## The step -/

/-- An engine step of a derivation (R100, R108). -/
theorem EngineMove.cacheInv_of_deriving {s t : State} (h : EngineMove s t) (hs : s.CacheInv) (ho : s.opk = .derive) :
    t.CacheInv := by
  have ha := hs.deriving_algorithm ho
  have hp := hs.progress ho
  have hc : ∀ {t}, KeepsCaches s t → t.CachesRight := fun hk => hk.cachesRight hs.caches
  obtain ⟨-, -, -, -, h0⟩ := params_of_deriving ha
  cases h with
  | idle => exact hs
  | load _ hph =>
    exact ⟨hc (by simp [KeepsCaches]), fun _ => by simpa using ha, fun _ => schedLoad_progress hp ha hph⟩
  | expand1 _ _ hz => exact absurd hz h0
  | expand2 _ hph =>
    exact ⟨hc (by simp [KeepsCaches]), fun _ => by simpa using ha, fun _ => schedStep2_progress hp ha hph⟩
  | wrload _ hph =>
    exact ⟨hc (by simp [KeepsCaches]), fun _ => by simpa using ha, fun _ => wrLoad_progress hp ha hph⟩
  | round1 _ _ hz => exact absurd hz h0
  | round2 _ hph =>
    exact ⟨hc (by simp [KeepsCaches]), fun _ => by simpa using ha, fun _ => round2_progress hp ha hph⟩
  | feed _ hph =>
    exact ⟨hc (by simp [KeepsCaches]), fun _ => by simpa using ha, fun _ => feedForward_progress hp ha hph⟩
  | blockDone hb => simp [ho] at hb
  | secondBlock hf => simp [ho] at hf
  | finalDone hf => simp [ho] at hf
  | deriveDone _ hph =>
    exact cacheInv_of_not_deriving (by simp) (deriveFinish_cachesRight hs.caches (hp.derived hph))

/-- An engine step outside a derivation starts none and writes no cache (R29, R100). -/
theorem EngineMove.cacheInv_of_not_deriving {s t : State} (h : EngineMove s t) (hs : s.CachesRight)
    (ho : s.opk ≠ .derive) : t.CacheInv := by
  cases h with
  | deriveDone hd => exact absurd hd ho
  | _ => exact Machine.cacheInv_of_not_deriving (by simp [ho]) (by simpa [State.CachesRight] using hs)

theorem EngineMove.cacheInv {s t : State} (h : EngineMove s t) (hs : s.CacheInv) : t.CacheInv := by
  by_cases ho : s.opk = .derive
  · exact h.cacheInv_of_deriving hs ho
  · exact h.cacheInv_of_not_deriving hs.caches ho

theorem Transition.cacheInv {s t : State} (h : Transition s t) (hs : s.CacheInv) : t.CacheInv := by
  have host := hs.withHostSide s.rdata
  cases h with
  | reset => exact cacheInv_of_not_deriving (by simp) (by simp [State.CachesRight])
  | engine _ t hmove => exact hmove.cacheInv (host s.bus s.turns.tail)
  | answered _ rest x => exact hs.withHostSide x rest s.turns.tail
  | init _ hidle _ rest _ k =>
    exact opInit_cacheInv k (s := { s with bus := rest, turns := s.turns.tail }) ((not_busy_iff s).1 hidle) hs.caches
  | final _ hidle =>
    exact cacheInv_of_not_deriving (opFinal_opk_ne_derive _ _ _ _ ((not_busy_iff s).1 hidle))
      ((opFinal_keeps_results _ _ _ _ _).2.cachesRight hs.caches)
  | malformed _ hidle =>
    have ho := (not_busy_iff s).1 hidle
    exact cacheInv_of_not_deriving (by simp [ho]) hs.caches
  | data _ hidle =>
    exact cacheInv_of_not_deriving (opData_opk_ne_derive _ ((not_busy_iff s).1 hidle))
      ((opData_keeps_results _ _).2.cachesRight hs.caches)

/-- Settles O51, by the transition that the step is: a derivation's step brings the engine to the source's next value, and
its last step copies the derived IV to the cache; nothing else writes a cache. -/
theorem stepKeepsTheCachesRight : Obligations.StepKeepsTheCachesRight :=
  fun _ _ hs hstep => (transition_of_step hstep).cacheInv hs

end Sys2Proof.Machine
end

section
/-! Which steps write the job state, the digest latch, the algorithm, the length and the valid bits (O52, O54, O55, O56). -/

namespace Sys2Proof.Machine

/-- Settles O52, by the transition that the step is. -/
theorem jobStateHasFourWriters : Obligations.JobStateHasFourWriters := by
  intro s t hstep hjs
  cases transition_of_step hstep with
  | reset ts hturn => exact .inl ⟨by simp [hturn], by simp⟩
  | engine _ t hmove =>
    rcases hmove.final_or_keeps with ⟨ho, hp, rfl⟩ | ⟨hkeep, -⟩
    · exact .inr (.inl ⟨ho, hp, by simp, by simp [not_busy_iff]⟩)
    · exact absurd hkeep hjs
  | answered => exact absurd rfl hjs
  | init _ hidle a rest v k hbus hdec hcmd =>
    refine .inr (.inr ⟨hidle, a, rest, v, hbus, .inl ⟨hdec, ?_⟩⟩)
    by_cases hk : k = 7
    · subst hk
      exact .inr rfl
    · obtain ⟨-, hactive, -⟩ := opInit_accepted hk { s with bus := rest, turns := s.turns.tail }
      exact .inl ⟨hactive, k, hcmd, hk⟩
  | final _ hidle a rest v nb tb0 tb1 tb2 hbus hdec =>
    obtain ⟨-, hcase, -⟩ := opFinal_job nb tb0 tb1 tb2 { s with bus := rest, turns := s.turns.tail }
    exact .inr (.inr ⟨hidle, a, rest, v, hbus, .inl ⟨hdec, .inr (hcase.resolve_left hjs)⟩⟩)
  | malformed _ hidle a rest v hbus hdec =>
    exact .inr (.inr ⟨hidle, a, rest, v, hbus, .inl ⟨hdec, .inr rfl⟩⟩)
  | data _ hidle a rest v hbus hdec =>
    obtain ⟨-, hcase, -⟩ := opData_job v { s with bus := rest, turns := s.turns.tail }
    exact .inr (.inr ⟨hidle, a, rest, v, hbus, .inr ⟨hdec, hcase.resolve_left hjs⟩⟩)

/-- Settles O54: no host access writes DIG, and of the engine's steps only the last one of FINAL does. -/
theorem digestIsWrittenOnlyByFinal : Obligations.DigestIsWrittenOnlyByFinal := by
  intro s t hstep hdig
  rcases (transition_of_step hstep).results with hreset | hmove | ⟨hkeep, -⟩
  · exact .inl hreset
  · rcases hmove.final_or_keeps with ⟨ho, hp, rfl⟩ | ⟨-, hkeep⟩
    · exact .inr ⟨ho, hp, by simp⟩
    · exact absurd hkeep hdig
  · exact absurd hkeep hdig

/-- Settles O55, by the transition that the step is: INIT, DATA and FINAL are the ones that write ALG or MSGLEN. -/
theorem onlyHostWritesChangeAlgAndMsglen : Obligations.OnlyHostWritesChangeAlgAndMsglen := by
  intro s t _ hstep hnoreset
  cases transition_of_step hstep with
  | reset ts hturn => exact absurd (by simp [hturn]) hnoreset
  | engine _ t hmove =>
    obtain ⟨halg, -, hlen, -⟩ := hmove.keeps_job
    exact ⟨absurd halg, absurd hlen⟩
  | answered => exact ⟨absurd rfl, absurd rfl⟩
  | init _ hidle a rest v k hbus hdec hcmd =>
    by_cases hk : k = 7
    · subst hk
      exact ⟨absurd rfl, absurd rfl⟩
    · obtain ⟨halg, -, -, hlen, -⟩ := opInit_accepted hk { s with bus := rest, turns := s.turns.tail }
      exact ⟨fun _ => ⟨a, rest, v, k, hbus, hdec, hcmd, hk, halg, hlen⟩,
        fun _ => ⟨hidle, a, rest, v, hbus, .inr ⟨hdec, .inl ⟨hlen, k, hcmd, hk⟩⟩⟩⟩
  | final _ hidle a rest v nb tb0 tb1 tb2 hbus hdec hcmd =>
    obtain ⟨halg, -, hlen⟩ := opFinal_job nb tb0 tb1 tb2 { s with bus := rest, turns := s.turns.tail }
    exact ⟨absurd halg, fun hne =>
      ⟨hidle, a, rest, v, hbus, .inr ⟨hdec, .inr ⟨nb, tb0, tb1, tb2, hcmd, hlen.resolve_left hne⟩⟩⟩⟩
  | malformed => exact ⟨absurd rfl, absurd rfl⟩
  | data _ hidle a rest v hbus hdec =>
    obtain ⟨halg, -, hlen⟩ := opData_job v { s with bus := rest, turns := s.turns.tail }
    exact ⟨absurd halg, fun hne => ⟨hidle, a, rest, v, hbus, .inl ⟨hdec, hlen.resolve_left hne⟩⟩⟩

/-- Settles O56: the last step of a derivation is the only one that writes a cache or its valid bit, and it runs only for an
invalid cache. -/
theorem validBitsAreSetByDerivationAndClearedByReset :
    Obligations.ValidBitsAreSetByDerivationAndClearedByReset := by
  intro s t hs hstep hnoreset
  have hcases : (s.opk = .derive ∧ s.ph = .next ∧ t = deriveFinish { s with turns := s.turns.tail }) ∨
      KeepsCaches s t := by
    rcases (transition_of_step hstep).results with hreset | hmove | ⟨-, hkeep⟩
    · exact absurd hreset hnoreset
    · exact hmove.derive_or_keeps
    · exact .inr hkeep
  rcases hcases with ⟨ho, hp, rfl⟩ | ⟨h224, h256, hv224, hv256⟩
  · rcases hs.derive_needed ho with ⟨ha, hinvalid⟩ | ⟨ha, hinvalid⟩
    · rw [deriveFinish_224 { s with turns := s.turns.tail } ha]
      simp [ho, hp, ha, hinvalid]
    · rw [deriveFinish_256 { s with turns := s.turns.tail } ha]
      simp [ho, hp, ha, hinvalid]
  · exact ⟨absurd hv224, absurd hv256, fun _ => h224, fun _ => h256⟩

end Sys2Proof.Machine
end

section
/-! The host's access as a step (O5), the STATUS word (O12), and the state after power-up (O48). -/

namespace Sys2Proof.Machine

/-- Settles O5, by the environment's choice: the host's turn takes the access, and so does the engine's while it is idle. -/
theorem stepRunsTheDecodedAccess : Obligations.StepRunsTheDecodedAccess := by
  intro s a rest i hbus hdec hfree
  have hheld : s.holds = false := holds_eq_false hbus hdec (hfree.imp And.left And.left)
  have host : ∀ ts, hostTurn { s with turns := ts } = exec i { s with bus := rest, turns := ts } := fun ts =>
    hostTurn_of_not_held (s := { s with turns := ts }) hbus hdec hheld
  unfold step transition
  cases hturns : s.turns with
  | nil =>
    have h : hostTurn s = exec i { s with bus := rest, turns := s.turns } := host s.turns
    rwa [hturns] at h
  | cons u ts =>
    cases u with
    | host => exact host ts
    | reset => simp [hturns] at hfree
    | engine =>
      have hidle : s.busy = false := by simpa [hturns] using hfree
      have hturn : engineTurn { s with turns := ts } = hostTurn { s with turns := ts } :=
        if_neg (by simpa [State.busy] using hidle)
      exact hturn.trans (host ts)

/-! ## STATUS -/

theorem params_dlen (a : BitVec 3) : (params a).dlen =
    match a.toNat with | 0 => 20 | 1 => 28 | 2 => 32 | 3 => 48 | 4 => 64 | 5 => 28 | 6 => 32 | _ => 0 := by
  revert a
  decide

theorem params_dlen_lt : ∀ a : BitVec 3, (params a).dlen < 2 ^ 7 := by decide

/-- STATUS as a number: its fields at their places (R24). -/
theorem toNat_status (s : State) : s.status.toNat =
    (params s.alg).dlen * 2 ^ 16 + s.divv256.toNat * 2 ^ 12 + s.divv224.toNat * 2 ^ 11 + s.alg.toNat * 2 ^ 8 +
      s.errcode.code.toNat * 2 ^ 4 + s.js.code.toNat * 2 + s.busy.toNat := by
  have := params_dlen_lt s.alg
  simp only [State.status, toNat_append_eq, BitVec.ofNat_eq_ofNat, BitVec.toNat_ofNat, BitVec.toNat_ofBool]
  omega

/-- The fields of STATUS, read off the word (R24). -/
theorem status_fields (s : State) :
    s.status.extractLsb' 0 1 = BitVec.ofBool s.busy ∧ s.status.extractLsb' 1 2 = s.js.code ∧
    s.status.extractLsb' 3 1 = 0 ∧ s.status.extractLsb' 4 4 = s.errcode.code ∧ s.status.extractLsb' 8 3 = s.alg ∧
    s.status.extractLsb' 11 1 = BitVec.ofBool s.divv224 ∧ s.status.extractLsb' 12 1 = BitVec.ofBool s.divv256 ∧
    s.status.extractLsb' 13 3 = 0 ∧ s.status.extractLsb' 16 7 = BitVec.ofNat 7 (params s.alg).dlen ∧
    s.status.extractLsb' 23 9 = 0 := by
  have hdlen := params_dlen_lt s.alg
  have hbusy := s.busy.toNat_lt
  have h224 := s.divv224.toNat_lt
  have h256 := s.divv256.toNat_lt
  refine ⟨?_, ?_, ?_, ?_, ?_, ?_, ?_, ?_, ?_, ?_⟩
  all_goals
    apply BitVec.eq_of_toNat_eq
    simp only [toNat_field, toNat_status, BitVec.ofNat_eq_ofNat, BitVec.toNat_ofNat, BitVec.toNat_ofBool]
    omega

/-- Settles O12: the fields of the STATUS word are those of the state, by their codes. -/
theorem statusReadReturnsTheFields : Obligations.StatusReadReturnsTheFields := by
  intro s
  obtain ⟨hbusy, hjs, hz3, herr, halg, h224, h256, hz13, hdlen, hz23⟩ := status_fields s
  refine ⟨s.status, rfl, ?_, ?_, hz3, ?_, halg, ?_, ?_, hz13, ?_, hz23⟩
  · rw [hbusy, State.busy]
    cases s.opk <;> rfl
  · rw [hjs]
    cases s.js <;> rfl
  · rw [herr]
    cases s.errcode <;> rfl
  · rw [h224]
    cases s.divv224 <;> rfl
  · rw [h256]
    cases s.divv256 <;> rfl
  · rw [hdlen, BitVec.toNat_ofNat, Nat.mod_eq_of_lt (params_dlen_lt s.alg)]
    exact params_dlen s.alg

/-! ## Power-up -/

/-- Settles O48: the state after power-up is idle, without a job and with no valid cache. -/
theorem powerUpStateMeetsTheInvariants : Obligations.PowerUpStateMeetsTheInvariants := by
  refine ⟨?_, cellInv_of_not_started (.inl rfl) (by simp [State.reset]),
    cacheInv_of_not_deriving (by simp [State.reset]) ?_⟩
  · apply jobInv_of_idle <;> simp [State.reset]
  · simp [State.CachesRight, State.reset]

end Sys2Proof.Machine
end

section
/-! The register window (20_memory.md): what each offset decodes to, which agent a step moves, and which accesses a step
refuses or holds (O7, O8, O15, O16). -/

namespace Sys2Proof.Machine

/-! ## The registers by their offsets (R34 to R37) -/

/-- What a read of an aligned offset is (R34, R37). -/
def readAt (off : BitVec 7) : Instr :=
  if off.toNat = 0x04 then .rdStatus
  else if off.toNat = 0x0C then .rdMsglenLo
  else if off.toNat = 0x10 then .rdMsglenHi
  else if 0x40 ≤ off.toNat then .rdDigest (off.extractLsb' 2 4)
  else .rdZero off

/-- What a write of `v` to an aligned offset is (R34, R36). -/
def writeAt (off : BitVec 7) (v : BusWord) : Instr :=
  if off.toNat = 0x00 then .wrCmd v
  else if off.toNat = 0x08 then .wrData v
  else .wrIgnored off v

/-- The bus rows read an aligned descriptor of a read as the map does (R56, R57). -/
theorem decodeBus_read {off : BitVec 7} (h : off.toNat % 4 = 0) (v : BusWord) :
    decodeBus (descriptor false off) v = some (readAt off) := by
  have rows : ∀ off : BitVec 7, off.toNat % 4 = 0 →
      (rowWrCmd.hits (descriptor false off) = false) ∧ (rowWrData.hits (descriptor false off) = false) ∧
      (rowRdStatus.hits (descriptor false off) = decide (off.toNat = 0x04)) ∧
      (rowRdMsglenLo.hits (descriptor false off) = decide (off.toNat = 0x0C)) ∧
      (rowRdMsglenHi.hits (descriptor false off) = decide (off.toNat = 0x10)) ∧
      (rowRdDigest.hits (descriptor false off) = decide (0x40 ≤ off.toNat)) ∧
      (rowWrIgnored.hits (descriptor false off) = false) ∧ (rowRdZero.hits (descriptor false off) = true) ∧
      (descriptor false off).extractLsb' 2 4 = off.extractLsb' 2 4 ∧
      (descriptor false off).extractLsb' 0 7 = off := by decide
  obtain ⟨hcmd, hdata, hstatus, hlo, hhi, hdigest, hignored, hzero, hindex, hoff⟩ := rows off h
  simp only [decodeBus, readAt, hcmd, hdata, hstatus, hlo, hhi, hdigest, hignored, hzero, hindex, hoff,
    Bool.false_eq_true, if_false, if_true, decide_eq_true_eq]
  repeat' split
  all_goals rfl

/-- The bus rows read an aligned descriptor of a write as the map does (R56, R57). -/
theorem decodeBus_write {off : BitVec 7} (h : off.toNat % 4 = 0) (v : BusWord) :
    decodeBus (descriptor true off) v = some (writeAt off v) := by
  have rows : ∀ off : BitVec 7, off.toNat % 4 = 0 →
      (rowWrCmd.hits (descriptor true off) = decide (off.toNat = 0x00)) ∧
      (rowWrData.hits (descriptor true off) = decide (off.toNat = 0x08)) ∧
      (rowRdStatus.hits (descriptor true off) = false) ∧ (rowRdMsglenLo.hits (descriptor true off) = false) ∧
      (rowRdMsglenHi.hits (descriptor true off) = false) ∧ (rowRdDigest.hits (descriptor true off) = false) ∧
      (rowWrIgnored.hits (descriptor true off) = true) ∧ (descriptor true off).extractLsb' 0 7 = off := by decide
  obtain ⟨hcmd, hdata, hstatus, hlo, hhi, hdigest, hignored, hoff⟩ := rows off h
  simp only [decodeBus, writeAt, hcmd, hdata, hstatus, hlo, hhi, hdigest, hignored, hoff,
    Bool.false_eq_true, if_false, if_true, decide_eq_true_eq]
  repeat' split
  all_goals rfl

theorem readAt_wf : ∀ off : BitVec 7, off.toNat % 4 = 0 → (readAt off).wf = true := by decide

theorem writeAt_wf {off : BitVec 7} (h : off.toNat % 4 = 0) (v : BusWord) : (writeAt off v).wf = true := by
  have key : ∀ off : BitVec 7, off.toNat % 4 = 0 → off.toNat ≠ 0x00 → off.toNat ≠ 0x08 →
      (alignedOffset off && ignoresWrites off) = true := by decide
  unfold writeAt
  split
  · rfl
  split
  · rfl
  · next hcmd hdata => exact key off h hcmd hdata

/-- Every aligned descriptor is one of the operations (R35). -/
theorem decodeBus_aligned (we : Bool) {off : BitVec 7} (h : off.toNat % 4 = 0) (v : BusWord) :
    ∃ i, decodeBus (descriptor we off) v = some i ∧ i.wf = true := by
  cases we with
  | false => exact ⟨_, decodeBus_read h v, readAt_wf off h⟩
  | true => exact ⟨_, decodeBus_write h v, writeAt_wf h v⟩

/-! ## Accesses by their addresses (R34, R35) -/

/-- The 32-bit access at an offset of the window is what its descriptor is. -/
theorem decodeAccess_at_offset (base : Nat) {we : Bool} {off : BitVec 7} {v : BusWord} {i : Instr}
    (h : decodeBus (descriptor we off) v = some i) : decodeAccess base ⟨base + off.toNat, 4, we, v⟩ = .ok i := by
  have hlt := off.isLt
  rw [decodeAccess_in_window base _ rfl (Nat.le_add_right _ _) (Nat.add_le_add_left (by omega) _)]
  simp [h]

theorem decodeAccess_of_not_word {base : Nat} {a : BusAccess} (h : a.bytes ≠ 4) :
    decodeAccess base a = .error .notWordWide := if_pos h

section Window

variable {base : Nat} {a : BusAccess} (hbytes : a.bytes = 4) (hlo : base ≤ a.addr) (hhi : a.addr ≤ base + 0x7F)

include hbytes hlo hhi

theorem decodeAccess_of_misaligned (h : (a.addr - base) % 4 ≠ 0) : decodeAccess base a = .error .misaligned := by
  have hoff : (BitVec.ofNat 7 (a.addr - base)).toNat % 4 ≠ 0 := by
    rw [BitVec.toNat_ofNat]
    omega
  rw [decodeAccess_in_window base a hbytes hlo hhi, decodeBus_misaligned a.we _ hoff]

theorem decodeAccess_of_aligned (h : (a.addr - base) % 4 = 0) :
    ∃ i, decodeAccess base a = .ok i ∧ i.wf = true := by
  have hoff : (BitVec.ofNat 7 (a.addr - base)).toNat % 4 = 0 := by
    rw [BitVec.toNat_ofNat]
    omega
  obtain ⟨i, hi, hwf⟩ := decodeBus_aligned a.we hoff a.v
  exact ⟨i, by rw [decodeAccess_in_window base a hbytes hlo hhi, hi], hwf⟩

end Window

/-- An access is no operation only for one of the three reasons. -/
theorem decodeAccess_error {base : Nat} {a : BusAccess} {e : Reject} (h : decodeAccess base a = .error e) :
    e = .notWordWide ∧ a.bytes ≠ 4 ∨ e = .outsideWindow ∧ (a.addr < base ∨ base + 0x7F < a.addr) ∨
      e = .misaligned ∧ (a.addr - base) % 4 ≠ 0 := by
  by_cases hbytes : a.bytes = 4
  · by_cases hout : a.addr < base ∨ base + 0x7F < a.addr
    · have houtside : decodeAccess base a = .error .outsideWindow :=
        (if_neg (not_not.2 hbytes)).trans (if_pos hout)
      cases houtside.symm.trans h
      exact .inr (.inl ⟨rfl, hout⟩)
    · have hlo : base ≤ a.addr := by omega
      have hhi : a.addr ≤ base + 0x7F := by omega
      by_cases halign : (a.addr - base) % 4 = 0
      · obtain ⟨i, hi, -⟩ := decodeAccess_of_aligned hbytes hlo hhi halign
        cases hi.symm.trans h
      · cases (decodeAccess_of_misaligned hbytes hlo hhi halign).symm.trans h
        exact .inr (.inr ⟨rfl, halign⟩)
  · cases (decodeAccess_of_not_word hbytes).symm.trans h
    exact .inl ⟨rfl, hbytes⟩

/-! ## The agent a step moves (R13, R116) -/

/-- A step is a reset, a step of the busy engine on its turn, or the host's turn; the environment's choice, if it made one,
is used up. -/
theorem step_by_agent (s : State) :
    (s.turns.head? = some .reset ∧ step s = .next (hardReset { s with turns := s.turns.tail })) ∨
    (s.turns.head? = some .engine ∧ s.busy = true ∧ step s = .next (engineStep { s with turns := s.turns.tail })) ∨
    (s.turns.head? ≠ some .reset ∧ (s.turns.head? = some .engine → s.busy = false) ∧
      step s = hostTurn { s with turns := s.turns.tail }) := by
  obtain ⟨turns, hturns⟩ : ∃ turns, s.turns = turns := ⟨_, rfl⟩
  have hstep : step s = transition { s with turns := turns } := by rw [← hturns]; rfl
  rw [hstep, hturns]
  cases turns with
  | nil => exact .inr (.inr ⟨by simp, by simp, rfl⟩)
  | cons u ts =>
    cases u with
    | reset => exact .inl ⟨rfl, rfl⟩
    | host => exact .inr (.inr ⟨by simp, by simp, rfl⟩)
    | engine =>
      cases hbusy : s.busy with
      | true => exact .inr (.inl ⟨rfl, rfl, if_pos hbusy⟩)
      | false => exact .inr (.inr ⟨by simp, fun _ => rfl, if_neg (Bool.eq_false_iff.1 hbusy)⟩)

/-- When it is the host's turn: the environment chose it, or made no choice, or the engine is idle and no reset comes. -/
theorem step_eq_hostTurn {s : State}
    (h : s.turns = [] ∨ s.turns.head? = some .host ∨ s.busy = false ∧ s.turns.head? ≠ some .reset) :
    step s = hostTurn { s with turns := s.turns.tail } := by
  rcases step_by_agent s with ⟨hreset, -⟩ | ⟨hengine, hbusy, -⟩ | ⟨-, -, hstep⟩
  · rcases h with h | h | ⟨-, h⟩
    · simp [h] at hreset
    · simp [hreset] at h
    · exact absurd hreset h
  · rcases h with h | h | ⟨h, -⟩
    · simp [h] at hengine
    · simp [hengine] at h
    · simp [hbusy] at h
  · exact hstep

/-- While the host waits the engine steps, whichever agent's turn it is (R116). -/
theorem step_of_waiting {s : State} (hturn : s.turns.head? ≠ some .reset) (h : s.bus = [] ∨ s.holds = true) :
    step s = .next (engineStep { s with turns := s.turns.tail }) := by
  rcases step_by_agent s with ⟨hreset, -⟩ | ⟨-, -, hstep⟩ | ⟨-, -, hstep⟩
  · exact absurd hreset hturn
  · exact hstep
  · exact hstep.trans (hostTurn_of_waiting h)

/-- No engine step touches the host's side (R13). -/
theorem EngineMove.keeps_host {s t : State} (h : EngineMove s t) :
    t.bus = s.bus ∧ t.turns = s.turns ∧ t.rdata = s.rdata := by
  cases h <;> simp

@[simp] theorem engineStep_bus (s : State) : (engineStep s).bus = s.bus := (engineMove_engineStep s).keeps_host.1

/-- The host's turn refuses only an access that is no operation (R35). -/
theorem hostTurn_refused {s : State} {r : Refusal} (h : hostTurn s = .refused r) :
    ∃ a rest e, s.bus = a :: rest ∧ decodeAccess s.cfg.base a = .error e ∧ r = refusalOf e := by
  by_cases hwait : s.bus = [] ∨ s.holds = true
  · rw [hostTurn_of_waiting hwait] at h
    cases h
  obtain ⟨hbus, hheld⟩ := not_or.1 hwait
  obtain ⟨a, rest, hcons⟩ := List.exists_cons_of_ne_nil hbus
  cases hd : decodeAccess s.cfg.base a with
  | error e =>
    rw [hostTurn_of_error hcons hd] at h
    cases h
    exact ⟨a, rest, e, hcons, hd, rfl⟩
  | ok i =>
    obtain ⟨t, ht, -⟩ := exec_cases i { s with bus := rest }
    rw [hostTurn_of_not_held hcons hd (Bool.eq_false_iff.2 hheld), ht] at h
    cases h

/-! ## The obligations -/

/-- Settles O7: on the host's turn the access is refused as the decoder rejects it, and an aligned one is an operation
that takes effect unless it is held. -/
theorem onlyAlignedWordAccessesHaveMeaning : Obligations.OnlyAlignedWordAccessesHaveMeaning := by
  intro s a rest hbus hturn
  have hstep := step_eq_hostTurn hturn
  have refused : ∀ {e}, decodeAccess s.cfg.base a = .error e → step s = .refused (refusalOf e) := fun hd =>
    hstep.trans (hostTurn_of_error (s := { s with turns := s.turns.tail }) hbus hd)
  refine ⟨fun hbytes => refused (decodeAccess_of_not_word hbytes), fun hbytes hlo hhi =>
    ⟨fun h => refused (decodeAccess_of_misaligned hbytes hlo hhi h), fun h => ?_⟩⟩
  obtain ⟨i, hd, hwf⟩ := decodeAccess_of_aligned hbytes hlo hhi h
  refine ⟨i, hd, hwf, fun hfree => ?_⟩
  obtain ⟨t, ht, -⟩ := exec_cases i { s with bus := rest, turns := s.turns.tail }
  have hrun := hostTurn_of_not_held (s := { s with turns := s.turns.tail }) hbus hd (holds_eq_false hbus hd hfree)
  exact ⟨t, ht, hstep.trans (hrun.trans ht)⟩

/-- Settles O8: only the host's turn refuses, and there only an access that is no operation. -/
theorem stepRefusesOnlyMeaninglessAccesses : Obligations.StepRefusesOnlyMeaninglessAccesses := by
  intro s r h
  rcases step_by_agent s with ⟨-, hstep⟩ | ⟨-, -, hstep⟩ | ⟨hreset, hidle, hstep⟩ <;> rw [hstep] at h
  · cases h
  · cases h
  obtain ⟨a, rest, e, hbus, hd, rfl⟩ := hostTurn_refused h
  refine ⟨hreset, hidle, a, rest, hbus, ?_⟩
  rcases decodeAccess_error hd with ⟨rfl, hbytes⟩ | ⟨rfl, hout⟩ | ⟨rfl, halign⟩
  · exact .inl ⟨rfl, hbytes⟩
  · exact .inr (.inl ⟨rfl, hout⟩)
  · exact .inr (.inr ⟨rfl, halign⟩)

/-- Settles O15: the offset is aligned and none of the readable registers'. -/
theorem writeOnlyAndReservedOffsetsReadZero : Obligations.WriteOnlyAndReservedOffsetsReadZero := by
  intro off v h
  simp only [← BitVec.toNat_inj, BitVec.reduceToNat] at h
  have hread : readAt off = .rdZero off := by
    rw [readAt, if_neg (by omega), if_neg (by omega), if_neg (by omega), if_neg (by omega)]
  exact ⟨hread ▸ decodeBus_read (by omega) v, fun _ => rfl⟩

/-- Settles O16: the offset is aligned and neither CMD's nor DATA's, and an ignored write is held like any other
operation. -/
theorem writesToReadOnlyOffsetsAreIgnored : Obligations.WritesToReadOnlyOffsetsAreIgnored := by
  intro off v h
  simp only [← BitVec.toNat_inj, BitVec.reduceToNat] at h
  have hwrite : writeAt off v = .wrIgnored off v := by
    rw [writeAt, if_neg (by omega), if_neg (by omega)]
  have hdec : decodeBus (descriptor true off) v = some (.wrIgnored off v) := hwrite ▸ decodeBus_write (by omega) v
  refine ⟨hdec, fun _ => rfl, fun s hturn hbusy rest hbus => ⟨step_of_waiting hturn (.inr ?_), engineStep_bus _⟩⟩
  exact holds_eq_true hbus (decodeAccess_at_offset s.cfg.base hdec) hbusy (by simp)

end Sys2Proof.Machine
end

section
/-! The encoding (30_encoding.md): the decision procedure (O2), what an encoding decodes to and a decoding encodes to
(O3, O4), the table's words and the steps that run them (O1, O6), and the bytes of a DIGEST read (O14). -/

namespace Sys2Proof.Machine

/-! ## The decision procedure of a command word (R57) -/

/-- The three opcodes of commands, and the reserved ones (R52). -/
theorem opcode_cases (v : BusWord) : opcodeOf v = 0 ∨ opcodeOf v = 1 ∨ opcodeOf v = 2 ∨
    opcodeOf v ≠ 0 ∧ opcodeOf v ≠ 1 ∧ opcodeOf v ≠ 2 := by
  tauto

theorem ne_zero_of_opcode {v : BusWord} (h : opcodeOf v ≠ 0) : v ≠ 0 := by
  rintro rfl
  exact h rfl

/-- The cmd rows in the table's order, each by the fields it tests. -/
theorem decodeCmd_eq (v : BusWord) : decodeCmd v =
    if v = 0 then .nop
    else if opcodeOf v = 1 ∧ v.extractLsb' 7 25 = 0 then .init (v.extractLsb' 4 3)
    else if opcodeOf v = 2 ∧ v.extractLsb' 6 2 = 0 then
      .final (v.extractLsb' 4 2) (v.extractLsb' 24 8) (v.extractLsb' 16 8) (v.extractLsb' 8 8)
    else if opcodeOf v = 0 then .badBitsNop v
    else if opcodeOf v = 1 then .badBitsInit v
    else if opcodeOf v = 2 then .badBitsFinal v
    else .cmdRsvd v := by
  simp only [decodeCmd, selectCmd, rowNop_hit, rowInit_hit, rowFinal_hit, rowBadBitsNop_hit, rowBadBitsInit_hit,
    rowBadBitsFinal_hit, decide_eq_true_eq]
  rfl

theorem decodeCmd_of_opcode_zero {v : BusWord} (h : opcodeOf v = 0) :
    decodeCmd v = if v = 0 then .nop else .badBitsNop v := by
  simp [decodeCmd_eq, h]

theorem decodeCmd_of_opcode_one {v : BusWord} (h : opcodeOf v = 1) :
    decodeCmd v = if v.extractLsb' 7 25 = 0 then .init (v.extractLsb' 4 3) else .badBitsInit v := by
  rw [decodeCmd_eq, if_neg (ne_zero_of_opcode (by simp [h]))]
  simp [h]

theorem decodeCmd_of_opcode_two {v : BusWord} (h : opcodeOf v = 2) :
    decodeCmd v = if v.extractLsb' 6 2 = 0 then
      .final (v.extractLsb' 4 2) (v.extractLsb' 24 8) (v.extractLsb' 16 8) (v.extractLsb' 8 8)
    else .badBitsFinal v := by
  rw [decodeCmd_eq, if_neg (ne_zero_of_opcode (by simp [h]))]
  simp [h]

theorem decodeCmd_of_opcode_reserved {v : BusWord} (h : opcodeOf v ≠ 0 ∧ opcodeOf v ≠ 1 ∧ opcodeOf v ≠ 2) :
    decodeCmd v = .cmdRsvd v := by
  obtain ⟨h0, h1, h2⟩ := h
  rw [decodeCmd_eq, if_neg (ne_zero_of_opcode h0), if_neg (h1 ·.1), if_neg (h2 ·.1), if_neg h0, if_neg h1, if_neg h2]

/-! ## The malformed command words (R58) -/

/-- With opcode 0 every other bit is reserved, so that the only word without a reserved bit set is NOP's. -/
theorem badBitsNop_wf_iff (v : BusWord) : (Instr.badBitsNop v).wf = true ↔ opcodeOf v = 0 ∧ v ≠ 0 := by
  have hzero : opcodeOf v = 0 → (v.extractLsb' 4 28 = 0 ↔ v = 0) := by
    simp only [opcodeOf, ← BitVec.toNat_inj, toNat_field, BitVec.ofNat_eq_ofNat, BitVec.toNat_ofNat]
    omega
  simp only [Instr.wf, Bool.and_eq_true, beq_iff_eq, bne_iff_ne]
  exact and_congr_right fun h => (hzero h).not

theorem badBitsInit_wf_iff (v : BusWord) :
    (Instr.badBitsInit v).wf = true ↔ opcodeOf v = 1 ∧ v.extractLsb' 7 25 ≠ 0 := by
  simp only [Instr.wf, Bool.and_eq_true, beq_iff_eq, bne_iff_ne]

theorem badBitsFinal_wf_iff (v : BusWord) :
    (Instr.badBitsFinal v).wf = true ↔ opcodeOf v = 2 ∧ v.extractLsb' 6 2 ≠ 0 := by
  simp only [Instr.wf, Bool.and_eq_true, beq_iff_eq, bne_iff_ne]

theorem cmdRsvd_wf_iff (v : BusWord) :
    (Instr.cmdRsvd v).wf = true ↔ opcodeOf v ≠ 0 ∧ opcodeOf v ≠ 1 ∧ opcodeOf v ≠ 2 := by
  simp only [Instr.wf, decide_eq_true_iff, ne_eq, ← BitVec.toNat_inj, BitVec.reduceToNat]
  omega

/-! ## The fields of a descriptor (R51) -/

theorem descriptor_of_fields : ∀ td : BitVec 8,
    descriptor (td.extractLsb' 7 1 == 1) (td.extractLsb' 0 7) = td := by decide

theorem descriptor_direction : ∀ (we : Bool) (off : BitVec 7),
    (descriptor we off).extractLsb' 7 1 = BitVec.ofBool we := by decide

theorem descriptor_aligned : ∀ td : BitVec 8, (td.extractLsb' 0 7).toNat % 4 = 0 ↔ td.extractLsb' 0 2 = 0 := by decide

/-- TD[1:0] ≠ 00 matches no row (R57). -/
theorem decodeBus_of_low_bits {td : BitVec 8} (h : td.extractLsb' 0 2 ≠ 0) (v : BusWord) : decodeBus td v = none := by
  rw [← descriptor_of_fields td]
  exact decodeBus_misaligned _ _ (mt (descriptor_aligned td).1 h) v

/-- Settles O2: each opcode has its branch of the procedure, and each bus row selects by its mask what R56 lists. -/
theorem decodingFollowsTheProcedure : Obligations.DecodingFollowsTheProcedure := by
  constructor
  · intro v
    split
    · next hnop => exact decodeCmd_of_opcode_zero hnop
    next hnop =>
    split
    · next hinit => exact decodeCmd_of_opcode_one hinit
    next hinit =>
    split
    · next hfinal => exact decodeCmd_of_opcode_two hfinal
    next hfinal => exact decodeCmd_of_opcode_reserved ⟨hnop, hinit, hfinal⟩
  · intro td v
    by_cases halign : td.extractLsb' 0 2 = 0
    · obtain ⟨hcmd, hdata, hstatus, hlo, hhi, hdigest, hignored, hzero⟩ := bus_rows_hit td
      rw [if_neg (not_not.2 halign)]
      simp only [decodeBus, hcmd, hdata, hstatus, hlo, hhi, hdigest, hignored, hzero, halign, true_and,
        decide_eq_true_eq]
      repeat' split
      all_goals rfl
    · rw [if_pos halign]
      exact decodeBus_of_low_bits halign v

/-! ## Decoding an encoding -/

/-- INIT's word reads as INIT of the code it carries (R52). -/
theorem decodeCmd_init_word : ∀ a : BitVec 3, decodeCmd ((0 : BitVec 25) ++ a ++ (1 : BitVec 4)) = .init a := by decide

/-- FINAL's word reads as FINAL of the count and the tail bytes it carries (R53, R55). -/
theorem decodeCmd_final_word (nb : BitVec 2) (tb0 tb1 tb2 : Byte) :
    decodeCmd (tb0 ++ tb1 ++ tb2 ++ (0 : BitVec 2) ++ nb ++ (2 : BitVec 4)) = .final nb tb0 tb1 tb2 := by
  have hnb := nb.isLt
  have h0 := tb0.isLt
  have h1 := tb1.isLt
  have h2 := tb2.isLt
  refine (decodeCmd_of_opcode_two ?_).trans ((if_pos ?_).trans ?_)
  on_goal 3 => congr 1
  all_goals
    simp only [opcodeOf, ← BitVec.toNat_inj, toNat_field, toNat_append_eq]
    omega

/-- Settles O3: a bus operation's encoding is the descriptor of its register, whose offset is aligned, and a command's is
the word whose opcode and reserved bits select its row. -/
theorem decodeInvertsEncode : Obligations.DecodeInvertsEncode := by
  intro i hwf
  cases i with
  | wrCmd v => exact decodeBus_write (off := 0x00) rfl v
  | wrData v => exact decodeBus_write (off := 0x08) rfl v
  | rdStatus => exact decodeBus_read (off := 0x04) rfl 0
  | rdMsglenLo => exact decodeBus_read (off := 0x0C) rfl 0
  | rdMsglenHi => exact decodeBus_read (off := 0x10) rfl 0
  | rdDigest n =>
    have hoff : ∀ n : BitVec 4, ((1 : BitVec 1) ++ n ++ (0 : BitVec 2)).toNat % 4 = 0 ∧
        readAt ((1 : BitVec 1) ++ n ++ (0 : BitVec 2)) = .rdDigest n := by decide
    obtain ⟨halign, hread⟩ := hoff n
    exact (decodeBus_read halign 0).trans (congrArg some hread)
  | wrIgnored off v =>
    have hoff : ∀ off : BitVec 7, (alignedOffset off && ignoresWrites off) = true →
        off.toNat % 4 = 0 ∧ off.toNat ≠ 0x00 ∧ off.toNat ≠ 0x08 := by decide
    obtain ⟨halign, hcmd, hdata⟩ := hoff off hwf
    have hwrite : writeAt off v = .wrIgnored off v := (if_neg hcmd).trans (if_neg hdata)
    exact (decodeBus_write halign v).trans (congrArg some hwrite)
  | rdZero off =>
    have hoff : ∀ off : BitVec 7, (alignedOffset off && readsZero off) = true →
        off.toNat % 4 = 0 ∧ readAt off = .rdZero off := by decide
    obtain ⟨halign, hread⟩ := hoff off hwf
    exact (decodeBus_read halign 0).trans (congrArg some hread)
  | nop => exact congrArg some (decodeCmd_of_opcode_zero rfl)
  | init a => exact congrArg some (decodeCmd_init_word a)
  | final nb tb0 tb1 tb2 => exact congrArg some (decodeCmd_final_word nb tb0 tb1 tb2)
  | badBitsNop v =>
    obtain ⟨hop, hbits⟩ := (badBitsNop_wf_iff v).1 hwf
    exact congrArg some ((decodeCmd_of_opcode_zero hop).trans (if_neg hbits))
  | badBitsInit v =>
    obtain ⟨hop, hbits⟩ := (badBitsInit_wf_iff v).1 hwf
    exact congrArg some ((decodeCmd_of_opcode_one hop).trans (if_neg hbits))
  | badBitsFinal v =>
    obtain ⟨hop, hbits⟩ := (badBitsFinal_wf_iff v).1 hwf
    exact congrArg some ((decodeCmd_of_opcode_two hop).trans (if_neg hbits))
  | cmdRsvd v => exact congrArg some (decodeCmd_of_opcode_reserved ((cmdRsvd_wf_iff v).1 hwf))

/-! ## Encoding a decoding -/

theorem decodeCmd_wf (v : BusWord) : (decodeCmd v).wf = true := by
  rcases opcode_cases v with h | h | h | h
  · rw [decodeCmd_of_opcode_zero h]
    split
    · rfl
    · next hbits => exact (badBitsNop_wf_iff v).2 ⟨h, hbits⟩
  · rw [decodeCmd_of_opcode_one h]
    split
    · rfl
    · next hbits => exact (badBitsInit_wf_iff v).2 ⟨h, hbits⟩
  · rw [decodeCmd_of_opcode_two h]
    split
    · rfl
    · next hbits => exact (badBitsFinal_wf_iff v).2 ⟨h, hbits⟩
  · rw [decodeCmd_of_opcode_reserved h]
    exact (cmdRsvd_wf_iff v).2 h

/-- The encoding puts the opcode and the fields back where the word has them, and the reserved bits are 0 in both; a
malformed command carries its word whole. -/
theorem encode_decodeCmd (v : BusWord) : encode (decodeCmd v) = .cmd v := by
  rcases opcode_cases v with h | h | h | h
  · rw [decodeCmd_of_opcode_zero h]
    split
    · next hzero => exact congrArg Transfer.cmd hzero.symm
    · rfl
  · rw [decodeCmd_of_opcode_one h]
    split
    · next hbits =>
      refine congrArg Transfer.cmd ?_
      simp only [opcodeOf, ← BitVec.toNat_inj, toNat_field, toNat_append_eq, BitVec.ofNat_eq_ofNat, BitVec.toNat_ofNat]
        at h hbits ⊢
      omega
    · rfl
  · rw [decodeCmd_of_opcode_two h]
    split
    · next hbits =>
      refine congrArg Transfer.cmd ?_
      simp only [opcodeOf, ← BitVec.toNat_inj, toNat_field, toNat_append_eq, BitVec.ofNat_eq_ofNat, BitVec.toNat_ofNat]
        at h hbits ⊢
      omega
    · rfl
  · rw [decodeCmd_of_opcode_reserved h]
    rfl

theorem encode_readAt : ∀ off : BitVec 7, off.toNat % 4 = 0 → encode (readAt off) = .bus (descriptor false off) 0 := by
  decide

theorem encode_writeAt (off : BitVec 7) (v : BusWord) : encode (writeAt off v) = .bus (descriptor true off) v := by
  unfold writeAt
  split
  · next h => rw [BitVec.eq_of_toNat_eq (y := 0x00) h]; rfl
  split
  · next h => rw [BitVec.eq_of_toNat_eq (y := 0x08) h]; rfl
  · rfl

/-- Settles O4: a command word by its opcode, a transaction by its direction and its aligned offset. -/
theorem encodeInvertsDecode : Obligations.EncodeInvertsDecode := by
  refine ⟨fun v => ⟨decodeCmd_wf v, encode_decodeCmd v⟩, fun td v i hdec => ?_⟩
  obtain ⟨we, off, rfl⟩ : ∃ we off, descriptor we off = td := ⟨_, _, descriptor_of_fields td⟩
  rw [descriptor_direction]
  by_cases halign : off.toNat % 4 = 0
  · cases we with
    | false =>
      cases (decodeBus_read halign v).symm.trans hdec
      exact ⟨readAt_wf off halign, by simp, fun _ => encode_readAt off halign⟩
    | true =>
      cases (decodeBus_write halign v).symm.trans hdec
      exact ⟨writeAt_wf halign v, fun _ => encode_writeAt off v, by simp⟩
  · cases (decodeBus_misaligned we off halign v).symm.trans hdec

/-! ## Table words (R51, R52, R56) -/

/-- A table word whose transfer encodes a well-formed operation stands for it. -/
theorem decodeTableWord_of_encode {nbits w : Nat} {i : Instr} (hw : transferOfWord nbits w = encode i)
    (hwf : i.wf = true) : decodeTableWord nbits w = some i := by
  rw [decodeTableWord, hw]
  exact decodeInvertsEncode i hwf

/-- Settles O1: each word is the encoding of its operation, and the last one's descriptor is misaligned. -/
theorem tableWordsDecodeAsWritten : Obligations.TableWordsDecodeAsWritten := by
  refine ⟨?_, ?_, ?_, ?_, ?_, ?_, ?_, ?_, ?_, ?_, ?_, ?_, ?_, ?_, ?_, ?_,
    decodeBus_of_low_bits (td := 0x05) (by decide) 0⟩
  all_goals exact decodeTableWord_of_encode rfl rfl

/-- No command word reads as a bus operation, since its encoding is a command word. -/
theorem decodeCmd_ne_rdStatus (v : BusWord) : decodeCmd v ≠ .rdStatus := by
  intro h
  cases (congrArg encode h).symm.trans (encode_decodeCmd v)

/-- The access that carries a transfer is an operation that does what the transfer stands for: a command word is carried
by a write to CMD, which runs it (R118). -/
theorem decodeAccess_accessOf (base : Nat) {tr : Transfer} {i : Instr} (h : decode tr = some i) :
    ∃ j, decodeAccess base (accessOf base tr) = .ok j ∧ (i = .rdStatus → j = .rdStatus) ∧ exec j = exec i := by
  cases tr with
  | bus td v => exact ⟨i, decodeAccess_of_bus base td v i h, id, rfl⟩
  | cmd v =>
    cases h
    exact ⟨.wrCmd v, decodeAccess_of_cmd base v, (absurd · (decodeCmd_ne_rdStatus v)),
      funext (exec_wrCmd_eq_exec_decodeCmd v)⟩

/-- Settles O6: the access is at the head of `bus`, it is the host's turn, and using up both gives the state back. -/
theorem fetchWordRunsItsInstruction : Obligations.FetchWordRunsItsInstruction := by
  intro s nbits w i hdec hfree
  obtain ⟨j, hj, hstatus, hexec⟩ := decodeAccess_accessOf s.cfg.base hdec
  have hturn : (s.withFetchWord nbits w).turns.head? = some .host := rfl
  rw [← hexec]
  exact stepRunsTheDecodedAccess (s.withFetchWord nbits w) _ s.bus j rfl hj
    (hfree.imp (⟨·, by simp [hturn]⟩) (⟨hstatus ·, .inr hturn⟩))

/-! ## The bytes of a DIGEST read (R54) -/

theorem bytes_of_append (b0 b1 b2 b3 : Byte) :
    (b0 ++ b1 ++ b2 ++ b3).extractLsb' 24 8 = b0 ∧ (b0 ++ b1 ++ b2 ++ b3).extractLsb' 16 8 = b1 ∧
    (b0 ++ b1 ++ b2 ++ b3).extractLsb' 8 8 = b2 ∧ (b0 ++ b1 ++ b2 ++ b3).extractLsb' 0 8 = b3 := by
  have h0 := b0.isLt
  have h1 := b1.isLt
  have h2 := b2.isLt
  have h3 := b3.isLt
  refine ⟨?_, ?_, ?_, ?_⟩
  all_goals
    simp only [← BitVec.toNat_inj, toNat_field, toNat_append_eq]
    omega

/-- Settles O14: the read's value is the four bytes of the latch side by side. -/
theorem digestReadReturnsFourBytes : Obligations.DigestReadReturnsFourBytes := by
  intro s i
  simp only [getD_toList]
  exact ⟨digestWord s.dig i, rfl, bytes_of_append _ _ _ _⟩

end Sys2Proof.Machine
end

section
/-! The word datapath (40_primitives.md): the wired amounts (O27), the rotations and shifts with those amounts (O26) and the
sigma functions made of them (O28), and the bitwise functions (O29). -/

namespace Sys2Proof.Machine

/-! ## The wired amounts (R79) -/

theorem wiredAmount_inRange :
    ∀ W : Width, ∀ n ∈ rotrAmounts W.bits ++ shrAmounts W.bits ++ rotlAmounts W.bits, 0 < n ∧ n < W.bits
  | .w32 => by decide
  | .w64 => by decide

theorem rotrAmount_lt {W : Width} {n : Nat} (h : n ∈ rotrAmounts W.bits) : n < W.bits :=
  (wiredAmount_inRange W n (List.mem_append_left _ (List.mem_append_left _ h))).2

/-- Settles O27: at each width the amounts of ROTR and SHR are R79's list in another order. -/
theorem wiredAmountsAreInRange : Obligations.WiredAmountsAreInRange := by
  have h32 : (rotrAmounts 32 ++ shrAmounts 32).Perm [2, 13, 22, 6, 11, 25, 7, 18, 3, 17, 19, 10] := by decide
  have h64 : (rotrAmounts 64 ++ shrAmounts 64).Perm [28, 34, 39, 14, 18, 41, 1, 8, 7, 19, 61, 6] := by decide
  exact ⟨fun _ => h32.mem_iff, fun _ => h64.mem_iff, fun _ => Iff.rfl, wiredAmount_inRange⟩

/-! ## Rotations and shifts (R68 to R78) -/

/-- The low `w - n` bits come from the right shift and the high `n` bits, which wrapped round, from the left shift. -/
theorem getLsbD_ushiftRight_or_shiftLeft {w n i : Nat} (x : BitVec w) (hn : n ≤ w) (hi : i < w) :
    (x >>> n ||| x <<< (w - n)).getLsbD i = x.getLsbD ((i + n) % w) := by
  rw [BitVec.getLsbD_or, BitVec.getLsbD_ushiftRight, BitVec.getLsbD_shiftLeft, Nat.add_comm n i]
  by_cases hwrap : i < w - n
  · rw [Nat.mod_eq_of_lt (by omega)]
    simp [hwrap]
  · have hmod : (i + n) % w = i - (w - n) := by
      rw [Nat.mod_eq_sub_mod (by omega), Nat.mod_eq_of_lt (by omega)]
      omega
    rw [hmod, BitVec.getLsbD_of_ge x (i + n) (by omega)]
    simp [hwrap, hi]

/-- Settles O26: a left rotation by `n` is the two shifts of a right rotation by `W - n`, and a right shift's bits past the
word are 0. -/
theorem rotationsAndShiftsMoveBits : Obligations.RotationsAndShiftsMoveBits := by
  refine ⟨fun W x n h i hi => ?_, fun W x n h i hi => ?_, fun W x n h i _ => ?_⟩
  · exact getLsbD_ushiftRight_or_shiftLeft x (rotrAmount_lt h).le hi
  · have hn : n < W.bits := (wiredAmount_inRange W n (List.mem_append_right _ h)).2
    have hback : W.bits - (W.bits - n) = n := by omega
    have hrot := getLsbD_ushiftRight_or_shiftLeft x (Nat.sub_le W.bits n) hi
    rwa [hback, BitVec.or_comm] at hrot
  · rw [shr, BitVec.getLsbD_ushiftRight, Nat.add_comm n i]
    by_cases hin : i + n < W.bits
    · simp [hin]
    · simp [hin, BitVec.getLsbD_of_ge x (i + n) (by omega)]

theorem rotr_eq_rotateRight (W : Width) (x : BitVec W.bits) (n : Nat) (h : n ∈ rotrAmounts W.bits) :
    rotr x n h = x.rotateRight n := by
  rw [rotr, BitVec.rotateRight_def, Nat.mod_eq_of_lt (rotrAmount_lt h)]

/-- Settles O28: each sigma function joins wired rotations, which are the library's, and library shifts. -/
theorem sigmaFunctionsAreTheirRotations : Obligations.SigmaFunctionsAreTheirRotations := by
  have h32 := rotr_eq_rotateRight .w32
  have h64 := rotr_eq_rotateRight .w64
  refine ⟨fun x => ?_, fun x => ?_⟩
  · simp only [ucSigma0, ucSigma1, lcSigma0, lcSigma1, h32, shr, BitVec.ushiftRight_eq, and_self]
  · simp only [ucSigma0, ucSigma1, lcSigma0, lcSigma1, h64, shr, BitVec.ushiftRight_eq, and_self]

/-! ## The bitwise functions (R65 to R67) -/

theorem xor_and_eq_ite : ∀ a b c : Bool, ((a && b) ^^ (!a && c)) = if a then b else c := by decide

theorem xor_and_eq_majority :
    ∀ a b c : Bool, ((a && b) ^^ (a && c) ^^ (b && c)) = decide (2 ≤ a.toNat + b.toNat + c.toNat) := by decide

theorem xor_eq_odd : ∀ a b c : Bool, (a ^^ b ^^ c) = decide ((a.toNat + b.toNat + c.toNat) % 2 = 1) := by decide

/-- Settles O29: bit `i` of each function is its formula on the three bits `i`, and the formula's truth table is the rule's. -/
theorem bitwiseFunctionsSelectBits : Obligations.BitwiseFunctionsSelectBits := by
  intro W x y z i hi
  refine ⟨?_, ?_, ?_⟩
  · simp only [ch, BitVec.getLsbD_xor, BitVec.getLsbD_and, BitVec.getLsbD_not, hi, decide_true, Bool.true_and]
    exact xor_and_eq_ite _ _ _
  · simp only [maj, BitVec.getLsbD_xor, BitVec.getLsbD_and]
    exact xor_and_eq_majority _ _ _
  · simp only [parity, BitVec.getLsbD_xor]
    exact xor_eq_odd _ _ _

end Sys2Proof.Machine
end

section
/-! Padding (41_padding.md): the number of zero bytes, the length of a padded message, and its length field read back
(O43). -/

namespace Sys2Proof.Machine.Reference

/-! ## The length field as a number (R10) -/

/-- The last byte of an encoding is the number's least significant one, and the bytes before it encode the rest. -/
theorem be_succ (n v : Nat) : be (n + 1) v = be n (v / 256) ++ [BitVec.ofNat 8 v] := by
  have hlow : beByte (n + 1) v n = BitVec.ofNat 8 v := by simp [beByte_eq_div]
  have hhigh : ∀ i ∈ List.range n, beByte (n + 1) v i = beByte n (v / 256) i := by
    intro i hi
    have hexp : n + 1 - 1 - i = n - 1 - i + 1 := by
      have := List.mem_range.1 hi
      omega
    rw [beByte_eq_div, beByte_eq_div, hexp, Nat.pow_succ', Nat.div_div_eq_div_mul]
  rw [be, List.range_succ, List.map_append, List.map_congr_left hhigh, be]
  simp [hlow]

/-- Reading `n` big-endian bytes gives the number back, mod 2^(8n). -/
theorem foldl_be (n v : Nat) : (be n v).foldl (fun acc b => acc * 256 + b.toNat) 0 = v % 256 ^ n := by
  induction n generalizing v with
  | zero => simp [be, Nat.mod_one]
  | succ n ih =>
    rw [be_succ, List.foldl_append, ih, Nat.pow_succ', Nat.mod_mul]
    simp
    omega

theorem length_be (n v : Nat) : (be n v).length = n := by simp [be]

/-! ## The parts of a padded message (R80) -/

theorem length_pad (m : List Byte) (B F : Nat) : (pad m B F).length = m.length + 1 + zeroCount m.length B F + F := by
  simp [pad, length_be]
  omega

theorem take_pad (m : List Byte) (B F : Nat) : (pad m B F).take m.length = m := by
  simp [pad]

theorem getD_pad (m : List Byte) (B F : Nat) : (pad m B F).getD m.length 0 = 0x80 := by
  simp [pad]

theorem drop_pad (m : List Byte) (B F : Nat) :
    (pad m B F).drop ((pad m B F).length - F) = be F (8 * m.length) := by
  rw [length_pad, pad]
  apply List.drop_left'
  simp
  omega

/-- The zero bytes are fewer than a block, and leave room for the length field alone in the last one (R80). -/
theorem zeroCount_spec (len : Nat) {B F : Nat} (hsize : B = 64 ∧ F = 8 ∨ B = 128 ∧ F = 16) :
    zeroCount len B F < B ∧ (len + 1 + zeroCount len B F) % B = B - F := by
  have hexists : ∃ z < B, (len + 1 + z) % B = (B - F) % B := by
    rcases hsize with ⟨rfl, rfl⟩ | ⟨rfl, rfl⟩
    · exact ⟨(119 - len % 64) % 64, by omega, by omega⟩
    · exact ⟨(239 - len % 128) % 128, by omega, by omega⟩
  obtain ⟨z, hz⟩ : ∃ z, (List.range B).find? (fun z => (len + 1 + z) % B == (B - F) % B) = some z := by
    rw [← Option.isSome_iff_exists, List.find?_isSome]
    obtain ⟨z, hlt, hz⟩ := hexists
    exact ⟨z, List.mem_range.2 hlt, beq_iff_eq.2 hz⟩
  have hlt := List.mem_range.1 (List.mem_of_find?_eq_some hz)
  have hmod : (len + 1 + z) % B = (B - F) % B := by simpa using List.find?_some hz
  rw [zeroCount, hz, Option.getD_some]
  exact ⟨hlt, hmod.trans (Nat.mod_eq_of_lt (by omega))⟩

end Sys2Proof.Machine.Reference

namespace Sys2Proof.Machine

/-- Settles O43: fewer than B zero bytes, after which the length field fills the last block, make the padded length the
only multiple of B among the B numbers from L + F + 1 on. -/
theorem paddingFillsWholeBlocks : Obligations.PaddingFillsWholeBlocks := by
  intro m B F hsize
  have hlen := Reference.length_pad m B F
  obtain ⟨hlt, hmod⟩ := Reference.zeroCount_spec m.length hsize
  have hcount : (Reference.pad m B F).length = B * ((m.length + F) / B + 1) := by
    rcases hsize with ⟨rfl, rfl⟩ | ⟨rfl, rfl⟩ <;> omega
  refine ⟨hcount, ?_, by omega, fun k hk hle => ?_, Reference.take_pad m B F, Reference.getD_pad m B F, fun hmax => ?_⟩
  · rw [hcount, Nat.mul_mod_right]
  · rcases hsize with ⟨rfl, rfl⟩ | ⟨rfl, rfl⟩ <;> omega
  · rw [Reference.drop_pad, Reference.foldl_be, Nat.mod_eq_of_lt hmax]

end Sys2Proof.Machine
end

section
/-! The source's functions in terms of the cells that the engine holds (R16): the schedule, the working registers, the
compression of a block and the serialization, for SHA-1 and SHA-2 alike. -/

namespace Sys2Proof.Machine

/-! ## Filled arrays as lists -/

theorem toList_take {α : Type} {n : Nat} (v : Vector α n) {k : Nat} (hk : k ≤ n) (d : α) :
    v.toList.take k = (List.range k).map fun i => v.getD i d := by
  apply List.ext_getElem
  · simp [hk]
  · intro i h1 h2
    have hi : i < k := by simpa using h2
    simp [getD_of_lt v i (by omega)]

/-- An array whose first k elements are filled. -/
theorem toList_fill_range {α : Type} {n : Nat} (v : Vector α n) {k : Nat} (hk : k ≤ n) (f : Nat → α) :
    (fill v 0 k f).toList = (List.range k).map f ++ v.toList.drop k := by
  rw [← toList_fill_prefix v k ((List.range k).map f) (f 0) (by simp) hk]
  congr 1
  ext i hi
  simp only [getElem_fill]
  split
  · next hik => simp [hik.2]
  · rfl

theorem take_toList_fill {α : Type} {n : Nat} (v : Vector α n) {k : Nat} (hk : k ≤ n) (f : Nat → α) :
    (fill v 0 k f).toList.take k = (List.range k).map f := by
  rw [toList_fill_range v hk, List.take_left' (by simp)]

/-- An array whose first a elements are filled, and then those from a to b. -/
theorem take_toList_fill_fill {α : Type} {n : Nat} (v : Vector α n) {a b : Nat} (hab : a ≤ b) (hb : b ≤ n)
    (f g : Nat → α) : (fill (fill v 0 a f) a b g).toList.take b =
      (List.range a).map f ++ (List.range (b - a)).map fun i => g (a + i) := by
  have hone : fill (fill v 0 a f) a b g = fill v 0 b fun i => if i < a then f i else g i := by
    ext i hi
    by_cases hi : i < a
    · simp [hi, Nat.not_le.2 hi, hi.trans_le hab]
    · simp [hi, Nat.not_lt.1 hi]
  obtain ⟨c, rfl⟩ := Nat.exists_eq_add_of_le hab
  rw [hone, take_toList_fill v hb, List.range_add, List.map_append, List.map_map, Nat.add_sub_cancel_left]
  congr 1
  · exact List.map_congr_left fun i hi => if_pos (List.mem_range.1 hi)
  · exact List.map_congr_left fun i _ => if_neg (by simp)

/-! ## The parameters of the two families (R6) -/

theorem params_sha2_nh : ∀ a : BitVec 3, a ≠ 0 → (params a).nh = 8 := by decide

/-- Each round has its schedule entry. -/
theorem params_rounds_eq_ns : ∀ a : BitVec 3, (params a).rounds = (params a).ns := by decide

theorem params_blockBytes : ∀ a : BitVec 3, (params a).blockBytes = 16 * (params a).width.bytes := by decide

theorem params_dlen_le : ∀ a : BitVec 3,
    (params a).dlen ≤ (params a).nh * (params a).width.bytes ∧ (params a).dlen ≤ 64 := by decide

/-! ## Words and the cells that hold them (R16) -/

/-- A list of words whose cells are known, read word by word. -/
theorem getD_of_map_writeCell {W : Width} {l : List (BitVec W.bits)} {i : Nat} {c : Cell}
    (h : (l.map (writeCell W))[i]? = some c) : l.getD i 0 = readCell W c := by
  obtain ⟨x, hx, rfl⟩ := Option.map_eq_some_iff.1 (List.getElem?_map.symm.trans h)
  rw [List.getD_eq_getElem?_getD, hx, readCell_writeCell, Option.getD_some]

/-- BEword_W reads only W / 8 bytes (R10). -/
theorem beWord_congr {W : Width} {f g : Nat → Byte} (h : ∀ k, k < W.bytes → f k = g k) : beWord W f = beWord W g := by
  have hfold := List.foldl_ext (fun acc k => acc * 256 + (f k).toNat) (fun acc k => acc * 256 + (g k).toNat) 0
    (l := List.range W.bytes) fun acc k hk => by rw [h k (List.mem_range.1 hk)]
  rw [beWord, hfold, beWord]

/-! ## What the engine's state holds of the source's lists (R14, R27) -/

theorem hashState_eq (s : State) : s.hashState = (List.range (params s.alg).nh).map fun i => s.h.getD i 0 := by
  obtain ⟨-, -, -, -, hnh, -⟩ := params_counts s.alg
  exact toList_take s.h hnh 0

theorem length_hashState (s : State) : s.hashState.length = (params s.alg).nh := by
  rw [hashState_eq, List.length_map, List.length_range]

theorem getD_block (s : State) {j : Nat} (hj : j < (params s.alg).blockBytes) : s.block.getD j 0 = s.buf.getD j 0 := by
  rw [State.block, List.getD_eq_getElem?_getD, List.getElem?_take, if_pos hj, ← List.getD_eq_getElem?_getD, getD_toList]

namespace Reference

/-! ## The schedule -/

theorem schedule1_load (block : List Byte) {i : Nat} (hi : i < 16) :
    (schedule1 block)[i]? = some (beWord .w32 fun k => block.getD (i * Width.w32.bytes + k) 0) := by
  rw [schedule1, getElem?_extend_of_le _ _ (Nat.zero_le _) (by rw [length_loadWords]; omega), extend]
  simp [loadWords, hi]

/-- The SHA-1 recurrence reads only the words 3, 8, 14 and 16 places back (R89). -/
theorem nextWord1_congr {u v : List (BitVec 32)} {t : Nat} (ht : 16 ≤ t) (h : ∀ i, i < t → u[i]? = v[i]?) :
    nextWord1 u t = nextWord1 v t := by
  simp only [nextWord1, List.getD_eq_getElem?_getD]
  rw [h (t - 3) (by omega), h (t - 8) (by omega), h (t - 14) (by omega), h (t - 16) (by omega)]

/-- Every later word of a SHA-1 schedule follows the recurrence (R89). -/
theorem schedule1_next (block : List Byte) {t : Nat} (hlo : 16 ≤ t) (hhi : t < 80) :
    (schedule1 block)[t]? = some (nextWord1 (schedule1 block) t) := by
  obtain ⟨m, rfl⟩ := Nat.exists_eq_add_of_le hlo
  have hfirst := length_loadWords .w32 block
  rw [schedule1, getElem?_extend_of_le (m := m + 1) _ _ (by omega) (by omega), getElem?_extend_last _ _ _ hfirst]
  refine congrArg some (nextWord1_congr hlo fun i hi => ?_)
  exact (getElem?_extend_of_le _ _ (by omega) (by omega)).symm

/-- The schedule of a block as WS holds it (R26, R87 to R89). -/
def scheduleCells (alg : BitVec 3) (block : List Byte) : List Cell :=
  if alg = 0 then (schedule1 block).map (writeCell .w32)
  else (schedule2 (params alg).width (params alg).ns block).map (writeCell (params alg).width)

theorem scheduleCells_sha1 (block : List Byte) : scheduleCells 0 block = (schedule1 block).map (writeCell .w32) := rfl

theorem scheduleCells_sha2 {alg : BitVec 3} (ha : alg ≠ 0) (block : List Byte) : scheduleCells alg block =
    (schedule2 (params alg).width (params alg).ns block).map (writeCell (params alg).width) := if_neg ha

theorem scheduleCells_load (alg : BitVec 3) (block : List Byte) {i : Nat} (hi : i < 16) :
    (scheduleCells alg block)[i]? = some (writeCell (params alg).width
      (beWord (params alg).width fun k => block.getD (i * (params alg).width.bytes + k) 0)) := by
  by_cases ha : alg = 0
  · subst ha
    rw [scheduleCells_sha1, List.getElem?_map, schedule1_load block hi]
    rfl
  · rw [scheduleCells_sha2 ha, List.getElem?_map, schedule2_load _ _ block hi]
    rfl

/-! ## The registers -/

/-- The working registers a to e of a SHA-1 block loaded from HashState `h` (R95). -/
def load1 (h : List (BitVec 32)) : Regs1 := ⟨h.getD 0 0, h.getD 1 0, h.getD 2 0, h.getD 3 0, h.getD 4 0⟩

/-- The five registers in their order. -/
def Regs1.words (r : Regs1) : List (BitVec 32) := [r.a, r.b, r.c, r.d, r.e]

theorem words_load1 {h : List (BitVec 32)} (hlen : h.length = 5) : (load1 h).words = h := by
  apply List.ext_getElem
  · simp [Regs1.words, hlen]
  · intro i h1 h2
    have : i < 5 := by omega
    interval_cases i <;> simp [Regs1.words, load1, h2]

/-- The working registers after `n` rounds over a block, from HashState `h`, as WR holds them (R15, R95 to R98). -/
def registerCells (alg : BitVec 3) (h : List Cell) (block : List Byte) (n : Nat) : List Cell :=
  let W := (params alg).width
  if alg = 0 then (rounds1 (schedule1 block) (load1 (h.map (readCell .w32))) n).words.map (writeCell .w32)
  else (registersAfter W (schedule2 W (params alg).ns block) (h.map (readCell W)) n).map (writeCell W)

theorem registerCells_sha1 (h : List Cell) (block : List Byte) (n : Nat) : registerCells 0 h block n =
    (rounds1 (schedule1 block) (load1 (h.map (readCell .w32))) n).words.map (writeCell .w32) := rfl

theorem registerCells_sha2 {alg : BitVec 3} (ha : alg ≠ 0) (h : List Cell) (block : List Byte) (n : Nat) :
    registerCells alg h block n =
      (registersAfter (params alg).width (schedule2 (params alg).width (params alg).ns block)
        (h.map (readCell (params alg).width)) n).map (writeCell (params alg).width) := if_neg ha

theorem length_registerCells (alg : BitVec 3) (h : List Cell) (block : List Byte) (n : Nat) :
    (registerCells alg h block n).length = (params alg).nh := by
  by_cases ha : alg = 0
  · subst ha
    rfl
  · rw [registerCells_sha2 ha, params_sha2_nh alg ha]
    rfl

/-- Before the first round the registers are the words of the HashState (R95). -/
theorem registerCells_zero (alg : BitVec 3) {h : List Cell} (hlen : h.length = (params alg).nh) (block : List Byte) :
    registerCells alg h block 0 = h.map fun c => writeCell (params alg).width (readCell (params alg).width c) := by
  by_cases ha : alg = 0
  · subst ha
    rw [registerCells_sha1, rounds1, words_load1 ((List.length_map _).trans hlen), List.map_map]
    rfl
  · rw [registerCells_sha2 ha, registersAfter_zero _ (by rw [List.length_map, hlen, params_sha2_nh alg ha]),
      List.map_map]
    rfl

/-! ## The compression of a block -/

/-- FEED on one cell: the sum of two words mod 2^W (R99). -/
def addCells (W : Width) (a b : Cell) : Cell := writeCell W (readCell W a + readCell W b)

/-- Words added in lists are their cells added. -/
theorem map_zipWith_add {W : Width} (h : List Cell) (l : List (BitVec W.bits)) :
    (List.zipWith (· + ·) (h.map (readCell W)) l).map (writeCell W) =
      List.zipWith (addCells W) h (l.map (writeCell W)) := by
  rw [List.map_zipWith, List.zipWith_map_left, List.zipWith_map_right]
  simp only [addCells, readCell_writeCell]

theorem compress1_eq {h : List (BitVec 32)} (hlen : h.length = 5) (block : List Byte) :
    compress1 h block = List.zipWith (· + ·) h (rounds1 (schedule1 block) (load1 h) 80).words := by
  have hload : compress1 h block =
    List.zipWith (· + ·) (load1 h).words (rounds1 (schedule1 block) (load1 h) 80).words := rfl
  rw [hload, words_load1 hlen]

/-- The compression of a block is the feed-forward of the HashState and the registers after the last round (R99). -/
theorem compress_eq (alg : BitVec 3) {h : List Cell} (hlen : h.length = (params alg).nh) (block : List Byte) :
    compress alg h block =
      List.zipWith (addCells (params alg).width) h (registerCells alg h block (params alg).rounds) := by
  by_cases ha : alg = 0
  · subst ha
    have hsum := compress1_eq (h := h.map (readCell .w32)) ((List.length_map _).trans hlen) block
    exact (congrArg (List.map (writeCell .w32)) hsum).trans (map_zipWith_add (W := .w32) h _)
  · have hlen8 : (h.map (readCell (params alg).width)).length = 8 := by
      rw [List.length_map, hlen, params_sha2_nh alg ha]
    rw [registerCells_sha2 ha, ← map_zipWith_add, compress, if_neg ha, compress2, words_load2 hlen8]

theorem length_compress (alg : BitVec 3) {h : List Cell} (hlen : h.length = (params alg).nh) (block : List Byte) :
    (compress alg h block).length = (params alg).nh := by
  rw [compress_eq alg hlen, List.length_zipWith, length_registerCells, hlen, Nat.min_self]

/-! ## The serialization -/

/-- Numbers encoded in n bytes each, one after the other, byte by byte (R10). -/
theorem flatMap_be (n k : Nat) (g : Nat → Nat) : (List.range k).flatMap (fun j => be n (g j)) =
    (List.range (k * n)).map fun i => beByte n (g (i / n)) (i % n) := by
  induction k with
  | zero => simp
  | succ k ih =>
    have hlast : be n (g k) = (List.range n).map fun i => beByte n (g ((k * n + i) / n)) ((k * n + i) % n) := by
      refine List.map_congr_left fun i hi => ?_
      have hi := List.mem_range.1 hi
      rw [Nat.mul_comm k n, Nat.mul_add_div (by omega), Nat.mul_add_mod, Nat.div_eq_of_lt hi, Nat.mod_eq_of_lt hi,
        Nat.add_zero]
    rw [List.range_succ, List.flatMap_append, ih, Nat.succ_mul, List.range_add, List.map_append, List.map_map,
      List.flatMap_singleton, hlast]
    rfl

/-- The serialization of the HashState is its bytes in their order (R111). -/
theorem serial_hashState (s : State) : serial s.alg s.hashState =
    (List.range ((params s.alg).nh * (params s.alg).width.bytes)).map (serialByte s) := by
  rw [hashState_eq, serial, List.flatMap_map]
  exact flatMap_be _ _ _

end Reference

end Sys2Proof.Machine
end

section
/-! The engine's run over a block, at every width: it replaces the HashState by the source's compression of it and the
block (R87 to R100). -/

namespace Sys2Proof.Machine

/-! ## The schedule -/

/-- The first `n` entries of the schedule RAM are those of the block's schedule (R26). -/
def HoldsSchedule (alg : BitVec 3) (block : List Byte) (ws : Vector Cell 80) (n : Nat) : Prop :=
  ∀ i (_ : i < 80), i < n → (Reference.scheduleCells alg block)[i]? = some ws[i]

theorem HoldsSchedule.set {alg : BitVec 3} {block : List Byte} {ws : Vector Cell 80} {n : Nat} (hn : n < 80)
    (h : HoldsSchedule alg block ws n) {c : Cell} (hc : (Reference.scheduleCells alg block)[n]? = some c) :
    HoldsSchedule alg block (ws.set n c) (n + 1) := by
  intro i hi hlt
  rw [Vector.getElem_set]
  split
  · next heq => exact heq ▸ hc
  · exact h i hi (by omega)

/-- LOAD fills the first 16 entries from the block in BUF (R87). -/
theorem schedLoad_holdsSchedule (s : State) : HoldsSchedule s.alg s.block (schedLoad s).ws 16 := by
  intro i hi h16
  rw [Reference.scheduleCells_load _ _ h16, schedLoad_ws, getElem_fill, if_pos ⟨Nat.zero_le i, h16⟩]
  refine congrArg some (congrArg (writeCell _) (beWord_congr fun k hk => getD_block s ?_))
  have hmul : i * (params s.alg).width.bytes ≤ 15 * (params s.alg).width.bytes := Nat.mul_le_mul_right _ (by omega)
  rw [params_blockBytes]
  omega

/-- The LOAD step, as an update of WS, T and PH (R87). -/
theorem engineStep_load_schedule {s : State} (ho : s.opk ≠ .none) (hp : s.ph = .load) :
    ∃ ws, engineStep s = { s with ws := ws, t := 16, ph := .expand } ∧ HoldsSchedule s.alg s.block ws 16 :=
  ⟨(schedLoad s).ws, engineStep_load ((busy_iff s).2 ho) hp, schedLoad_holdsSchedule s⟩

/-- EXPAND1 computes the next entry of a SHA-1 schedule (R89). -/
theorem schedStep1_holdsSchedule {s : State} (ha : s.alg = 0) {block : List Byte} (hlo : 16 ≤ s.t.val)
    (h : HoldsSchedule s.alg block s.ws s.t.val) : HoldsSchedule s.alg block (schedStep1 s).ws (s.t.val + 1) := by
  rw [schedStep1_ws]
  refine h.set s.t.isLt ?_
  rw [ha] at h ⊢
  have hword : ∀ k, k < s.t.val → (Reference.schedule1 block).getD k 0 = word .w32 s.ws k := fun k hk => by
    rw [word_of_lt .w32 s.ws k (by omega)]
    exact getD_of_map_writeCell (W := .w32) (h k (by omega) hk)
  rw [Reference.scheduleCells_sha1, List.getElem?_map, Reference.schedule1_next block hlo s.t.isLt,
    Reference.nextWord1, hword _ (by omega), hword _ (by omega), hword _ (by omega), hword _ (by omega)]
  rfl

/-- EXPAND2 computes the next entry of a SHA-2 schedule (R88). -/
theorem schedStep2_holdsSchedule {s : State} (ha : s.alg ≠ 0) {block : List Byte} (hlo : 16 ≤ s.t.val)
    (hhi : s.t.val < (params s.alg).ns) (h : HoldsSchedule s.alg block s.ws s.t.val) :
    HoldsSchedule s.alg block (schedStep2 s).ws (s.t.val + 1) := by
  rw [schedStep2_ws]
  refine h.set s.t.isLt ?_
  have hword : ∀ k, k < s.t.val → (Reference.schedule2 (params s.alg).width (params s.alg).ns block).getD k 0 =
      word s.width s.ws k := fun k hk => by
    rw [word_of_lt s.width s.ws k (by omega)]
    exact getD_of_map_writeCell (Reference.scheduleCells_sha2 ha block ▸ h k (by omega) hk)
  rw [Reference.scheduleCells_sha2 ha, List.getElem?_map, Reference.schedule2_next _ _ block hlo hhi,
    Reference.nextWord2, hword _ (by omega), hword _ (by omega), hword _ (by omega), hword _ (by omega)]
  rfl

/-- An EXPAND step of either family: the next entry, and its end (R88, R89). -/
theorem engineStep_expand_schedule {s : State} (ho : s.opk ≠ .none) (hp : s.ph = .expand) {block : List Byte}
    (hlo : 16 ≤ s.t.val) (hhi : s.t.val < (params s.alg).ns) (h : HoldsSchedule s.alg block s.ws s.t.val) :
    ∃ ws, engineStep s = afterExpand { s with ws := ws } ∧ HoldsSchedule s.alg block ws (s.t.val + 1) := by
  rw [engineStep_expand ((busy_iff s).2 ho) hp]
  by_cases ha : s.alg = 0
  · have hws := schedStep1_holdsSchedule ha hlo h
    rw [schedStep1_ws] at hws
    exact ⟨_, if_pos ha, hws⟩
  · have hws := schedStep2_holdsSchedule ha hlo hhi h
    rw [schedStep2_ws] at hws
    exact ⟨_, if_neg ha, hws⟩

/-- The EXPAND steps complete the schedule (R88, R89). -/
theorem engineSteps_expand {block : List Byte} (n : Nat) {s : State} (ho : s.opk ≠ .none) (hp : s.ph = .expand)
    (hlo : 16 ≤ s.t.val) (hn : s.t.val + (n + 1) = (params s.alg).ns) (h : HoldsSchedule s.alg block s.ws s.t.val) :
    ∃ ws t, engineSteps (n + 1) s = { s with ws := ws, t := t, ph := .wrload } ∧
      HoldsSchedule s.alg block ws (params s.alg).ns := by
  induction n generalizing s with
  | zero =>
    obtain ⟨ws, hstep, hws⟩ := engineStep_expand_schedule ho hp hlo (by omega) h
    have hlast : s.t.val = (params s.alg).ns - 1 := by omega
    exact ⟨ws, s.t, hstep.trans (afterExpand_last { s with ws := ws } hlast), hn ▸ hws⟩
  | succ n ih =>
    obtain ⟨ws, hstep, hws⟩ := engineStep_expand_schedule ho hp hlo (by omega) h
    have hmore : s.t.val ≠ (params s.alg).ns - 1 := by omega
    obtain ⟨-, hns, -⟩ := params_counts s.alg
    have ht := t_succ s.t (by omega)
    have hnext : (s.t + 1).val + (n + 1) = (params s.alg).ns := by omega
    rw [engineSteps, hstep, afterExpand_more { s with ws := ws } hmore]
    exact ih (s := { s with ws := ws, t := s.t + 1 }) ho hp (ht ▸ Nat.le_succ_of_le hlo) hnext (ht ▸ hws)

/-! ## The rounds -/

/-- The first NH working registers are those of a block after `n` rounds from HashState `h` (R15). -/
def HoldsRegisters (alg : BitVec 3) (h : List Cell) (block : List Byte) (wr : Vector Cell 8) (n : Nat) : Prop :=
  wr.toList.take (params alg).nh = Reference.registerCells alg h block n

/-- WRLOAD copies the HashState (R95). -/
theorem wrLoad_holdsRegisters (s : State) (block : List Byte) :
    HoldsRegisters s.alg s.hashState block (wrLoad s).wr 0 := by
  obtain ⟨-, -, -, -, hnh, -⟩ := params_counts s.alg
  rw [HoldsRegisters, Reference.registerCells_zero _ (length_hashState s), hashState_eq, List.map_map, wrLoad_wr,
    take_toList_fill _ hnh]
  rfl

/-- The WRLOAD step, as an update of WR, T and PH (R95). -/
theorem engineStep_wrload_registers {s : State} (ho : s.opk ≠ .none) (hp : s.ph = .wrload) (block : List Byte) :
    ∃ wr, engineStep s = { s with wr := wr, t := 0, ph := .round } ∧
      HoldsRegisters s.alg s.hashState block wr 0 :=
  ⟨(wrLoad s).wr, engineStep_wrload ((busy_iff s).2 ho) hp, wrLoad_holdsRegisters s block⟩

/-- A register, read off the list of its words. -/
theorem word_of_registers {W : Width} {wr : Vector Cell 8} {l : List (BitVec W.bits)} {n : Nat}
    (h : wr.toList.take n = l.map (writeCell W)) {i : Nat} (hi : i < 8) (hin : i < n) : word W wr i = l.getD i 0 := by
  rw [word_of_lt W wr i hi]
  refine (getD_of_map_writeCell ?_).symm
  rw [← h, List.getElem?_take, if_pos hin]
  simp [hi]

/-- ROUND1 on the registers is the source's round (R98). -/
theorem round1_words {s : State} {r : Reference.Regs1} (h : s.wr.toList.take 5 = r.words.map (writeCell .w32)) :
    (round1 s).wr.toList.take 5 =
      (Reference.roundStep1 s.t.val (word .w32 s.ws s.t.val) r).words.map (writeCell .w32) := by
  have hword : ∀ i, i < 5 → word .w32 s.wr i = r.words.getD i 0 := fun i hi =>
    word_of_registers (W := .w32) h (by omega) hi
  rw [round1_wr, roundTemp, hword 0 (by decide), hword 1 (by decide), hword 2 (by decide), hword 3 (by decide),
    hword 4 (by decide)]
  rfl

/-- ROUND2 on the registers is the source's round (R96). -/
theorem round2_words {s : State} {r : Reference.Regs2 s.width.bits}
    (h : s.wr.toList.take 8 = r.words.map (writeCell s.width)) :
    (round2 s).wr.toList.take 8 =
      (Reference.roundStep2 s.width s.t.val (word s.width s.ws s.t.val) r).words.map (writeCell s.width) := by
  have hword : ∀ i, i < 8 → word s.width s.wr i = r.words.getD i 0 := fun i hi => word_of_registers h hi hi
  rw [round2_wr, roundT1, roundT2, hword 0 (by decide), hword 1 (by decide), hword 2 (by decide), hword 3 (by decide),
    hword 4 (by decide), hword 5 (by decide), hword 6 (by decide), hword 7 (by decide)]
  rfl

section Rounds

variable {s : State} {h : List Cell} {block : List Byte}

theorem round1_holdsRegisters (ha : s.alg = 0) (hws : HoldsSchedule s.alg block s.ws (params s.alg).ns)
    (hr : HoldsRegisters s.alg h block s.wr s.t.val) :
    HoldsRegisters s.alg h block (round1 s).wr (s.t.val + 1) := by
  rw [ha] at hr hws ⊢
  have hw : (Reference.schedule1 block).getD s.t.val 0 = word .w32 s.ws s.t.val := by
    rw [word_of_lt .w32 s.ws _ s.t.isLt]
    exact getD_of_map_writeCell (W := .w32) (hws s.t.val s.t.isLt s.t.isLt)
  refine (round1_words hr).trans ?_
  rw [← hw]
  rfl

theorem round2_holdsRegisters (ha : s.alg ≠ 0) (hhi : s.t.val < (params s.alg).rounds)
    (hws : HoldsSchedule s.alg block s.ws (params s.alg).ns) (hr : HoldsRegisters s.alg h block s.wr s.t.val) :
    HoldsRegisters s.alg h block (round2 s).wr (s.t.val + 1) := by
  have hw : (Reference.schedule2 (params s.alg).width (params s.alg).ns block).getD s.t.val 0 =
      word s.width s.ws s.t.val := by
    rw [word_of_lt s.width s.ws _ s.t.isLt]
    exact getD_of_map_writeCell
      (Reference.scheduleCells_sha2 ha block ▸ hws s.t.val s.t.isLt (params_rounds_eq_ns s.alg ▸ hhi))
  rw [HoldsRegisters, Reference.registerCells_sha2 ha, params_sha2_nh s.alg ha] at hr ⊢
  refine (round2_words hr).trans ?_
  rw [← hw]
  rfl

/-- A ROUND step of either family: the next registers, and its end (R96, R98). -/
theorem engineStep_round_registers (ho : s.opk ≠ .none) (hp : s.ph = .round) (hhi : s.t.val < (params s.alg).rounds)
    (hws : HoldsSchedule s.alg block s.ws (params s.alg).ns) (hr : HoldsRegisters s.alg h block s.wr s.t.val) :
    ∃ wr, engineStep s = afterRound { s with wr := wr } ∧ HoldsRegisters s.alg h block wr (s.t.val + 1) := by
  rw [engineStep_round ((busy_iff s).2 ho) hp]
  by_cases ha : s.alg = 0
  · have hnext := round1_holdsRegisters ha hws hr
    rw [round1_wr] at hnext
    exact ⟨_, if_pos ha, hnext⟩
  · have hnext := round2_holdsRegisters ha hhi hws hr
    rw [round2_wr] at hnext
    exact ⟨_, if_neg ha, hnext⟩

end Rounds

/-- The ROUND steps run all rounds of the block (R96, R98). -/
theorem engineSteps_round {h : List Cell} {block : List Byte} (n : Nat) {s : State} (ho : s.opk ≠ .none)
    (hp : s.ph = .round) (hn : s.t.val + (n + 1) = (params s.alg).rounds)
    (hws : HoldsSchedule s.alg block s.ws (params s.alg).ns) (hr : HoldsRegisters s.alg h block s.wr s.t.val) :
    ∃ wr t, engineSteps (n + 1) s = { s with wr := wr, t := t, ph := .feed } ∧
      HoldsRegisters s.alg h block wr (params s.alg).rounds := by
  induction n generalizing s with
  | zero =>
    obtain ⟨wr, hstep, hwr⟩ := engineStep_round_registers ho hp (by omega) hws hr
    have hlast : s.t.val = (params s.alg).rounds - 1 := by omega
    exact ⟨wr, s.t, hstep.trans (afterRound_last { s with wr := wr } hlast), hn ▸ hwr⟩
  | succ n ih =>
    obtain ⟨wr, hstep, hwr⟩ := engineStep_round_registers ho hp (by omega) hws hr
    have hmore : s.t.val ≠ (params s.alg).rounds - 1 := by omega
    obtain ⟨-, -, -, hrounds, -⟩ := params_counts s.alg
    have ht := t_succ s.t (by omega)
    have hnext : (s.t + 1).val + (n + 1) = (params s.alg).rounds := by omega
    rw [engineSteps, hstep, afterRound_more { s with wr := wr } hmore]
    exact ih (s := { s with wr := wr, t := s.t + 1 }) ho hp hnext hws (ht ▸ hwr)

/-! ## The block -/

/-- FEED completes the compression of the block (R99). -/
theorem feedForward_compress {s : State} {block : List Byte}
    (hr : HoldsRegisters s.alg s.hashState block s.wr (params s.alg).rounds) : (feedForward s).h.toList =
      Reference.compress s.alg s.hashState block ++ s.h.toList.drop (params s.alg).nh := by
  obtain ⟨-, -, -, -, hnh, -⟩ := params_counts s.alg
  rw [Reference.compress_eq _ (length_hashState s), ← hr, toList_take s.wr hnh 0, hashState_eq, List.zipWith_map,
    List.zipWith_self, feedForward_h, toList_fill_range _ hnh]
  rfl

/-- The FEED step, as an update of H and PH (R99). -/
theorem engineStep_feed_compress {s : State} (ho : s.opk ≠ .none) (hp : s.ph = .feed) {block : List Byte}
    (hr : HoldsRegisters s.alg s.hashState block s.wr (params s.alg).rounds) :
    ∃ h, engineStep s = { s with h := h, ph := .next } ∧
      h.toList = Reference.compress s.alg s.hashState block ++ s.h.toList.drop (params s.alg).nh :=
  ⟨(feedForward s).h, engineStep_feed ((busy_iff s).2 ho) hp, feedForward_compress hr⟩

/-- The engine steps of a block, whatever the operation: they compress the block into H and come to NEXT, whose own step is
the last of them (R100, R102). -/
theorem engineSteps_block {s : State} (ho : s.opk ≠ .none) (hp : s.ph = .load) :
    ∃ h wr ws t, engineSteps (stepsPerBlock s.alg) s =
        nextStep { s with h := h, wr := wr, ws := ws, t := t, ph := .next } ∧
      h.toList = Reference.compress s.alg s.hashState s.block ++ s.h.toList.drop (params s.alg).nh := by
  obtain ⟨hns, -, hrounds, -⟩ := params_counts s.alg
  obtain ⟨n, hn⟩ := Nat.exists_eq_add_of_lt (show 16 < (params s.alg).ns by omega)
  obtain ⟨m, hm⟩ := Nat.exists_eq_add_of_lt (show 0 < (params s.alg).rounds by omega)
  have hsteps : stepsPerBlock s.alg = 1 + (n + 1) + 1 + (m + 1) + 1 + 1 := by
    rw [stepsPerBlock]
    omega
  obtain ⟨ws, hload, hfirst⟩ := engineStep_load_schedule ho hp
  obtain ⟨ws, t, hexpand, hws⟩ := engineSteps_expand n (s := { s with ws := ws, t := 16, ph := .expand }) ho rfl
    (Nat.le_refl 16) hn.symm hfirst
  obtain ⟨wr, hwrload, hwr⟩ := engineStep_wrload_registers (s := { s with ws := ws, t := t, ph := .wrload }) ho rfl s.block
  obtain ⟨wr, t, hround, hwr⟩ := engineSteps_round m (s := { s with wr := wr, ws := ws, t := 0, ph := .round }) ho rfl
    hm.symm hws hwr
  obtain ⟨h, hfeed, hh⟩ := engineStep_feed_compress (s := { s with wr := wr, ws := ws, t := t, ph := .feed }) ho rfl hwr
  refine ⟨h, wr, ws, t, ?_, hh⟩
  have hone : engineSteps 1 s = _ := hload
  rw [hsteps, engineSteps_succ, engineSteps_succ, engineSteps_add _ (m + 1), engineSteps_succ (1 + (n + 1)),
    engineSteps_add 1 (n + 1), hone, hexpand, hwrload, hround, hfeed]
  exact engineStep_next ((busy_iff _).2 ho) rfl

end Sys2Proof.Machine
end

section
/-! FINAL's blocks (41_padding.md, 44_variants.md section 4): the second padded block, the digest, and the engine's run to
the end of the job (O39). -/

namespace Sys2Proof.Machine

/-! ## What the end of a block writes -/

theorem padSecond_buf (s : State) : (padSecond s).buf =
    fill (fill s.buf 0 ((params s.alg).blockBytes - (params s.alg).lenBytes) fun _ => 0)
      ((params s.alg).blockBytes - (params s.alg).lenBytes) (params s.alg).blockBytes fun i =>
        beByte (params s.alg).lenBytes (8 * s.msglen.toNat)
          (i - ((params s.alg).blockBytes - (params s.alg).lenBytes)) := by
  simp only [padSecond, putLength]

/-- The second padded block of the job (R83, R84). -/
abbrev State.secondBlock (s : State) : List Byte :=
  List.replicate ((params s.alg).blockBytes - (params s.alg).lenBytes) 0 ++
    Reference.be (params s.alg).lenBytes (8 * s.msglen.toNat)

/-- `pad_second` writes zeros and the length field (R83, R84). -/
theorem padSecond_block (s : State) : (padSecond s).buf.toList.take (params s.alg).blockBytes = s.secondBlock := by
  obtain ⟨hsize, -⟩ := params_block_sizes s.alg
  have hlen : (params s.alg).blockBytes - ((params s.alg).blockBytes - (params s.alg).lenBytes) =
      (params s.alg).lenBytes := by omega
  rw [padSecond_buf, take_toList_fill_fill s.buf (Nat.sub_le _ _) (by omega), hlen, List.map_const', List.length_range]
  simp only [Nat.add_sub_cancel_left]
  rfl

/-- The digest latch holds the first DLEN bytes of the serialization, then zeros (R110, R111). -/
theorem serialize_dig_toList {s : State} {l : List Cell} (hl : s.hashState = l) : (serialize s).dig.toList =
    (Reference.serial s.alg l).take (params s.alg).dlen ++ List.replicate (64 - (params s.alg).dlen) 0 := by
  subst hl
  obtain ⟨hserial, h64⟩ := params_dlen_le s.alg
  have hfull : (serialize s).dig.toList = (serialize s).dig.toList.take 64 := (List.take_of_length_le (by simp)).symm
  rw [hfull, serialize_dig, take_toList_fill_fill _ h64 le_rfl, Reference.serial_hashState, ← List.map_take,
    List.take_range, Nat.min_eq_left hserial, List.map_const', List.length_range]

theorem hashState_of_toList {s : State} {l rest : List Cell} (h : s.h.toList = l ++ rest)
    (hl : l.length = (params s.alg).nh) : s.hashState = l := by
  rw [State.hashState, h, List.take_left' hl]

theorem nextStep_secondBlock {s : State} (ho : s.opk = .final) (h : s.pb.val + 1 < s.npb.count) :
    nextStep s = { padSecond s with pb := s.pb + 1, ph := .load } := by
  simp only [nextStep, ho, if_pos h]

theorem nextStep_finalDone {s : State} (ho : s.opk = .final) (h : s.npb.count ≤ s.pb.val + 1) :
    nextStep s = finalFinish (serialize s) := by
  simp only [nextStep, ho, if_neg (Nat.not_lt.2 h)]

/-! ## The blocks of FINAL -/

section FinalBlocks

variable {s : State} (ho : s.opk = .final) (hp : s.ph = .load)

include ho hp

/-- The first of two padded blocks is compressed, and the second stands in BUF (R83, R100). -/
theorem engineSteps_firstOfTwo (hmore : s.pb.val + 1 < s.npb.count) :
    ∃ h wr ws t buf, engineSteps (stepsPerBlock s.alg) s =
        { s with h := h, wr := wr, ws := ws, t := t, pb := s.pb + 1, buf := buf } ∧
      h.toList = Reference.compress s.alg s.hashState s.block ++ s.h.toList.drop (params s.alg).nh ∧
      buf.toList.take (params s.alg).blockBytes = s.secondBlock := by
  obtain ⟨h, wr, ws, t, hrun, hh⟩ := engineSteps_block (by simp [ho]) hp
  have hnext := nextStep_secondBlock (s := { s with h := h, wr := wr, ws := ws, t := t, ph := .next }) ho hmore
  refine ⟨h, wr, ws, t, (padSecond s).buf, hrun.trans (hnext.trans ?_), hh, padSecond_block s⟩
  rw [padSecond, padSecond, ← hp]
  rfl

/-- The last padded block is compressed, the digest is written, and the job is done (R100, R110 to R112). -/
theorem engineSteps_lastBlock (hlast : s.npb.count ≤ s.pb.val + 1) {l : List Cell} {block : List Byte}
    (hl : s.hashState = l) (hb : s.block = block) :
    ∃ h wr ws t dig, engineSteps (stepsPerBlock s.alg) s =
        { s with h := h, wr := wr, ws := ws, t := t, ph := .next, dig := dig, js := .done, bufcnt := 0, opk := .none } ∧
      h.toList = Reference.compress s.alg l block ++ s.h.toList.drop (params s.alg).nh ∧
      dig.toList = (Reference.serial s.alg (Reference.compress s.alg l block)).take (params s.alg).dlen ++
        List.replicate (64 - (params s.alg).dlen) 0 := by
  subst hl hb
  obtain ⟨h, wr, ws, t, hrun, hh⟩ := engineSteps_block (by simp [ho]) hp
  have hlen := Reference.length_compress s.alg (length_hashState s) s.block
  have hdone := nextStep_finalDone (s := { s with h := h, wr := wr, ws := ws, t := t, ph := .next }) ho hlast
  exact ⟨h, wr, ws, t, _, hrun.trans hdone, hh, serialize_dig_toList (hashState_of_toList hh hlen)⟩

end FinalBlocks

/-- Settles O39: a single padded block is the last one; of two, the first leaves its compression in H and the second block
in BUF. -/
theorem finalStepsFinishTheJob : Obligations.FinalStepsFinishTheJob := by
  intro s ho hp hpb
  obtain hnpb | hnpb : s.npb = .one ∨ s.npb = .two := by cases s.npb <;> simp
  · have hlast : s.npb.count ≤ s.pb.val + 1 := by rw [hnpb]; exact Nat.le_add_left 1 _
    obtain ⟨h, wr, ws, t, dig, hrun, hh, hdig⟩ := engineSteps_lastBlock ho hp hlast rfl rfl
    simp only [if_neg (show s.npb ≠ .two by simp [hnpb])]
    exact ⟨h, wr, ws, t, .next, s.pb, s.buf, dig, hrun, hh, hdig⟩
  · have hmore : s.pb.val + 1 < s.npb.count := by rw [hnpb, hpb]; decide
    have hlast : s.npb.count ≤ (s.pb + 1).val + 1 := by rw [hnpb, hpb]; decide
    have hlen := Reference.length_compress s.alg (length_hashState s) s.block
    obtain ⟨h₁, wr, ws, t, buf, hfirst, hh₁, hbuf⟩ := engineSteps_firstOfTwo ho hp hmore
    obtain ⟨h, wr, ws, t, dig, hrun, hh, hdig⟩ := engineSteps_lastBlock
      (s := { s with h := h₁, wr := wr, ws := ws, t := t, pb := s.pb + 1, buf := buf }) ho hp hlast
      (hashState_of_toList hh₁ hlen) hbuf
    rw [hh₁, List.drop_left' hlen] at hh
    have htwo := engineSteps_add (stepsPerBlock s.alg) (stepsPerBlock s.alg) s
    rw [← Nat.two_mul, hfirst] at htwo
    simp only [if_pos hnpb]
    exact ⟨h, wr, ws, t, .next, s.pb + 1, buf, dig, htwo.trans hrun, hh, hdig⟩

end Sys2Proof.Machine
end

section
/-! The schedule expander (42_schedule.md): the words that LOAD writes (O30), and the entry that EXPAND computes (O31). -/

namespace Sys2Proof.Machine

/-! ## Loading the block (R87) -/

theorem toNat_schedLoad_ws (s : State) {j : Nat} (hj : j < 16) : (schedLoad s).ws[j].toNat =
    (beWord s.width fun k => s.buf.getD (j * s.width.bytes + k) 0).toNat := by
  rw [schedLoad_ws, getElem_fill, if_pos ⟨Nat.zero_le j, hj⟩, toNat_writeCell]

theorem schedLoad_ws_frame (s : State) {i : Nat} (hi : i < 80) (h16 : 16 ≤ i) : (schedLoad s).ws[i] = s.ws[i] := by
  rw [schedLoad_ws, getElem_fill, if_neg fun h => Nat.not_lt.2 h16 h.2]

/-- Settles O30: each cell holds BEword_W of its bytes as a number, and 16 · W / 8 bytes lie within BUF. -/
theorem loadStepReadsBigEndianWords : Obligations.LoadStepReadsBigEndianWords := by
  intro s hb hp
  refine ⟨(schedLoad s).ws, engineStep_load hb hp, fun i hi h16 => schedLoad_ws_frame s hi h16,
    fun j hj hw => ?_, fun j hj hw => ?_⟩
  · rw [toNat_schedLoad_ws s hj, hw, toNat_beWord_w32, Nat.mul_comm j]
    simp (disch := omega) only [Width.bytes, getD_of_lt, Nat.add_zero]
  · rw [toNat_schedLoad_ws s hj, hw, toNat_beWord_w64, Nat.mul_comm j]
    simp (disch := omega) only [Width.bytes, getD_of_lt, Nat.add_zero]

/-! ## Expansion (R88, R89) -/

theorem rotl_eq_rotateLeft (W : Width) (x : BitVec W.bits) (n : Nat) (h : n ∈ rotlAmounts W.bits) :
    rotl x n h = x.rotateLeft n := by
  rw [rotl, BitVec.rotateLeft_def, Nat.mod_eq_of_lt (wiredAmount_inRange W n (List.mem_append_right _ h)).2]

/-- After an entry only T and PH change: PH at the last entry, and T at every other. -/
theorem afterExpand_advances {s : State} (hp : s.ph = .expand) (hhi : s.t.val < (params s.alg).ns) :
    ∃ t ph, afterExpand s = { s with t := t, ph := ph } ∧
      (s.t.val = (params s.alg).ns - 1 → t = s.t ∧ ph = .wrload) ∧
      (s.t.val ≠ (params s.alg).ns - 1 → t.val = s.t.val + 1 ∧ ph = .expand) := by
  by_cases hlast : s.t.val = (params s.alg).ns - 1
  · exact ⟨s.t, .wrload, afterExpand_last s hlast, fun _ => ⟨rfl, rfl⟩, fun h => absurd hlast h⟩
  · obtain ⟨-, hns, -⟩ := params_counts s.alg
    exact ⟨s.t + 1, s.ph, afterExpand_more s hlast, fun h => absurd h hlast, fun _ => ⟨t_succ s.t (by omega), hp⟩⟩

/-- An EXPAND step that writes the word `x` to entry T: that entry alone changes, to `x` zero-extended (R16). -/
theorem afterExpand_set_word {s : State} {W : Width} (hw : s.width = W) (hp : s.ph = .expand)
    (hhi : s.t.val < (params s.alg).ns) (x : BitVec W.bits) :
    ∃ ws t ph, afterExpand { s with ws := s.ws.set s.t.val (writeCell W x) } = { s with ws := ws, t := t, ph := ph } ∧
      (∀ i (_ : i < 80), i ≠ s.t.val → ws[i] = s.ws[i]) ∧
      word W ws s.t.val = x ∧
      (∀ i (_ : i < 80), i = s.t.val → fits s.width ws[i]) ∧
      (s.t.val = (params s.alg).ns - 1 → t = s.t ∧ ph = .wrload) ∧
      (s.t.val ≠ (params s.alg).ns - 1 → t.val = s.t.val + 1 ∧ ph = .expand) := by
  subst hw
  obtain ⟨t, ph, hstep, hend⟩ :=
    afterExpand_advances (s := { s with ws := s.ws.set s.t.val (writeCell s.width x) }) hp hhi
  refine ⟨_, t, ph, hstep, fun i hi hne => Vector.getElem_set_ne s.t.isLt hi hne.symm, ?_, ?_, hend⟩
  · rw [word_set _ _ _ s.t.isLt _ _ s.t.isLt, if_pos rfl, readCell_writeCell]
  · rintro i hi rfl
    rw [Vector.getElem_set_self]
    exact fits_writeCell _ _

/-- Settles O31: in each family the step writes the recurrence's word to entry T; SHA-1's left rotation is the library's. -/
theorem expandStepFollowsTheRecurrence : Obligations.ExpandStepFollowsTheRecurrence := by
  intro s hb hp _ hhi
  rw [engineStep_expand hb hp]
  by_cases ha : s.alg = 0
  · rw [if_pos ha]
    obtain ⟨ws, t, ph, hstep, hframe, hword, hend⟩ := afterExpand_set_word (width_of_sha1 ha) hp hhi _
    exact ⟨ws, t, ph, hstep, hframe, fun h => absurd ha h,
      fun _ => hword.trans (rotl_eq_rotateLeft .w32 _ 1 _), hend⟩
  · rw [if_neg ha]
    obtain ⟨ws, t, ph, hstep, hframe, hword, hend⟩ := afterExpand_set_word rfl hp hhi _
    exact ⟨ws, t, ph, hstep, hframe, fun _ => hword, fun h => absurd h ha, hend⟩

end Sys2Proof.Machine
end

section
/-! The steps of the compression as updates of the working registers and HashState (43_compression.md sections 1 to 3): the
register load and the feed-forward (O32), and a round of each family (O33, O34). -/

namespace Sys2Proof.Machine

/-! ## Loading the registers and the feed-forward (R95, R99) -/

theorem toNat_wrLoad_wr (s : State) {i : Nat} (hi : i < 8) (hn : i < (params s.alg).nh) :
    (wrLoad s).wr[i].toNat = s.h[i].toNat % 2 ^ s.width.bits := by
  rw [wrLoad_wr, getElem_fill, if_pos ⟨Nat.zero_le i, hn⟩, toNat_writeCell, word_of_lt _ _ i hi, toNat_readCell]

theorem wrLoad_wr_frame (s : State) {i : Nat} (hi : i < 8) (hn : (params s.alg).nh ≤ i) : (wrLoad s).wr[i] = s.wr[i] := by
  rw [wrLoad_wr, getElem_fill, if_neg fun h => Nat.not_lt.2 hn h.2]

theorem toNat_feedForward_h (s : State) {i : Nat} (hi : i < 8) (hn : i < (params s.alg).nh) :
    (feedForward s).h[i].toNat = (s.h[i].toNat + s.wr[i].toNat) % 2 ^ s.width.bits := by
  rw [feedForward_h, getElem_fill, if_pos ⟨Nat.zero_le i, hn⟩, toNat_writeCell, BitVec.toNat_add, word_of_lt _ _ i hi,
    word_of_lt _ _ i hi, toNat_readCell, toNat_readCell, ← Nat.add_mod]

theorem feedForward_h_frame (s : State) {i : Nat} (hi : i < 8) (hn : (params s.alg).nh ≤ i) :
    (feedForward s).h[i] = s.h[i] := by
  rw [feedForward_h, getElem_fill, if_neg fun h => Nat.not_lt.2 hn h.2]

/-- Settles O32, cell by cell: the first NH are written mod 2^W, and the others are left. -/
theorem registerLoadAndFeedForward : Obligations.RegisterLoadAndFeedForward := by
  intro s hb
  constructor
  · intro hp
    exact ⟨(wrLoad s).wr, engineStep_wrload hb hp, fun i hi => toNat_wrLoad_wr s hi, fun i hi => wrLoad_wr_frame s hi⟩
  · intro hp
    exact ⟨(feedForward s).h, engineStep_feed hb hp, fun i hi => toNat_feedForward_h s hi,
      fun i hi => feedForward_h_frame s hi⟩

/-! ## A round (R96 to R98) -/

/-- After a round only T and PH change: PH at the last round, and T at every other. -/
theorem afterRound_advances {s : State} (hp : s.ph = .round) (hhi : s.t.val < (params s.alg).rounds) :
    ∃ t ph, afterRound s = { s with t := t, ph := ph } ∧
      (s.t.val = (params s.alg).rounds - 1 → t = s.t ∧ ph = .feed) ∧
      (s.t.val ≠ (params s.alg).rounds - 1 → t.val = s.t.val + 1 ∧ ph = .round) := by
  by_cases hlast : s.t.val = (params s.alg).rounds - 1
  · exact ⟨s.t, .feed, afterRound_last s hlast, fun _ => ⟨rfl, rfl⟩, fun h => absurd hlast h⟩
  · obtain ⟨-, -, -, hrounds, -⟩ := params_counts s.alg
    exact ⟨s.t + 1, s.ph, afterRound_more s hlast, fun h => absurd h hlast, fun _ => ⟨t_succ s.t (by omega), hp⟩⟩

theorem round2_eq_afterRound (s : State) : round2 s = afterRound { s with wr := (round2 s).wr } := by
  rw [round2_wr]
  rfl

theorem round1_eq_afterRound (s : State) : round1 s = afterRound { s with wr := (round1 s).wr } := by
  rw [round1_wr]
  rfl

/-- A register written with a word holds that word (R16). -/
theorem word_of_written {W : Width} {wr : Vector Cell 8} {i : Nat} (hi : i < 8) {x : BitVec W.bits}
    (h : wr[i] = writeCell W x) : word W wr i = x := by
  rw [word_of_lt W wr i hi, h, readCell_writeCell]

/-- Settles O33: the eight registers written are the right sides of R96, which all read the old registers. -/
theorem sha2RoundUpdatesTheRegisters : Obligations.Sha2RoundUpdatesTheRegisters := by
  intro s hb hp ha hhi
  obtain ⟨t, ph, hstep, hend⟩ := afterRound_advances (s := { s with wr := (round2 s).wr }) hp hhi
  refine ⟨(round2 s).wr, t, ph, ?_, ?_, round2_wr_fits s, hend⟩
  · rw [engineStep_round hb hp, if_neg ha, round2_eq_afterRound, hstep]
  · rw [round2_wr]
    refine ⟨?_, ?_, ?_, ?_, ?_, ?_, ?_, ?_⟩ <;> exact word_of_written (by decide) rfl

/-- The function and the constant of a SHA-1 round, by the round's range (R93, R97). -/
theorem roundFunction1_and_constant {t : Nat} (ht : t < 80) (b c d : BitVec 32) :
    (roundFunction1 t b c d, roundConstant1 t) =
      if t < 20 then (ch b c d, 0x5A827999)
      else if t < 40 then (parity b c d, 0x6ED9EBA1)
      else if t < 60 then (maj b c d, 0x8F1BBCDC)
      else (parity b c d, 0xCA62C1D6) := by
  have hconst : ∀ q, t / 20 = q → roundConstant1 t = k1.getD q 0 := fun q hq => congrArg (k1.getD · 0) hq
  unfold roundFunction1
  split
  · exact congrArg _ (hconst 0 (by omega))
  split
  · exact congrArg _ (hconst 1 (by omega))
  split
  · exact congrArg _ (hconst 2 (by omega))
  · exact congrArg _ (hconst 3 (by omega))

/-- Settles O34: a to e are the right sides of R98, with f_t and its constant chosen together by the round's range. -/
theorem sha1RoundUpdatesTheRegisters : Obligations.Sha1RoundUpdatesTheRegisters := by
  intro s hb hp ha
  have hrounds : (params s.alg).rounds = 80 := by rw [ha]; rfl
  obtain ⟨t, ph, hstep, hend⟩ :=
    afterRound_advances (s := { s with wr := (round1 s).wr }) hp (s.t.isLt.trans_eq hrounds.symm)
  rw [hrounds] at hend
  refine ⟨(round1 s).wr, t, ph, ?_, ?_, round1_wr_fits s, ?_, ?_, ?_, hend⟩
  · rw [engineStep_round hb hp, if_pos ha, round1_eq_afterRound, hstep]
  · simp only [← roundFunction1_and_constant s.t.isLt, round1_wr]
    rw [← rotl_eq_rotateLeft .w32 _ 5 (by decide), ← rotl_eq_rotateLeft .w32 _ 30 (by decide)]
    refine ⟨?_, ?_, ?_, ?_, ?_⟩ <;> exact word_of_written (W := .w32) (by decide) rfl
  all_goals rw [round1_wr]; rfl

end Sys2Proof.Machine
end

section
/-! The block sequencer (43_compression.md section 4): the fields that control it and how many steps they leave to do (O36,
O37), what its steps leave in STATUS (O35), and a data block (O38). -/

namespace Sys2Proof.Machine

/-! ## The control of the engine (R100, R103) -/

/-- The fields that say which step the engine takes: PH, T, OPK, PB, NPB and ALG (R100). -/
structure Control where
  ph : Phase
  t : Fin 80
  opk : Op
  pb : Fin 2
  npb : PadBlocks
  alg : BitVec 3

/-- The control fields of a state. -/
def State.control (s : State) : Control := ⟨s.ph, s.t, s.opk, s.pb, s.npb, s.alg⟩

/-- The control after schedule entry T (R88, R89). -/
def Control.afterExpand (c : Control) : Control :=
  if c.t.val = (params c.alg).ns - 1 then { c with ph := .wrload } else { c with t := c.t + 1 }

/-- The control after round T (R96, R98). -/
def Control.afterRound (c : Control) : Control :=
  if c.t.val = (params c.alg).rounds - 1 then { c with ph := .feed } else { c with t := c.t + 1 }

/-- Whether FINAL has another padded block after this one (R100). -/
abbrev Control.moreBlocks (c : Control) : Prop := c.opk = .final ∧ c.pb.val + 1 < c.npb.count

/-- The control after the last step of a block (R100). -/
def Control.afterBlock (c : Control) : Control :=
  if c.moreBlocks then { c with pb := c.pb + 1, ph := .load } else { c with opk := .none }

/-- An engine step on the control fields alone, while OPK ≠ NONE (R100); `control_engineStep` ties it to the engine. -/
def Control.step (c : Control) : Control :=
  match c.ph with
  | .load => { c with t := 16, ph := .expand }
  | .expand => c.afterExpand
  | .wrload => { c with t := 0, ph := .round }
  | .round => c.afterRound
  | .feed => { c with ph := .next }
  | .next => c.afterBlock

theorem afterExpand_control (s : State) : (afterExpand s).control = s.control.afterExpand :=
  apply_ite State.control _ _ _

theorem afterRound_control (s : State) : (afterRound s).control = s.control.afterRound :=
  apply_ite State.control _ _ _

/-- NEXT ends the busy period unless FINAL has another padded block (R100). -/
theorem nextStep_control {s : State} (ho : s.opk ≠ .none) : (nextStep s).control = s.control.afterBlock := by
  have hlast : ¬s.control.moreBlocks → s.control.afterBlock = { s.control with opk := .none } := fun h => if_neg h
  cases hop : s.opk with
  | none => exact absurd hop ho
  | block =>
    rw [hlast fun h => absurd (hop.symm.trans h.1) (by decide)]
    simp only [nextStep, hop, State.control]
  | final =>
    by_cases hmore : s.pb.val + 1 < s.npb.count
    · rw [nextStep_secondBlock hop hmore, Control.afterBlock, if_pos ⟨hop, hmore⟩]
      simp [State.control]
    · rw [nextStep_finalDone hop (Nat.not_lt.1 hmore), hlast fun h => hmore h.2]
      simp [State.control]
  | derive =>
    rw [hlast fun h => absurd (hop.symm.trans h.1) (by decide)]
    simp [nextStep, hop, State.control]

/-- The control after an engine step is a function of the control before it, whatever the data (R103). -/
theorem control_engineStep {s : State} (ho : s.opk ≠ .none) : (engineStep s).control = s.control.step := by
  rw [engineStep_busy s ho, Control.step, show s.control.ph = s.ph from rfl]
  cases s.ph with
  | load => rfl
  | expand =>
    by_cases ha : s.alg = 0
    · exact (congrArg State.control (if_pos ha)).trans (afterExpand_control _)
    · exact (congrArg State.control (if_neg ha)).trans (afterExpand_control _)
  | wrload => rfl
  | round =>
    by_cases ha : s.alg = 0
    · exact (congrArg State.control (if_pos ha)).trans (afterRound_control _)
    · exact (congrArg State.control (if_neg ha)).trans (afterRound_control _)
  | feed => rfl
  | next => exact nextStep_control ho

/-- Settles O36: equal controls have equal next controls. -/
theorem engineControlIgnoresData : Obligations.EngineControlIgnoresData := by
  intro s₁ s₂ hph ht hopk hpb hnpb halg
  have hcontrol : s₁.control = s₂.control := by simp only [State.control, hph, ht, hopk, hpb, hnpb, halg]
  have hnext : (engineStep s₁).control = (engineStep s₂).control := by
    by_cases ho : s₁.opk = .none
    · rwa [engineStep_idle s₁ ho, engineStep_idle s₂ (hopk ▸ ho)]
    · rw [control_engineStep ho, control_engineStep (hopk ▸ ho), hcontrol]
  simpa only [State.control, Control.mk.injEq] using hnext

/-! ## The length of a busy period (R102) -/

/-- The engine steps of the current block that are still to do (R102). -/
def Control.blockStepsLeft (c : Control) : Nat :=
  match c.ph with
  | .load => stepsPerBlock c.alg
  | .expand => (params c.alg).ns - c.t.val + 1 + (params c.alg).rounds + 1 + 1
  | .wrload => 1 + (params c.alg).rounds + 1 + 1
  | .round => (params c.alg).rounds - c.t.val + 1 + 1
  | .feed => 1 + 1
  | .next => 1

/-- The engine steps of FINAL's next padded block, if there is one. -/
def Control.laterSteps (c : Control) : Nat := if c.moreBlocks then stepsPerBlock c.alg else 0

/-- The engine steps of the busy period that are still to do. -/
def Control.stepsLeft (c : Control) : Nat := if c.opk = .none then 0 else c.blockStepsLeft + c.laterSteps

/-- T is below its bound in the two phases that count with it (R17). -/
structure Control.InRange (c : Control) : Prop where
  expand : c.ph = .expand → c.t.val < (params c.alg).ns
  round : c.ph = .round → c.t.val < (params c.alg).rounds

theorem Control.inRange_of_phase {c : Control} (he : c.ph ≠ .expand) (hr : c.ph ≠ .round) : c.InRange :=
  ⟨fun h => absurd h he, fun h => absurd h hr⟩

theorem Control.stepsLeft_busy {c : Control} (ho : c.opk ≠ .none) : c.stepsLeft = c.blockStepsLeft + c.laterSteps :=
  if_neg ho

theorem Control.stepsLeft_pos_iff (c : Control) : 0 < c.stepsLeft ↔ c.opk ≠ .none := by
  have hblock : 0 < c.blockStepsLeft := by
    unfold blockStepsLeft stepsPerBlock
    split <;> omega
  unfold stepsLeft
  split
  · next ho => simp [ho]
  · next ho => simp [ho, hblock]

/-- `c'` differs from `c` in T and PH only, and leaves one step fewer of the block to do (R102). -/
def Control.CountsDown (c c' : Control) : Prop :=
  ∃ t ph, c' = { c with t := t, ph := ph } ∧ c'.InRange ∧ c'.blockStepsLeft + 1 = c.blockStepsLeft

theorem Control.afterExpand_countsDown {c : Control} (hp : c.ph = .expand) (hlt : c.t.val < (params c.alg).ns) :
    c.CountsDown c.afterExpand := by
  obtain ⟨-, hns80, -⟩ := params_counts c.alg
  by_cases hlast : c.t.val = (params c.alg).ns - 1
  · rw [afterExpand, if_pos hlast]
    refine ⟨_, _, rfl, inRange_of_phase nofun nofun, ?_⟩
    simp only [blockStepsLeft, hp]
    omega
  · have ht := t_succ c.t (by omega)
    rw [afterExpand, if_neg hlast]
    refine ⟨_, _, rfl, ⟨fun _ => by dsimp only; omega, fun h => absurd (hp.symm.trans h) (by decide)⟩, ?_⟩
    simp only [blockStepsLeft, hp]
    omega

theorem Control.afterRound_countsDown {c : Control} (hp : c.ph = .round) (hlt : c.t.val < (params c.alg).rounds) :
    c.CountsDown c.afterRound := by
  obtain ⟨-, -, -, hr80, -⟩ := params_counts c.alg
  by_cases hlast : c.t.val = (params c.alg).rounds - 1
  · rw [afterRound, if_pos hlast]
    refine ⟨_, _, rfl, inRange_of_phase nofun nofun, ?_⟩
    simp only [blockStepsLeft, hp]
    omega
  · have ht := t_succ c.t (by omega)
    rw [afterRound, if_neg hlast]
    refine ⟨_, _, rfl, ⟨fun h => absurd (hp.symm.trans h) (by decide), fun _ => by dsimp only; omega⟩, ?_⟩
    simp only [blockStepsLeft, hp]
    omega

/-- Every step before NEXT counts down. -/
theorem Control.step_countsDown {c : Control} (hc : c.InRange) (hp : c.ph ≠ .next) : c.CountsDown c.step := by
  obtain ⟨hns, -, hr, -⟩ := params_counts c.alg
  unfold step
  split
  next hload =>
    have h16 : (16 : Fin 80).val < (params c.alg).ns := Nat.lt_of_lt_of_le (by decide) hns
    refine ⟨_, _, rfl, ⟨fun _ => h16, nofun⟩, ?_⟩
    simp only [blockStepsLeft, hload, stepsPerBlock, Fin.coe_ofNat_eq_mod]
    omega
  next hexpand => exact afterExpand_countsDown hexpand (hc.expand hexpand)
  next hwrload =>
    have h0 : (0 : Fin 80).val < (params c.alg).rounds := Nat.lt_of_lt_of_le (by decide) hr
    refine ⟨_, _, rfl, ⟨nofun, fun _ => h0⟩, ?_⟩
    simp only [blockStepsLeft, hwrload, Fin.coe_ofNat_eq_mod]
    omega
  next hround => exact afterRound_countsDown hround (hc.round hround)
  next hfeed => exact ⟨_, _, rfl, inRange_of_phase nofun nofun, by simp only [blockStepsLeft, hfeed]⟩
  next hnext => exact absurd hnext hp

/-- FINAL's second padded block is its last (R18). -/
theorem Control.not_moreBlocks_twice {c : Control} (h : c.moreBlocks) :
    ¬{ c with pb := c.pb + 1, ph := .load : Control }.moreBlocks := by
  have key : ∀ npb : PadBlocks, ∀ pb : Fin 2, pb.val + 1 < npb.count → ¬(pb + 1).val + 1 < npb.count := by
    intro npb
    cases npb <;> decide
  exact fun hagain => key c.npb c.pb h.2 hagain.2

/-- Each step of a busy engine leaves one step fewer to do (R102). -/
theorem Control.stepsLeft_step {c : Control} (hc : c.InRange) (ho : c.opk ≠ .none) :
    c.step.InRange ∧ c.step.stepsLeft + 1 = c.stepsLeft := by
  by_cases hp : c.ph = .next
  · have hstep : c.step = c.afterBlock := by simp only [step, hp]
    have hleft : c.stepsLeft = 1 + c.laterSteps := by rw [stepsLeft_busy ho, blockStepsLeft, hp]
    rw [hstep, hleft, afterBlock, laterSteps]
    by_cases hmore : c.moreBlocks
    · rw [if_pos hmore, if_pos hmore, stepsLeft, if_neg ho, laterSteps, if_neg (not_moreBlocks_twice hmore)]
      exact ⟨inRange_of_phase nofun nofun, Nat.add_comm _ 1⟩
    · rw [if_neg hmore, if_neg hmore]
      exact ⟨inRange_of_phase (by simp [hp]) (by simp [hp]), rfl⟩
  · obtain ⟨t, ph, hstep, hrange, hleft⟩ := step_countsDown hc hp
    refine ⟨hrange, ?_⟩
    have hlater : c.step.laterSteps = c.laterSteps := by rw [hstep]; rfl
    rw [stepsLeft_busy ho, stepsLeft_busy (by rw [hstep]; exact ho), hlater, ← hleft]
    exact Nat.add_right_comm _ _ 1

/-- What is left to do where a busy period starts: its one block, or the two of FINAL. -/
theorem stepsLeft_of_load {s : State} (ho : s.opk ≠ .none) (hp : s.ph = .load) (hpb : s.opk = .final → s.pb = 0) :
    s.control.stepsLeft =
      if s.opk = .final ∧ s.npb = .two then 2 * stepsPerBlock s.alg else stepsPerBlock s.alg := by
  have hblock : s.control.blockStepsLeft = stepsPerBlock s.alg := by
    rw [Control.blockStepsLeft, show s.control.ph = _ from hp]
    rfl
  have hcount : 1 < s.npb.count ↔ s.npb = .two := by cases s.npb <;> decide
  have hmore : s.control.moreBlocks ↔ s.opk = .final ∧ s.npb = .two :=
    and_congr_right fun h => by simp only [State.control, hpb h, ← hcount]; rfl
  rw [Control.stepsLeft_busy ho, hblock, Control.laterSteps]
  simp only [hmore]
  split
  · exact (Nat.two_mul _).symm
  · rfl

/-- A busy period goes on for exactly the steps that are left to do. -/
theorem engineSteps_busy_iff {s : State} (hc : s.control.InRange) {k : Nat} (hk : k ≤ s.control.stepsLeft) :
    (engineSteps k s).busy = true ↔ k < s.control.stepsLeft := by
  induction k generalizing s with
  | zero => rw [Control.stepsLeft_pos_iff]; exact busy_iff s
  | succ k ih =>
    have ho : s.control.opk ≠ .none := s.control.stepsLeft_pos_iff.1 (by omega)
    obtain ⟨hrange, hleft⟩ := Control.stepsLeft_step hc ho
    rw [← control_engineStep ho] at hrange hleft
    rw [engineSteps, ih hrange (by omega)]
    omega

theorem stepsPerBlock_eq : ∀ alg : BitVec 3, alg ≠ 7 → stepsPerBlock alg = (params alg).ns + (params alg).rounds - 12 ∧
    stepsPerBlock alg = if alg = 1 ∨ alg = 2 then 116 else 148 := by decide

/-- Settles O37: the engine is busy while steps are left to do, and LOAD leaves those of one block or of two. -/
theorem busyPeriodsTakeTheCountedSteps : Obligations.BusyPeriodsTakeTheCountedSteps := by
  refine ⟨stepsPerBlock_eq, fun s hb hp hpb => ?_⟩
  rw [← stepsLeft_of_load ((busy_iff s).1 hb) hp hpb]
  have hrange : s.control.InRange :=
    Control.inRange_of_phase (by simp [State.control, hp]) (by simp [State.control, hp])
  refine ⟨fun k hk => (engineSteps_busy_iff hrange hk.le).2 hk, Bool.eq_false_iff.2 fun hbusy => ?_⟩
  exact absurd ((engineSteps_busy_iff hrange le_rfl).1 hbusy) (Nat.lt_irrefl _)

/-! ## What a step leaves in STATUS (R101) -/

theorem EngineMove.keeps_draws {s t : State} (h : EngineMove s t) : t.draws = s.draws := by
  cases h <;> simp

/-- While BUSY stays 1 the engine writes neither JS nor a valid bit. -/
theorem EngineMove.status_while_busy {s t : State} (h : EngineMove s t) (hbusy : t.opk ≠ .none) :
    t.js = s.js ∧ t.divv224 = s.divv224 ∧ t.divv256 = s.divv256 := by
  cases h with
  | finalDone ho hp => exact absurd (finalFinish_opk _) hbusy
  | deriveDone ho hp => exact absurd (deriveFinish_opk _) hbusy
  | _ => simp

/-- A derivation's last step sets the valid bit of its algorithm (R108). -/
theorem deriveFinish_valid (s : State) :
    (deriveFinish s).divv224 = (s.divv224 || decide (s.alg = 5)) ∧
      (deriveFinish s).divv256 = (s.divv256 || decide (s.alg = 6)) := by
  by_cases h5 : s.alg = 5
  · simp [deriveFinish_224 s h5, h5]
  by_cases h6 : s.alg = 6
  · simp [deriveFinish_256 s h6, h6]
  · rw [deriveFinish_other s h5 h6, decide_eq_false h5, decide_eq_false h6, Bool.or_false, Bool.or_false]
    exact ⟨rfl, rfl⟩

/-- A busy period ends in NEXT, which writes JS at the end of FINAL and a valid bit at the end of a derivation. -/
theorem EngineMove.status_at_end {s t : State} (h : EngineMove s t) (hbusy : s.opk ≠ .none) (hend : t.opk = .none) :
    s.ph = .next ∧ t.js = (if s.opk = .final then .done else s.js) ∧
      t.divv224 = (s.divv224 || decide (s.opk = .derive ∧ s.alg = 5)) ∧
      t.divv256 = (s.divv256 || decide (s.opk = .derive ∧ s.alg = 6)) := by
  cases h with
  | blockDone ho hp => simp [ho, hp]
  | finalDone ho hp => simp [ho, hp]
  | deriveDone ho hp => simpa [ho, hp] using deriveFinish_valid s
  | _ => exact absurd hend (by simpa using hbusy)

/-- Settles O35: of all engine steps only the NEXT that ends FINAL or a derivation writes a field of STATUS beside BUSY. -/
theorem engineChangesStatusOnlyAtTheLastStep : Obligations.EngineChangesStatusOnlyAtTheLastStep := by
  intro s hb
  have hmove := engineMove_engineStep s
  obtain ⟨halg, herr, hlen, hcfg⟩ := hmove.keeps_job
  obtain ⟨hbus, hturns, hrdata⟩ := hmove.keeps_host
  exact ⟨herr, halg, hlen, hrdata, hcfg, hbus, hturns, hmove.keeps_draws,
    fun hbusy => hmove.status_while_busy ((busy_iff _).1 hbusy),
    fun hidle => hmove.status_at_end ((busy_iff s).1 hb) ((not_busy_iff _).1 hidle)⟩

/-! ## A data block -/

/-- Settles O38: NEXT ends a data block by emptying the buffer, after the steps that compress it. -/
theorem dataBlockStepsCompress : Obligations.DataBlockStepsCompress := by
  intro s ho hp
  obtain ⟨h, wr, ws, t, hrun, hh⟩ := engineSteps_block (by simp [ho]) hp
  refine ⟨h, wr, ws, t, .next, hrun.trans ?_, hh⟩
  simp only [nextStep, ho]

end Sys2Proof.Machine
end

section
/-! The machine's steps while the host waits are the engine's (43_compression.md section 4, 45_host_ops.md section 1: O10). -/

namespace Sys2Proof.Machine

/-! ## The engine does not look at the environment's choices (R103) -/

/-- The state with `ts` as the environment's next choices. -/
def State.withTurns (ts : List Turn) (s : State) : State := { s with turns := ts }

theorem afterExpand_withTurns (ts : List Turn) (s : State) :
    afterExpand (s.withTurns ts) = (afterExpand s).withTurns ts := by
  rw [afterExpand, afterExpand, apply_ite (State.withTurns ts)]
  rfl

theorem afterRound_withTurns (ts : List Turn) (s : State) :
    afterRound (s.withTurns ts) = (afterRound s).withTurns ts := by
  rw [afterRound, afterRound, apply_ite (State.withTurns ts)]
  rfl

theorem deriveFinish_withTurns (ts : List Turn) (s : State) :
    deriveFinish (s.withTurns ts) = (deriveFinish s).withTurns ts := by
  rw [deriveFinish, deriveFinish, apply_ite (State.withTurns ts), apply_ite (State.withTurns ts)]
  rfl

theorem nextStep_withTurns (ts : List Turn) (s : State) : nextStep (s.withTurns ts) = (nextStep s).withTurns ts := by
  rw [nextStep, nextStep, show (s.withTurns ts).opk = s.opk from rfl]
  cases s.opk with
  | none => rfl
  | block => rfl
  | final =>
    dsimp only
    rw [apply_ite (State.withTurns ts)]
    rfl
  | derive => exact deriveFinish_withTurns ts s

theorem engineStep_withTurns (ts : List Turn) (s : State) :
    engineStep (s.withTurns ts) = (engineStep s).withTurns ts := by
  by_cases ho : s.opk = .none
  · rw [engineStep_idle s ho]
    exact engineStep_idle _ ho
  rw [engineStep_busy s ho, engineStep_busy (s.withTurns ts) ho, show (s.withTurns ts).ph = s.ph from rfl]
  cases s.ph with
  | load => rfl
  | expand =>
    dsimp only
    rw [apply_ite (State.withTurns ts)]
    exact ite_congr rfl (fun _ => afterExpand_withTurns ts { s with ws := _ }) fun _ =>
      afterExpand_withTurns ts { s with ws := _ }
  | wrload => rfl
  | round =>
    dsimp only
    rw [apply_ite (State.withTurns ts)]
    exact ite_congr rfl (fun _ => afterRound_withTurns ts { s with wr := _ }) fun _ =>
      afterRound_withTurns ts { s with wr := _ }
  | feed => rfl
  | next => exact nextStep_withTurns ts s

theorem engineSteps_withTurns (ts : List Turn) (n : Nat) (s : State) :
    engineSteps n (s.withTurns ts) = (engineSteps n s).withTurns ts := by
  induction n generalizing s with
  | zero => rfl
  | succ n ih => rw [engineSteps, engineStep_withTurns, ih, engineSteps]

/-! ## A waiting host goes on waiting (R116) -/

/-- An engine step that leaves BUSY at 1 leaves a held access held. -/
theorem engineStep_waiting {s : State} (h : s.bus = [] ∨ s.holds = true) (hbusy : (engineStep s).busy = true) :
    (engineStep s).bus = [] ∨ (engineStep s).holds = true := by
  obtain ⟨-, -, -, hcfg⟩ := (engineMove_engineStep s).keeps_job
  refine h.imp (engineStep_bus s).trans fun hheld => ?_
  obtain ⟨-, a, rest, i, hbus, hdec, hi⟩ := operation_of_holds hheld
  exact holds_eq_true ((engineStep_bus s).trans hbus) (hcfg ▸ hdec) hbusy hi

/-- A run over a busy period of a waiting host is the engine's; the host needs to wait only while BUSY is 1. -/
theorem run_of_waiting (n : Nat) {s : State} (hreset : Turn.reset ∉ s.turns)
    (hwait : s.busy = true → s.bus = [] ∨ s.holds = true) (hbusy : ∀ k, k < n → (engineSteps k s).busy = true) :
    Sys2Proof.core.run n s = .next ((engineSteps n s).withTurns (s.turns.drop n)) := by
  induction n generalizing s with
  | zero => rfl
  | succ n ih =>
    have hturn : s.turns.head? ≠ some .reset := fun h => hreset (List.mem_of_mem_head? h)
    have hw := hwait (hbusy 0 n.succ_pos)
    have hstep : step s = .next ((engineStep s).withTurns s.turns.tail) :=
      (step_of_waiting hturn hw).trans (congrArg _ (engineStep_withTurns s.turns.tail s))
    have hrest : ∀ k, k < n → (engineSteps k ((engineStep s).withTurns s.turns.tail)).busy = true := fun k hk => by
      rw [engineSteps_withTurns]
      exact hbusy (k + 1) (Nat.succ_lt_succ hk)
    rw [run_of_next Sys2Proof.core n s _ hstep,
      ih (s := (engineStep s).withTurns s.turns.tail) (fun h => hreset (List.mem_of_mem_tail h))
        (engineStep_waiting (s := s) hw) hrest, engineSteps_withTurns, engineSteps]
    exact congrArg (fun ts => Host.Outcome.next (State.withTurns ts _)) List.drop_tail

/-- Settles O10, by induction on the steps of the run. -/
theorem waitingHostLeavesTheEngineToRun : Obligations.WaitingHostLeavesTheEngineToRun :=
  fun n _ hreset hwait hbusy => run_of_waiting n hreset (fun _ => hwait) hbusy

end Sys2Proof.Machine
end

section
/-! The derived IVs (44_variants.md section 3): how a derivation starts (O23), what it leaves when it ends (O40), the
values it gives (O41), and the digests of a short message under every algorithm (O42). -/

namespace Sys2Proof.Machine

/-! ## The start of a derivation (R107, R108) -/

/-- The seed is IV512 with every word masked (R108). -/
theorem seedState_eq : seedState = iv512.map (· ^^^ 0xA5A5A5A5A5A5A5A5) := rfl

theorem deriving_of_mustDerive {a : BitVec 3} {s : State} (h : mustDerive a s) : a = 5 ∨ a = 6 :=
  h.imp And.left And.left

theorem deriveStart_h_toList (a : BitVec 3) (s : State) : (deriveStart a s).h.toList = seedState := by
  rw [deriveStart_h, toList_fill_all]

theorem deriveStart_buf_toList {a : BitVec 3} (ha : a = 5 ∨ a = 6) (s : State) :
    (deriveStart a s).buf.toList = Reference.labelBlock a := by
  rw [deriveStart_buf, toList_fill_all, labelBlock_eq ha]

/-- Settles O23: the new job's H and BUF are filled throughout, with the seed and the padded label. -/
theorem initStartsTheDerivation : Obligations.InitStartsTheDerivation := by
  intro s a h
  exact ⟨_, _, congrArg Host.Outcome.next (opInit_derives a s h),
    (deriveStart_h_toList a (newJob a s)).trans seedState_eq,
    deriveStart_buf_toList (deriving_of_mustDerive h) (newJob a s)⟩

/-! ## The end of a derivation (R106, R108) -/

/-- A HashState of eight words is all of H. -/
theorem toList_take_nh {a : BitVec 3} (ha : a = 5 ∨ a = 6) (h : Vector Cell 8) :
    h.toList.take (params a).nh = h.toList := by
  obtain ⟨-, -, -, hnh, -⟩ := params_of_deriving ha
  rw [hnh, List.take_of_length_le (by simp)]

/-- The steps of a derivation leave the derived IV in H, and `deriveFinish` takes it from there (R108). -/
theorem engineSteps_deriveStart {a : BitVec 3} (ha : a = 5 ∨ a = 6) (s : State) :
    ∃ h wr ws t, engineSteps (stepsPerBlock a) (deriveStart a (newJob a s)) =
        deriveFinish { deriveStart a (newJob a s) with h := h, wr := wr, ws := ws, t := t, ph := .next } ∧
      h.toList = Reference.derivedIv a := by
  obtain ⟨h, wr, ws, t, hrun, hh⟩ := engineSteps_block (s := deriveStart a (newJob a s)) (by simp) rfl
  have hblock : (deriveStart a (newJob a s)).block = Reference.labelBlock a := by
    have hB : ∀ a : BitVec 3, a = 5 ∨ a = 6 → (params a).blockBytes = 128 := by decide
    rw [State.block, deriveStart_alg, newJob_alg, hB a ha, List.take_of_length_le (by simp), deriveStart_buf_toList ha]
  have hstate : (deriveStart a (newJob a s)).hashState = seedState := by
    rw [State.hashState, deriveStart_alg, newJob_alg, toList_take_nh ha, deriveStart_h_toList]
  refine ⟨h, wr, ws, t, hrun, hh.trans ?_⟩
  obtain ⟨-, -, -, hnh, -⟩ := params_of_deriving ha
  rw [hblock, hstate, deriveStart_alg, newJob_alg, hnh, List.drop_of_length_le (by simp), List.append_nil]
  rfl

/-- Settles O40: the derivation's one block leaves the derived IV in H, and its last step copies H to the cache. -/
theorem derivationFillsItsCache : Obligations.DerivationFillsItsCache := by
  intro s a _ hmust
  have ha := deriving_of_mustDerive hmust
  have hsteps : stepsPerBlock a = 148 := by rcases ha with rfl | rfl <;> rfl
  obtain ⟨h, wr, ws, t, hrun, hh⟩ := engineSteps_deriveStart ha s
  rw [hsteps] at hrun
  refine ⟨_, congrArg Host.Outcome.next (opInit_derives a s hmust), rfl, ?_⟩
  rw [hrun]
  rcases ha with rfl | rfl
  · rw [deriveFinish_224 _ rfl]
    simpa [State.busy] using hh
  · rw [deriveFinish_256 _ rfl]
    simpa [State.busy] using hh

/-! ## Listed values -/

/-- Settles O41, by the kernel's evaluation of the source's function. -/
theorem derivedIvsAreTheListedValues : Obligations.DerivedIvsAreTheListedValues := by
  constructor <;> decide +kernel

theorem iv_of_deriving {a : BitVec 3} (ha : a = 5 ∨ a = 6) : Reference.iv a = Reference.derivedIv a := if_pos ha

/-- The hash of an algorithm with a derived IV, from that IV's value (R106, R110). -/
theorem hash_of_derivedIv {a : BitVec 3} (ha : a = 5 ∨ a = 6) {l : List Cell} (hl : Reference.derivedIv a = l)
    (m : List Byte) : Reference.hash a m =
      (Reference.serial a ((Reference.blocks (params a).blockBytes
        (Reference.pad m (params a).blockBytes (params a).lenBytes)).foldl (Reference.compress a) l)).take
        (params a).dlen := by
  rw [Reference.hash, Reference.finalState, iv_of_deriving ha, hl]

/-- Settles O42, by the kernel's evaluation of the source's function, from the listed IVs where they are derived. -/
theorem digestsOfAbcAreTheListedValues : Obligations.DigestsOfAbcAreTheListedValues := by
  obtain ⟨h224, h256⟩ := derivedIvsAreTheListedValues
  refine ⟨by decide +kernel, by decide +kernel, by decide +kernel, by decide +kernel, by decide +kernel, ?_, ?_⟩
  · rw [hash_of_derivedIv (.inl rfl) h224]
    decide +kernel
  · rw [hash_of_derivedIv (.inr rfl) h256]
    decide +kernel

end Sys2Proof.Machine
end

section
/-! A message as whole blocks and the bytes after them (41_padding.md R80, R85): how both grow with the message, and
which blocks padding adds. -/

namespace Sys2Proof.Machine.Reference

/-- The bytes of a message after its whole blocks (R27). -/
def pending (B : Nat) (m : List Byte) : List Byte := m.drop (m.length / B * B)

theorem length_pending (B : Nat) (m : List Byte) : (pending B m).length = m.length % B := by
  rw [pending, List.length_drop, Nat.mod_eq_sub_div_mul]

theorem pending_of_lt {B : Nat} {m : List Byte} (h : m.length < B) : pending B m = m := by
  rw [pending, Nat.div_eq_of_lt h, Nat.zero_mul, List.drop_zero]

theorem blocks_of_lt {B : Nat} {m : List Byte} (h : m.length < B) : blocks B m = [] := by
  rw [blocks, Nat.div_eq_of_lt h]
  rfl

theorem blocks_of_length {B : Nat} (hB : 0 < B) {m : List Byte} (h : m.length = B) : blocks B m = [m] := by
  rw [blocks, h, Nat.div_self hB]
  simp [← h]

theorem block_fits {B n k : Nat} (hk : k < n / B) : k * B + B ≤ n := by
  have hmul : (k + 1) * B ≤ n := (Nat.mul_le_mul_right B hk).trans (Nat.div_mul_le_self n B)
  rwa [Nat.succ_mul] at hmul

theorem length_of_mem_blocks {B : Nat} {m b : List Byte} (hb : b ∈ blocks B m) : b.length = B := by
  obtain ⟨k, hk, rfl⟩ := List.mem_map.1 hb
  have hfit := block_fits (List.mem_range.1 hk)
  rw [List.length_take, List.length_drop]
  omega

/-- The whole blocks of a message do not change when it grows: the bytes after them grow. -/
theorem blocks_append {B : Nat} (hB : 0 < B) (m x : List Byte) :
    blocks B (m ++ x) = blocks B m ++ blocks B (pending B m ++ x) := by
  have hwhole : m.length / B * B ≤ m.length := Nat.div_mul_le_self _ _
  have hcount : (m ++ x).length / B = m.length / B + (pending B m ++ x).length / B := by
    have hlen : (m ++ x).length = (pending B m ++ x).length + m.length / B * B := by
      simp only [pending, List.length_append, List.length_drop]
      omega
    rw [hlen, Nat.add_mul_div_right _ _ hB, Nat.add_comm]
  rw [blocks, hcount, List.range_add, List.map_append, List.map_map]
  congr 1
  · refine List.map_congr_left fun k hk => ?_
    have hfit := block_fits (List.mem_range.1 hk)
    rw [List.drop_append_of_le_length (by omega), List.take_append_of_le_length (by rw [List.length_drop]; omega)]
  · refine List.map_congr_left fun k _ => ?_
    rw [pending, ← List.drop_append_of_le_length hwhole, List.drop_drop]
    simp only [Function.comp, Nat.add_mul]

theorem pending_append_of_lt {B : Nat} {m x : List Byte} (h : m.length % B + x.length < B) :
    pending B (m ++ x) = pending B m ++ x := by
  have hdiv : (m ++ x).length / B = m.length / B := by
    have := Nat.div_add_mod m.length B
    rw [List.length_append]
    exact Nat.div_eq_of_lt_le (by rw [Nat.mul_comm]; omega) (by rw [Nat.succ_mul, Nat.mul_comm]; omega)
  rw [pending, hdiv, List.drop_append_of_le_length (Nat.div_mul_le_self _ _), pending]

theorem blocks_append_of_lt {B : Nat} {m x : List Byte} (h : m.length % B + x.length < B) :
    blocks B (m ++ x) = blocks B m := by
  have hrest : (pending B m ++ x).length < B := by rwa [List.length_append, length_pending]
  rw [blocks_append (by omega), blocks_of_lt hrest, List.append_nil]

/-- Bytes that fill the block up complete it. -/
theorem blocks_append_of_full {B : Nat} (hB : 0 < B) {m x : List Byte} (h : m.length % B + x.length = B) :
    blocks B (m ++ x) = blocks B m ++ [pending B m ++ x] := by
  have hrest : (pending B m ++ x).length = B := by rwa [List.length_append, length_pending]
  rw [blocks_append hB, blocks_of_length hB hrest]

/-- A whole block at the front is the first. -/
theorem blocks_append_block {B : Nat} (hB : 0 < B) {b : List Byte} (h : b.length = B) (x : List Byte) :
    blocks B (b ++ x) = b :: blocks B x := by
  rw [blocks_append hB, blocks_of_length hB h, pending, h, Nat.div_self hB, Nat.one_mul, List.drop_of_length_le h.le]
  rfl

theorem flatten_blocks_append_pending (B : Nat) (m : List Byte) : (blocks B m).flatten ++ pending B m = m := by
  have htake : ∀ n, ((List.range n).map fun k => (m.drop (k * B)).take B).flatten = m.take (n * B) := by
    intro n
    induction n with
    | zero => simp
    | succ n ih => rw [List.range_succ, List.map_append, List.flatten_append, ih, Nat.succ_mul, List.take_add]; simp
  rw [blocks, htake, pending, List.take_append_drop]

/-! ## The blocks of a padded message (R80, R83) -/

section Padding

variable {B F : Nat} (hsize : B = 64 ∧ F = 8 ∨ B = 128 ∧ F = 16) (m : List Byte)

include hsize

/-- When the length field fits beside the last bytes, they share one block. -/
theorem blocks_pad_one (h : m.length % B + F < B) : blocks B (pad m B F) = blocks B m ++
    [pending B m ++ [0x80] ++ List.replicate (B - F - (m.length % B + 1)) 0 ++ be F (8 * m.length)] := by
  have hzero : zeroCount m.length B F = B - F - (m.length % B + 1) := by
    have := zeroCount_spec m.length hsize
    rcases hsize with ⟨rfl, rfl⟩ | ⟨rfl, rfl⟩ <;> omega
  rw [pad, hzero, List.append_assoc, List.append_assoc, blocks_append_of_full (by omega)]
  · simp only [List.append_assoc]
  · simp [length_be]
    omega

/-- When it does not, it fills a block of its own after zeros. -/
theorem blocks_pad_two (h : B ≤ m.length % B + F) : blocks B (pad m B F) = blocks B m ++
    [pending B m ++ [0x80] ++ List.replicate (B - (m.length % B + 1)) 0,
      List.replicate (B - F) 0 ++ be F (8 * m.length)] := by
  have hlt : m.length % B < B := Nat.mod_lt _ (by omega)
  have hzero : zeroCount m.length B F = B - (m.length % B + 1) + (B - F) := by
    have := zeroCount_spec m.length hsize
    rcases hsize with ⟨rfl, rfl⟩ | ⟨rfl, rfl⟩ <;> omega
  have hfirst : (pending B m ++ [0x80] ++ List.replicate (B - (m.length % B + 1)) 0).length = B := by
    simp [length_pending]
    omega
  have hsecond : (List.replicate (B - F) (0 : Byte) ++ be F (8 * m.length)).length = B := by
    simp [length_be]
    omega
  have hsplit : pending B m ++ ([0x80] ++ List.replicate (B - (m.length % B + 1) + (B - F)) 0 ++ be F (8 * m.length)) =
      pending B m ++ [0x80] ++ List.replicate (B - (m.length % B + 1)) 0 ++
        (List.replicate (B - F) 0 ++ be F (8 * m.length)) := by
    simp only [List.append_assoc, ← List.replicate_append_replicate]
  rw [pad, hzero, List.append_assoc, List.append_assoc, ← List.append_assoc [0x80], blocks_append (by omega), hsplit,
    blocks_append_block (by omega) hfirst, blocks_of_length (by omega) hsecond]

end Padding

end Sys2Proof.Machine.Reference
end

section
/-! A job between two of its accesses: what H, BUF and the counters hold of the bytes it has accepted, and how INIT, DATA
and FINAL, each with the engine steps it starts, carry that on to the digest (45_host_ops.md R120 to R123, R127). -/

namespace Sys2Proof.Machine

/-! ## Busy periods -/

/-- The engine steps that follow `u`, while it is busy, end in `t`. -/
def State.FinishesAs (u t : State) : Prop :=
  ∃ n, (∀ k, k < n → (engineSteps k u).busy = true) ∧ engineSteps n u = t

theorem State.finishesAs_self (u : State) : u.FinishesAs u := ⟨0, nofun, rfl⟩

/-- A busy period that starts at LOAD takes the steps of its blocks (R102). -/
theorem State.finishesAs_of_load {u : State} (ho : u.opk ≠ .none) (hp : u.ph = .load)
    (hpb : u.opk = .final → u.pb = 0) : u.FinishesAs (engineSteps
      (if u.opk = .final ∧ u.npb = .two then 2 * stepsPerBlock u.alg else stepsPerBlock u.alg) u) :=
  ⟨_, (busyPeriodsTakeTheCountedSteps.2 u ((busy_iff u).2 ho) hp hpb).1, rfl⟩

/-! ## The bytes accepted so far -/

/-- An active job of algorithm `a` that waits for its next bytes after it has accepted the bytes `m`: their whole
blocks are compressed, and the others stand in BUF. -/
structure State.HasAccepted (s : State) (a : BitVec 3) (m : List Byte) : Prop where
  idle : s.opk = .none
  active : s.js = .active
  no_error : s.errcode = .none
  algorithm : s.alg = a
  length : s.msglen.toNat = m.length
  count : s.bufcnt.toNat = m.length % (params a).blockBytes
  buffered : s.buf.toList.take s.bufcnt.toNat = Reference.pending (params a).blockBytes m
  compressed : s.hashState = (Reference.blocks (params a).blockBytes m).foldl (Reference.compress a) (Reference.iv a)

theorem State.HasAccepted.withHostSide {s : State} {a : BitVec 3} {m : List Byte} (hs : s.HasAccepted a m)
    (bus : List BusAccess) (turns : List Turn) : State.HasAccepted { s with bus := bus, turns := turns } a m where
  idle := hs.idle
  active := hs.active
  no_error := hs.no_error
  algorithm := hs.algorithm
  length := hs.length
  count := hs.count
  buffered := hs.buffered
  compressed := hs.compressed

theorem State.HasAccepted.withTurns {s : State} {a : BitVec 3} {m : List Byte} (hs : s.HasAccepted a m)
    (ts : List Turn) : (s.withTurns ts).HasAccepted a m := hs.withHostSide s.bus ts

/-- A job that is done: DIG holds the source's digest of the message, then zeros (R110 to R112). -/
structure State.HasFinished (s : State) (a : BitVec 3) (m : List Byte) : Prop where
  idle : s.opk = .none
  done : s.js = .done
  no_error : s.errcode = .none
  algorithm : s.alg = a
  length : s.msglen.toNat = m.length
  digest : s.dig.toList = Reference.hash a m ++ List.replicate (64 - (params a).dlen) 0

theorem State.HasFinished.withTurns {s : State} {a : BitVec 3} {m : List Byte} (hs : s.HasFinished a m)
    (ts : List Turn) : (s.withTurns ts).HasFinished a m where
  idle := hs.idle
  done := hs.done
  no_error := hs.no_error
  algorithm := hs.algorithm
  length := hs.length
  digest := hs.digest

/-! ## INIT -/

/-- A job with its IV in H has accepted the empty message (R106, R120). -/
theorem hasAccepted_nil {s : State} {a : BitVec 3} (hidle : s.opk = .none) (hjs : s.js = .active)
    (herr : s.errcode = .none) (halg : s.alg = a) (hlen : s.msglen = 0) (hcnt : s.bufcnt = 0)
    (hiv : s.hashState = Reference.iv a) : s.HasAccepted a [] where
  idle := hidle
  active := hjs
  no_error := herr
  algorithm := halg
  length := by simp [hlen]
  count := by simp [hcnt]
  buffered := by simp [hcnt, Reference.pending]
  compressed := by simpa [Reference.blocks] using hiv

/-- The job that INIT opens without a derivation (R120). -/
theorem newJob_hasAccepted {a : BitVec 3} {s : State} (hidle : s.opk = .none) {h : Vector Cell 8}
    (hiv : h.toList.take (params a).nh = Reference.iv a) : State.HasAccepted { newJob a s with h := h } a [] :=
  hasAccepted_nil hidle rfl rfl rfl rfl rfl hiv

/-- The published IVs as the lists that INIT copies (R105). -/
theorem map_getD_ivRom : ∀ a : BitVec 3, a.toNat ≤ 4 →
    ((List.range (params a).nh).map fun i => (ivRom a).getD i 0) = ivRom a := by decide

theorem iv_of_published {a : BitVec 3} (ha : a.toNat ≤ 4) : Reference.iv a = ivRom a :=
  if_neg (by rintro (rfl | rfl) <;> exact absurd ha (by decide))

/-- The end of a derivation changes the caches and ends the busy period, and nothing else (R108). -/
theorem deriveFinish_hashState (s : State) : (deriveFinish s).hashState = s.hashState := by
  rw [State.hashState, State.hashState, deriveFinish_h, deriveFinish_alg]

/-- An accepted INIT, with the derivation it may start, leaves the IV in H (R106, R120). -/
theorem opInit_hasAccepted {a : BitVec 3} (ha : a ≠ 7) {s : State} (hidle : s.opk = .none) (hc : s.CachesRight) :
    ∃ t, (opInit a s).FinishesAs t ∧ t.HasAccepted a [] := by
  rcases opInit_cases a s with ⟨rfl, -⟩ | ⟨hk, e⟩ | ⟨rfl, hv, e⟩ | ⟨rfl, hv, e⟩ | ⟨hk, e⟩
  · exact absurd rfl ha
  · obtain ⟨-, -, -, -, hnh, -⟩ := params_counts a
    have hiv := (map_getD_ivRom a hk).trans (iv_of_published hk).symm
    rw [e]
    exact ⟨_, State.finishesAs_self _, newJob_hasAccepted hidle ((take_toList_fill s.h hnh _).trans hiv)⟩
  · have hiv := (hc.1 hv).trans (iv_of_deriving (.inl rfl)).symm
    rw [e]
    exact ⟨_, State.finishesAs_self _, newJob_hasAccepted (a := 5) hidle ((toList_take_nh (.inl rfl) _).trans hiv)⟩
  · have hiv := (hc.2 hv).trans (iv_of_deriving (.inr rfl)).symm
    rw [e]
    exact ⟨_, State.finishesAs_self _, newJob_hasAccepted (a := 6) hidle ((toList_take_nh (.inr rfl) _).trans hiv)⟩
  · have hderive := deriving_of_mustDerive hk
    obtain ⟨h, wr, ws, t, hrun, hh⟩ := engineSteps_deriveStart hderive s
    have hfin := State.finishesAs_of_load (u := deriveStart a (newJob a s)) (by simp) rfl (by simp)
    rw [if_neg (by simp), deriveStart_alg, newJob_alg, hrun] at hfin
    rw [e]
    refine ⟨_, hfin, ?_⟩
    apply hasAccepted_nil <;> simp only [deriveFinish_opk, deriveFinish_js, deriveFinish_errcode, deriveFinish_alg,
      deriveFinish_msglen, deriveFinish_bufcnt, deriveFinish_hashState, deriveStart_js, deriveStart_errcode,
      deriveStart_alg, deriveStart_msglen, deriveStart_bufcnt, newJob_js, newJob_errcode, newJob_alg, newJob_msglen,
      newJob_bufcnt]
    exact (toList_take_nh hderive h).trans (hh.trans (iv_of_deriving hderive).symm)

/-! ## Appended bytes -/

/-- An array filled from `lo` up to `hi`, as far as `hi`: its elements below `lo` and the new ones. -/
theorem take_toList_fill_from {α : Type} {n : Nat} (v : Vector α n) {lo hi : Nat} (hlo : lo ≤ hi) (hhi : hi ≤ n)
    (f : Nat → α) : (fill v lo hi f).toList.take hi =
      v.toList.take lo ++ (List.range (hi - lo)).map fun i => f (lo + i) := by
  have hone : fill v lo hi f = fill (fill v 0 lo fun i => v.getD i (f 0)) lo hi f := by
    ext i hi
    simp only [getElem_fill]
    split
    · rfl
    split
    · exact (getD_of_lt v i hi _).symm
    · rfl
  rw [hone, take_toList_fill_fill v hlo hhi, ← toList_take v (hlo.trans hhi)]

section Append

variable {s : State} {a : BitVec 3} {m x : List Byte} (hs : s.HasAccepted a m) {n : Nat} (hn : x.length = n)
  {f : Nat → Byte} (hf : ∀ j, j < n → f j = x.getD j 0)

include hs hn

theorem appendBytes_count (hroom : m.length % (params a).blockBytes + n ≤ (params a).blockBytes) :
    (appendBytes n f s).bufcnt.toNat = m.length % (params a).blockBytes + n := by
  obtain ⟨hsize, -⟩ := params_block_sizes a
  rw [appendBytes_bufcnt, BitVec.toNat_add, BitVec.toNat_ofNat, hs.count]
  omega

theorem appendBytes_length (hmax : m.length + n ≤ lmax a) : (appendBytes n f s).msglen.toNat = (m ++ x).length := by
  rw [toNat_appendBytes_msglen (by rwa [hs.algorithm, hs.length]), hs.length, List.length_append, hn]

include hf

/-- The bytes of the unfinished block and the appended ones stand in BUF one after the other (R121, R123). -/
theorem appendBytes_buffered (hroom : m.length % (params a).blockBytes + n ≤ (params a).blockBytes) :
    (appendBytes n f s).buf.toList.take (m.length % (params a).blockBytes + n) =
      Reference.pending (params a).blockBytes m ++ x := by
  obtain ⟨hsize, -⟩ := params_block_sizes a
  have hx : ((List.range n).map fun i => f i) = x := by
    apply List.ext_getElem
    · simp [hn]
    · intro i h1 h2
      simp [hf i (hn ▸ h2), h2]
  rw [appendBytes_buf, hs.count, take_toList_fill_from s.buf (Nat.le_add_right _ _) (by omega), ← hs.count,
    hs.buffered, Nat.add_sub_cancel_left]
  simp only [Nat.add_sub_cancel_left, hx]

/-- Bytes that do not fill the block up are accepted by being appended. -/
theorem appendBytes_hasAccepted (hroom : m.length % (params a).blockBytes + n < (params a).blockBytes)
    (hmax : m.length + n ≤ lmax a) : (appendBytes n f s).HasAccepted a (m ++ x) where
  idle := hs.idle
  active := hs.active
  no_error := hs.no_error
  algorithm := hs.algorithm
  length := appendBytes_length hs hn hmax
  count := by
    rw [appendBytes_count hs hn hroom.le, List.length_append, hn, ← Nat.mod_add_mod, Nat.mod_eq_of_lt hroom]
  buffered := by
    rw [appendBytes_count hs hn hroom.le, appendBytes_buffered hs hn hf hroom.le,
      Reference.pending_append_of_lt (by rwa [hn])]
  compressed := by
    rw [Reference.blocks_append_of_lt (by rwa [hn]), ← hs.compressed]
    rfl

/-! ## DATA -/

/-- Bytes that fill the block up are accepted by its compression (R100, R123). -/
theorem fullBlock_hasAccepted (hroom : m.length % (params a).blockBytes + n = (params a).blockBytes)
    (hmax : m.length + n ≤ lmax a) :
    ∃ t, State.FinishesAs { appendBytes n f s with opk := .block, ph := .load } t ∧ t.HasAccepted a (m ++ x) := by
  obtain rfl := hs.algorithm
  have hblock := appendBytes_buffered hs hn hf hroom.le
  obtain ⟨h, wr, ws, t, ph, hrun, hh⟩ :=
    dataBlockStepsCompress { appendBytes n f s with opk := .block, ph := .load } rfl rfl
  have hfin :=
    State.finishesAs_of_load (u := { appendBytes n f s with opk := .block, ph := .load }) (by simp) rfl (by simp)
  rw [if_neg (by simp), hrun] at hfin
  have hmod : (m ++ x).length % (params s.alg).blockBytes = 0 := by
    rw [List.length_append, hn, ← Nat.mod_add_mod, hroom, Nat.mod_self]
  have hpending : Reference.pending (params s.alg).blockBytes (m ++ x) = [] := by
    rw [← List.length_eq_zero_iff, Reference.length_pending, hmod]
  exact ⟨_, hfin, {
    idle := rfl
    active := hs.active
    no_error := hs.no_error
    algorithm := rfl
    length := appendBytes_length hs hn (f := f) hmax
    count := hmod.symm
    buffered := hpending.symm
    compressed := by
      obtain ⟨hsize, -⟩ := params_block_sizes s.alg
      rw [Reference.blocks_append_of_full (by omega) (by rwa [hn]), List.foldl_append, ← hs.compressed, ← hblock,
        hroom]
      exact hashState_of_toList hh (Reference.length_compress _ (length_hashState _) _) }⟩

end Append

/-- The bytes of a packed word (R53). -/
theorem laneByte_pack (x : List Byte) : ∀ j, j < 4 → laneByte (Assembler.pack x) j = x.getD j 0 := by
  obtain ⟨h0, h1, h2, h3⟩ := bytes_of_append (x.getD 0 0) (x.getD 1 0) (x.getD 2 0) (x.getD 3 0)
  intro j hj
  interval_cases j
  · exact h0
  · exact h1
  · exact h2
  · exact h3

/-- An accepted DATA, with the block it may complete, accepts its four bytes (R123). -/
theorem opData_hasAccepted {s : State} {a : BitVec 3} {m x : List Byte} (hs : s.HasAccepted a m) (hx : x.length = 4)
    (h4 : m.length % 4 = 0) (hmax : m.length + 4 ≤ lmax a) :
    ∃ t, (opData (Assembler.pack x) s).FinishesAs t ∧ t.HasAccepted a (m ++ x) := by
  have hbytes := laneByte_pack x
  obtain ⟨hsize, -⟩ := params_block_sizes a
  have hroom : m.length % (params a).blockBytes + 4 ≤ (params a).blockBytes := by
    rcases hsize with ⟨hB, -⟩ | ⟨hB, -⟩ <;> rw [hB] <;> omega
  rcases opData_cases (Assembler.pack x) s with ⟨hjs, -⟩ | ⟨-, hover, -⟩ | ⟨-, -, e⟩
  · exact absurd hs.active hjs
  · rw [hs.algorithm, hs.length] at hover
    omega
  have hcount := appendBytes_count hs hx (f := laneByte (Assembler.pack x)) hroom
  rw [e]
  by_cases hfull : m.length % (params a).blockBytes + 4 = (params a).blockBytes
  · rw [startFullBlock_full _ (by rw [hcount, hfull, appendBytes_alg, hs.algorithm])]
    exact fullBlock_hasAccepted hs hx hbytes hfull hmax
  · rw [startFullBlock_more _ (by rwa [hcount, appendBytes_alg, hs.algorithm])]
    exact ⟨_, State.finishesAs_self _, appendBytes_hasAccepted hs hx hbytes (by omega) hmax⟩

/-! ## FINAL -/

/-- `pad_first` where the length field fits beside the message bytes (R83, R84). -/
theorem padFirst_block_one {s : State} (h : s.bufcnt.toNat ≤ (params s.alg).blockBytes - (params s.alg).lenBytes - 1) :
    (padFirst s).block = s.buf.toList.take s.bufcnt.toNat ++ [0x80] ++
      List.replicate ((params s.alg).blockBytes - (params s.alg).lenBytes - (s.bufcnt.toNat + 1)) 0 ++
      Reference.be (params s.alg).lenBytes (8 * s.msglen.toNat) := by
  obtain ⟨hsize, -⟩ := params_block_sizes s.alg
  have hlen : (params s.alg).blockBytes - ((params s.alg).blockBytes - (params s.alg).lenBytes) =
      (params s.alg).lenBytes := by omega
  rw [State.block, padFirst_alg]
  simp only [padFirst, if_pos h, putLength]
  rw [take_toList_fill_from _ (by omega) (by omega), take_toList_fill_from _ (by omega) (by omega),
    take_toList_fill_from _ (by omega) (by omega), hlen, Nat.add_sub_cancel_left]
  simp only [Nat.add_sub_cancel_left, List.map_const', List.length_range]
  rfl

/-- `pad_first` where it does not (R83). -/
theorem padFirst_block_two {s : State} (h : ¬s.bufcnt.toNat ≤ (params s.alg).blockBytes - (params s.alg).lenBytes - 1)
    (hlt : s.bufcnt.toNat < (params s.alg).blockBytes) :
    (padFirst s).block = s.buf.toList.take s.bufcnt.toNat ++ [0x80] ++
      List.replicate ((params s.alg).blockBytes - (s.bufcnt.toNat + 1)) 0 := by
  obtain ⟨hsize, -⟩ := params_block_sizes s.alg
  rw [State.block, padFirst_alg]
  simp only [padFirst, if_neg h]
  rw [take_toList_fill_from _ (by omega) (by omega), take_toList_fill_from _ (by omega) (by omega),
    Nat.add_sub_cancel_left]
  simp only [List.map_const', List.length_range]
  rfl

/-- FINAL's padded blocks after the whole blocks of the message end in the source's HashState (R83, R85, R104). -/
theorem padFirst_finalState {s : State} {a : BitVec 3} {m : List Byte} (hs : s.HasAccepted a m) :
    (if (padFirst s).npb = .two then
        Reference.compress a (Reference.compress a s.hashState (padFirst s).block) s.secondBlock
      else Reference.compress a s.hashState (padFirst s).block) = Reference.finalState a m := by
  obtain rfl := hs.algorithm
  obtain ⟨hsize, -⟩ := params_block_sizes s.alg
  have hlt : m.length % (params s.alg).blockBytes < (params s.alg).blockBytes := Nat.mod_lt _ (by omega)
  have htwo := padFirst_npb_eq_two_iff s
  rw [hs.count] at htwo
  rw [Reference.finalState]
  by_cases hfit : m.length % (params s.alg).blockBytes + (params s.alg).lenBytes < (params s.alg).blockBytes
  · rw [if_neg (mt htwo.1 (by omega)), Reference.blocks_pad_one hsize m hfit, List.foldl_append, ← hs.compressed,
      padFirst_block_one (by rw [hs.count]; omega), hs.buffered, hs.count, hs.length]
    rfl
  · rw [if_pos (htwo.2 (by omega)), Reference.blocks_pad_two hsize m (by omega), List.foldl_append, ← hs.compressed,
      padFirst_block_two (by rw [hs.count]; omega) (by rwa [hs.count]), hs.buffered, hs.count, State.secondBlock,
      hs.length]
    rfl

/-- The work that FINAL starts, once the tail bytes are appended, finishes the job (R100, R110 to R112). -/
theorem padFirst_hasFinished {s : State} {a : BitVec 3} {m : List Byte} (hs : s.HasAccepted a m) :
    ∃ t, State.FinishesAs { padFirst s with opk := .final, pb := 0, ph := .load } t ∧ t.HasFinished a m := by
  have hstate := padFirst_finalState hs
  obtain rfl := hs.algorithm
  obtain ⟨h, wr, ws, t, ph, pb, buf, dig, hrun, -, hdig⟩ :=
    finalStepsFinishTheJob { padFirst s with opk := .final, pb := 0, ph := .load } rfl rfl rfl
  have hfin := State.finishesAs_of_load (u := { padFirst s with opk := .final, pb := 0, ph := .load }) (by simp) rfl
    fun _ => rfl
  simp only [true_and] at hfin
  rw [hrun] at hfin
  simp only [State.hashState, State.block, padFirst_h, padFirst_alg, padFirst_msglen] at hdig hstate
  exact ⟨_, hfin, {
    idle := rfl
    done := rfl
    no_error := (padFirst_errcode s).trans hs.no_error
    algorithm := padFirst_alg s
    length := (congrArg BitVec.toNat (padFirst_msglen s)).trans hs.length
    digest := by rw [hdig, Reference.hash, ← hstate] }⟩

/-- An accepted FINAL accepts its tail bytes and finishes the job (R121). -/
theorem opFinal_hasFinished {s : State} {a : BitVec 3} {m x : List Byte} (hs : s.HasAccepted a m) {nb : BitVec 2}
    (hnb : x.length = nb.toNat) (h4 : m.length % 4 = 0) (hmax : m.length + nb.toNat ≤ lmax a) :
    ∃ t, (opFinal nb (x.getD 0 0) (x.getD 1 0) (x.getD 2 0) s).FinishesAs t ∧ t.HasFinished a (m ++ x) := by
  have hbytes : ∀ j, j < nb.toNat → tailByte (x.getD 0 0) (x.getD 1 0) (x.getD 2 0) j = x.getD j 0 := by
    intro j hj
    have : j < 3 := by omega
    interval_cases j <;> rfl
  obtain ⟨hsize, -⟩ := params_block_sizes a
  have hroom : m.length % (params a).blockBytes + nb.toNat < (params a).blockBytes := by
    rcases hsize with ⟨hB, -⟩ | ⟨hB, -⟩ <;> rw [hB] <;> omega
  rcases opFinal_cases nb (x.getD 0 0) (x.getD 1 0) (x.getD 2 0) s with ⟨hjs, -⟩ | ⟨-, hover, -⟩ | ⟨-, -, e⟩
  · exact absurd hs.active hjs
  · rw [hs.algorithm, hs.length] at hover
    omega
  · rw [e]
    exact padFirst_hasFinished (appendBytes_hasAccepted hs hnb hbytes hroom hmax)

end Sys2Proof.Machine
end

section
/-! The run of a `hash` sequence, in whatever order the host and the engine take their turns (30_encoding.md R61,
45_host_ops.md R127), and that the digest depends on the algorithm and the message alone (O45). -/

namespace Sys2Proof.Machine

/-! ## Runs one after the other -/

theorem run_add (M : Host.Core) (m n : Nat) {s t : M.State} (h : M.run m s = .next t) :
    M.run (m + n) s = M.run n t := by
  induction m generalizing s with
  | zero =>
    cases h
    rw [Nat.zero_add]
  | succ m ih =>
    rw [Nat.succ_add]
    cases hstep : M.step s with
    | next u =>
      rw [run_of_next M _ s u hstep] at h ⊢
      exact ih h
    | fault r => simp [Host.Core.run, hstep] at h
    | refused r => simp [Host.Core.run, hstep] at h

/-- Some run from `s` ends in `t`. -/
def State.Leads (s t : State) : Prop := ∃ n, Sys2Proof.core.run n s = .next t

theorem State.Leads.trans {s t u : State} (hst : s.Leads t) (htu : t.Leads u) : s.Leads u := by
  obtain ⟨m, hm⟩ := hst
  obtain ⟨n, hn⟩ := htu
  exact ⟨m + n, (run_add Sys2Proof.core m n hm).trans hn⟩

/-! ## The accesses still to come -/

/-- The host has yet to issue `bus` to the window at `base`, each of its accesses waits while BUSY = 1, and no reset
comes. -/
structure State.Issues (s : State) (base : Nat) (bus : List BusAccess) : Prop where
  bus_eq : s.bus = bus
  base_eq : s.cfg.base = base
  waits : ∀ x ∈ bus, waitsWhileBusy base x = true
  no_reset : Turn.reset ∉ s.turns

/-- While BUSY = 1 such a host waits (R116). -/
theorem State.Issues.waiting {s : State} {base : Nat} {bus : List BusAccess} (hs : s.Issues base bus)
    (hbusy : s.busy = true) : s.bus = [] ∨ s.holds = true := by
  obtain ⟨rfl, rfl, hwaits, -⟩ := hs
  cases hbus : s.bus with
  | nil => exact .inl rfl
  | cons x rest =>
    refine .inr ?_
    rw [State.holds, hbusy, hbus, Bool.true_and]
    exact hwaits x (by simp [hbus])

/-- No operation touches the host's accesses and choices, nor the window's address. -/
theorem exec_keeps_host {i : Instr} {s t : State} (h : exec i s = .next t) :
    t.bus = s.bus ∧ t.turns = s.turns ∧ t.cfg = s.cfg := by
  obtain ⟨u, hu, hcases⟩ := exec_cases i s
  cases hu.symm.trans h
  rcases hcases with rfl | ⟨x, rfl⟩ | ⟨a, rfl⟩ | ⟨nb, tb0, tb1, tb2, rfl⟩ | rfl | ⟨v, rfl⟩
  · simp
  · simp
  · rcases opInit_cases a s with ⟨-, e⟩ | ⟨-, e⟩ | ⟨-, -, e⟩ | ⟨-, -, e⟩ | ⟨-, e⟩ <;> simp [e]
  · rcases opFinal_cases nb tb0 tb1 tb2 s with ⟨-, e⟩ | ⟨-, -, e⟩ | ⟨-, -, e⟩ <;> simp [e]
  · simp
  · rcases opData_cases v s with ⟨-, e⟩ | ⟨-, -, e⟩ | ⟨-, -, e⟩ <;> simp [e]

theorem engineSteps_keeps_host (n : Nat) (s : State) :
    (engineSteps n s).bus = s.bus ∧ (engineSteps n s).turns = s.turns ∧ (engineSteps n s).cfg = s.cfg := by
  induction n generalizing s with
  | zero => exact ⟨rfl, rfl, rfl⟩
  | succ n ih =>
    have hmove := engineMove_engineStep s
    obtain ⟨hbus, hturns, -⟩ := hmove.keeps_host
    obtain ⟨-, -, -, hcfg⟩ := hmove.keeps_job
    obtain ⟨hbus', hturns', hcfg'⟩ := ih (engineStep s)
    exact ⟨hbus'.trans hbus, hturns'.trans hturns, hcfg'.trans hcfg⟩

/-- An access issued while SHAENG is idle takes effect, and the engine work it starts is done before the next one,
whoever's turns they are (R115, R116). -/
theorem leads_of_access {s u t : State} {base : Nat} {x : BusAccess} {rest : List BusAccess} {i : Instr}
    (hs : s.Issues base (x :: rest)) (hidle : s.opk = .none) (hdec : decodeAccess base x = .ok i)
    (hexec : exec i { s with bus := rest, turns := s.turns.tail } = .next u) (hfin : u.FinishesAs t) :
    ∃ ts, s.Leads (t.withTurns ts) ∧ (t.withTurns ts).Issues base rest := by
  obtain ⟨hbus, rfl, hwaits, hreset⟩ := hs
  obtain ⟨n, hbusy, rfl⟩ := hfin
  obtain ⟨hubus, huturns, hucfg⟩ : u.bus = rest ∧ u.turns = s.turns.tail ∧ u.cfg = s.cfg := exec_keeps_host hexec
  have hturn : s.turns.head? ≠ some .reset := fun h => hreset (List.mem_of_mem_head? h)
  have hstep : step s = .next u :=
    (stepRunsTheDecodedAccess s x rest i hbus hdec (.inl ⟨(not_busy_iff s).2 hidle, hturn⟩)).trans hexec
  have hu : u.Issues s.cfg.base rest := {
    bus_eq := hubus
    base_eq := congrArg Config.base hucfg
    waits := fun y hy => hwaits y (List.mem_cons_of_mem x hy)
    no_reset := fun h => hreset (List.mem_of_mem_tail (huturns ▸ h)) }
  have hrun := run_of_waiting n hu.no_reset hu.waiting hbusy
  obtain ⟨hbus', -, hcfg'⟩ := engineSteps_keeps_host n u
  exact ⟨_, ⟨n + 1, (run_of_next Sys2Proof.core n s u hstep).trans hrun⟩, {
    bus_eq := hbus'.trans hubus
    base_eq := (congrArg Config.base hcfg').trans hu.base_eq
    waits := hu.waits
    no_reset := fun h => hu.no_reset (List.mem_of_mem_drop h) }⟩

/-! ## The accesses of `hash` (R60, R61) -/

theorem decodeAccess_wr_cmd (base : Nat) (v : BusWord) :
    decodeAccess base (Assembler.wr base 0x00 v) = .ok (.wrCmd v) :=
  decodeAccess_at_offset base (off := 0x00) rfl

theorem decodeAccess_data (base : Nat) (v : BusWord) : decodeAccess base (Assembler.data base v) = .ok (.wrData v) :=
  decodeAccess_at_offset base (off := 0x08) rfl

/-- `init` writes INIT's word to CMD. -/
theorem exec_init_word (base : Nat) (a : BitVec 3) (s : State) :
    exec (.wrCmd (Assembler.init base a).v) s = .next (opInit a s) := by
  have hword : ∀ a : BitVec 3, decodeCmd (Assembler.init 0 a).v = .init a := by decide
  exact (exec_wrCmd_eq_exec_decodeCmd _ s).trans (congrArg (exec · s) (hword a))

/-- The opcode and NB of FINAL's word stand in its lowest byte (R52). -/
theorem final_low_byte : ∀ n, n < 4 → (0x00000002 : BusWord) ||| (BitVec.ofNat 32 n <<< 4) =
    (0 : BitVec 24) ++ ((0 : BitVec 2) ++ BitVec.ofNat 2 n ++ (2 : BitVec 4)) := by decide

/-- The word of a FINAL with at most three tail bytes, by its fields (R52, R55). -/
theorem final_word (base : Nat) {x : List Byte} (hx : x.length < 4) : (Assembler.final base x).v =
    x.getD 0 0 ++ x.getD 1 0 ++ x.getD 2 0 ++ (0 : BitVec 2) ++ BitVec.ofNat 2 x.length ++ (2 : BitVec 4) := by
  have hlast : x.getD 3 0 = 0 := List.getD_eq_default _ _ (by omega)
  have hv : (Assembler.final base x).v =
    (0x00000002 : BusWord) ||| (BitVec.ofNat 32 x.length <<< 4) ||| Assembler.pack x := rfl
  rw [hv, final_low_byte _ hx, Assembler.pack, hlast]
  refine BitVec.or_append.trans (BitVec.eq_of_toNat_eq ?_)
  simp only [BitVec.ofNat_eq_ofNat, BitVec.zero_or, BitVec.or_zero, toNat_append_eq]
  omega

/-- `final` writes FINAL's word to CMD. -/
theorem exec_final_word (base : Nat) {x : List Byte} (hx : x.length < 4) (s : State) :
    exec (.wrCmd (Assembler.final base x).v) s =
      .next (opFinal (BitVec.ofNat 2 x.length) (x.getD 0 0) (x.getD 1 0) (x.getD 2 0) s) := by
  rw [exec_wrCmd_eq_exec_decodeCmd, final_word base hx, decodeCmd_final_word]
  rfl

/-- `hash` by the groups of four bytes of its message. -/
theorem hash_eq (base : Nat) (a : BitVec 3) (m : List Byte) : Assembler.hash base a m =
    Assembler.init base a :: ((Reference.blocks 4 m).map fun x => Assembler.data base (Assembler.pack x)) ++
      [Assembler.final base (Reference.pending 4 m)] := by
  simp only [Assembler.hash, Reference.blocks, Reference.pending, List.map_map, Nat.mul_comm 4, Function.comp_def]

/-- Every access of `hash` is a write to CMD or DATA, which waits while BUSY = 1 (R116). -/
theorem hash_waits (base : Nat) (a : BitVec 3) (m : List Byte) :
    ∀ x ∈ Assembler.hash base a m, waitsWhileBusy base x = true := by
  have hcmd : ∀ v, waitsWhileBusy base (Assembler.wr base 0x00 v) = true := fun v => by
    rw [waitsWhileBusy, decodeAccess_wr_cmd]
  have hdata : ∀ v, waitsWhileBusy base (Assembler.data base v) = true := fun v => by
    rw [waitsWhileBusy, decodeAccess_data]
  intro x hx
  simp only [Assembler.hash, List.cons_append, List.mem_cons, List.mem_append, List.mem_map, List.not_mem_nil,
    or_false] at hx
  rcases hx with rfl | ⟨k, -, rfl⟩ | rfl
  · exact hcmd _
  · exact hdata _
  · exact hcmd _

/-! ## The run -/

/-- The DATA writes of a job accept their bytes one group after the other (R123). -/
theorem leads_of_data {base : Nat} {a : BitVec 3} {last : BusAccess} (xs : List (List Byte))
    (hxs : ∀ x ∈ xs, x.length = 4) {s : State} {m : List Byte} (h4 : m.length % 4 = 0)
    (hmax : (m ++ xs.flatten).length ≤ lmax a) (hm : s.HasAccepted a m)
    (hs : s.Issues base ((xs.map fun x => Assembler.data base (Assembler.pack x)) ++ [last])) :
    ∃ t, s.Leads t ∧ t.HasAccepted a (m ++ xs.flatten) ∧ t.Issues base [last] := by
  induction xs generalizing s m with
  | nil => exact ⟨s, ⟨0, rfl⟩, by simpa using hm, hs⟩
  | cons x xs ih =>
    have hx : x.length = 4 := hxs x (by simp)
    rw [List.flatten_cons, ← List.append_assoc] at hmax ⊢
    have hle : m.length + 4 ≤ lmax a := by
      simp only [List.length_append, hx] at hmax
      omega
    obtain ⟨t, hfin, ht⟩ := opData_hasAccepted (hm.withHostSide _ s.turns.tail) hx h4 hle
    obtain ⟨ts, hleads, hissues⟩ := leads_of_access hs hm.idle (decodeAccess_data base _) rfl hfin
    obtain ⟨u, hleads', hu⟩ := ih (fun y hy => hxs y (by simp [hy])) (m := m ++ x)
      (by rw [List.length_append, hx]; omega) hmax (ht.withTurns ts) hissues
    exact ⟨u, hleads.trans hleads', hu⟩

/-- A `hash` sequence from an idle state whose valid caches are right ends with the job done (R127). -/
theorem leads_of_hash {s : State} {a : BitVec 3} {m : List Byte} (ha : a ≠ 7) (hidle : s.opk = .none)
    (hc : s.CachesRight) (hissue : s.issuesHash a m) (hmax : m.length ≤ lmax a) :
    ∃ t, s.Leads t ∧ t.HasFinished a m ∧ t.bus = [] := by
  obtain ⟨hbus, hreset⟩ := hissue
  have hs : s.Issues s.cfg.base (Assembler.hash s.cfg.base a m) := ⟨hbus, rfl, hash_waits _ a m, hreset⟩
  rw [hash_eq] at hs
  obtain ⟨t₁, hfin₁, ht₁⟩ := opInit_hasAccepted ha (s := { s with bus := _, turns := s.turns.tail }) hidle hc
  obtain ⟨ts₁, hleads₁, hissues₁⟩ := leads_of_access hs hidle (decodeAccess_wr_cmd _ _)
    (exec_init_word s.cfg.base a _) hfin₁
  have hsplit := Reference.flatten_blocks_append_pending 4 m
  have hrest : (Reference.pending 4 m).length < 4 := by
    rw [Reference.length_pending]
    exact Nat.mod_lt _ (by decide)
  have hlen : (Reference.blocks 4 m).flatten.length + (Reference.pending 4 m).length = m.length := by
    rw [← List.length_append, hsplit]
  obtain ⟨t₂, hleads₂, ht₂, hissues₂⟩ := leads_of_data _ (fun _ => Reference.length_of_mem_blocks) rfl
    (by rw [List.nil_append]; omega) (ht₁.withTurns ts₁) hissues₁
  have hnb : (Reference.pending 4 m).length = (BitVec.ofNat 2 (Reference.pending 4 m).length).toNat := by
    rw [BitVec.toNat_ofNat]
    omega
  obtain ⟨t₃, hfin₃, ht₃⟩ := opFinal_hasFinished (ht₂.withHostSide [] t₂.turns.tail) hnb
    (by rw [List.nil_append]; rw [Reference.length_pending] at hlen; omega) (by rw [List.nil_append, ← hnb]; omega)
  obtain ⟨ts₃, hleads₃, hissues₃⟩ := leads_of_access hissues₂ ht₂.idle (decodeAccess_wr_cmd _ _)
    (exec_final_word s.cfg.base hrest _) hfin₃
  rw [List.nil_append, hsplit] at ht₃
  exact ⟨_, hleads₁.trans (hleads₂.trans hleads₃), ht₃.withTurns ts₃, hissues₃.bus_eq⟩

/-- Settles O45: both runs leave the source's digest of the message in DIG, and zeros after it. -/
theorem sameMessageGivesTheSameDigest : Obligations.SameMessageGivesTheSameDigest := by
  intro s₁ s₂ a m ha hmax hidle₁ hidle₂ hc₁ hc₂ hissue₁ hissue₂
  obtain ⟨t₁, ⟨n₁, hrun₁⟩, ht₁, hbus₁⟩ := leads_of_hash ha ((not_busy_iff s₁).1 hidle₁) hc₁ hissue₁ hmax
  obtain ⟨t₂, ⟨n₂, hrun₂⟩, ht₂, hbus₂⟩ := leads_of_hash ha ((not_busy_iff s₂).1 hidle₂) hc₂ hissue₂ hmax
  exact ⟨n₁, n₂, t₁, t₂, hrun₁, hrun₂, hbus₁, hbus₂, ht₁.done, ht₂.done,
    Vector.toList_inj.1 (ht₁.digest.trans ht₂.digest.symm)⟩

end Sys2Proof.Machine
end

section
/-! The host operations (45_host_ops.md): what an access does when it takes effect (O11, O13, O17, O18, O20 to O22, O24,
O25), how long it is held (O9), and where a hash sequence ends (O44). -/

namespace Sys2Proof.Machine

/-! ## Reads (R37, R38, R124 to R126) -/

/-- Settles O11: what each read answers does not depend on what the last one answered. -/
theorem readsOnlyAnswerTheHost : Obligations.ReadsOnlyAnswerTheHost := by
  rintro s i (rfl | rfl | rfl | ⟨n, rfl⟩ | ⟨off, rfl⟩)
  · exact ⟨s.status, rfl, rfl⟩
  · exact ⟨s.msglen.extractLsb' 0 32, rfl, rfl⟩
  · exact ⟨s.msglen.extractLsb' 32 32, rfl, rfl⟩
  · exact ⟨digestWord s.dig n, rfl, rfl⟩
  · exact ⟨0, rfl, rfl⟩

/-- Settles O13: the two answers are the quotient and the remainder of MSGLEN by 2^32. -/
theorem msglenReadsReturnTheHalves : Obligations.MsglenReadsReturnTheHalves := by
  intro s
  refine ⟨s.msglen.extractLsb' 0 32, s.msglen.extractLsb' 32 32, rfl, rfl, ?_⟩
  simp only [toNat_field]
  omega

/-! ## Commands without data (R118, R119, R122) -/

/-- Settles O17: the encoding of what a word decodes to gives the word back, and NOP's encoding is 0. -/
theorem nopHasNoEffect : Obligations.NopHasNoEffect := by
  refine ⟨fun v => ⟨fun h => ?_, ?_⟩, fun _ => rfl⟩
  · have hword : encode .nop = .cmd v := h ▸ encode_decodeCmd v
    exact (Transfer.cmd.inj hword).symm
  · rintro rfl
    exact decodeCmd_of_opcode_zero rfl

/-- Settles O18: each of the four malformed commands records BAD_CMD. -/
theorem malformedCommandRecordsBadCmd : Obligations.MalformedCommandRecordsBadCmd := by
  rintro s v i (rfl | rfl | rfl | rfl)
  all_goals exact congrArg Host.Outcome.next (opRsvd_eq_raiseError s)

/-- Settles O20: CMD is the register at offset 0, and every operation answers a next state. -/
theorem commandWriteRunsTheSelectedOperation : Obligations.CommandWriteRunsTheSelectedOperation := by
  intro v s
  obtain ⟨t, ht, -⟩ := exec_cases (.wrCmd v) s
  exact ⟨decodeBus_write (off := 0x00) rfl v, exec_wrCmd_eq_exec_decodeCmd v s, t, ht⟩

/-! ## INIT (R105, R106, R120) -/

/-- The published IVs have NH words (R105). -/
theorem length_ivRom : ∀ a : BitVec 3, a.toNat ≤ 4 → (ivRom a).length = (params a).nh := by decide

/-- Settles O21: the first NH words of H are filled from IVROM. -/
theorem initLoadsThePublishedIv : Obligations.InitLoadsThePublishedIv := by
  intro s a ha
  have hlen := length_ivRom a ha
  obtain ⟨-, -, -, -, hnh, -⟩ := params_counts a
  refine ⟨_, congrArg Host.Outcome.next (opInit_published a s ha), ?_⟩
  rw [hlen]
  exact toList_fill_prefix s.h (params a).nh (ivRom a) 0 hlen hnh

/-- Settles O22: INIT finds the valid bit of its cache set. -/
theorem initCopiesAValidCache : Obligations.InitCopiesAValidCache := fun s =>
  ⟨fun h => congrArg Host.Outcome.next (opInit_cached224 s h),
    fun h => congrArg Host.Outcome.next (opInit_cached256 s h)⟩

/-! ## DATA (R123) -/

theorem opData_accepted {s : State} (hjs : s.js = .active) (hmax : s.msglen.toNat + 4 ≤ lmax s.alg) (v : BusWord) :
    opData v s = startFullBlock (appendBytes 4 (laneByte v) s) := by
  rcases opData_cases v s with ⟨hno, -⟩ | ⟨-, hover, -⟩ | ⟨-, -, e⟩
  · exact absurd hjs hno
  · omega
  · exact e

/-- A full block sets OPK and PH, and nothing else changes (R123). -/
theorem startFullBlock_eq (s : State) : startFullBlock s =
    { s with
      opk := if s.bufcnt.toNat = (params s.alg).blockBytes then .block else s.opk
      ph := if s.bufcnt.toNat = (params s.alg).blockBytes then .load else s.ph } := by
  by_cases hfull : s.bufcnt.toNat = (params s.alg).blockBytes
  · rw [startFullBlock_full s hfull, if_pos hfull, if_pos hfull]
  · rw [startFullBlock_more s hfull, if_neg hfull, if_neg hfull]

theorem getElem_appendBytes_buf (n : Nat) (f : Nat → Byte) (s : State) {i : Nat} (hi : i < 128) :
    (appendBytes n f s).buf[i] =
      if s.bufcnt.toNat ≤ i ∧ i < s.bufcnt.toNat + n then f (i - s.bufcnt.toNat) else s.buf[i] := by
  simp only [appendBytes_buf, getElem_fill]

/-- The four bytes of a DATA value in BUF, the earliest from bits [31:24] (R53, R123). -/
theorem getElem_buf_of_data (v : BusWord) (s : State) {i : Nat} (hi : i < 128) :
    (appendBytes 4 (laneByte v) s).buf[i] =
      if i = s.bufcnt.toNat then v.extractLsb' 24 8
      else if i = s.bufcnt.toNat + 1 then v.extractLsb' 16 8
      else if i = s.bufcnt.toNat + 2 then v.extractLsb' 8 8
      else if i = s.bufcnt.toNat + 3 then v.extractLsb' 0 8
      else s.buf[i] := by
  rw [getElem_appendBytes_buf]
  by_cases hnew : s.bufcnt.toNat ≤ i ∧ i < s.bufcnt.toNat + 4
  · obtain ⟨j, rfl⟩ := Nat.exists_eq_add_of_le hnew.1
    have hj : j < 4 := by omega
    rw [if_pos hnew, Nat.add_sub_cancel_left]
    interval_cases j <;> simp [laneByte]
  · rw [if_neg hnew, if_neg (by omega), if_neg (by omega), if_neg (by omega), if_neg (by omega)]

/-- Settles O24: the four bytes fit in the block, and the engine was idle. -/
theorem dataAppendsFourBytes : Obligations.DataAppendsFourBytes := by
  intro s v hs hidle hjs hmax
  have hopk := (not_busy_iff s).1 hidle
  obtain ⟨hlen, hcnt, -⟩ := appendBytes_counts hs hopk hjs le_rfl hmax (laneByte v)
  exact ⟨_, _, _, _, _, congrArg Host.Outcome.next ((opData_accepted hjs hmax v).trans (startFullBlock_eq _)),
    fun i hi => getElem_buf_of_data v s hi, hcnt, hlen,
    fun hfull => ⟨if_pos hfull, if_pos hfull⟩, fun hmore => ⟨(if_neg hmore).trans hopk, if_neg hmore⟩⟩

/-! ## FINAL (R83, R84, R121) -/

theorem opFinal_accepted {s : State} {nb : BitVec 2} (hjs : s.js = .active)
    (hmax : s.msglen.toNat + nb.toNat ≤ lmax s.alg) (tb0 tb1 tb2 : Byte) : opFinal nb tb0 tb1 tb2 s =
      { padFirst (appendBytes nb.toNat (tailByte tb0 tb1 tb2) s) with opk := .final, pb := 0, ph := .load } := by
  rcases opFinal_cases nb tb0 tb1 tb2 s with ⟨hno, -⟩ | ⟨-, hover, -⟩ | ⟨-, -, e⟩
  · exact absurd hjs hno
  · omega
  · exact e

theorem tailByte_eq_getD (tb0 tb1 tb2 : Byte) {j : Nat} (hj : j < 3) :
    tailByte tb0 tb1 tb2 j = [tb0, tb1, tb2].getD j 0 := by
  interval_cases j <;> rfl

/-- The padding unit writes BUF and NPB, and nothing else changes (R83). -/
theorem padFirst_eq (s : State) : padFirst s = { s with buf := (padFirst s).buf, npb := (padFirst s).npb } := by
  unfold padFirst
  dsimp only
  split <;> rfl

theorem padFirst_npb_eq_one_iff (s : State) : (padFirst s).npb = .one ↔
    s.bufcnt.toNat ≤ (params s.alg).blockBytes - (params s.alg).lenBytes - 1 := by
  obtain ⟨hsize, -⟩ := params_block_sizes s.alg
  have htwo := padFirst_npb_eq_two_iff s
  have hone : (padFirst s).npb = .one ↔ ¬(padFirst s).npb = .two := by cases (padFirst s).npb <;> decide
  rw [hone, htwo]
  omega

/-- What `pad_first` writes when the length field fits in this block (R83). -/
theorem padFirst_buf_of_fits {s : State}
    (hfit : s.bufcnt.toNat ≤ (params s.alg).blockBytes - (params s.alg).lenBytes - 1) : (padFirst s).buf =
      putLength s (fill (fill s.buf s.bufcnt.toNat (s.bufcnt.toNat + 1) fun _ => 0x80) (s.bufcnt.toNat + 1)
        ((params s.alg).blockBytes - (params s.alg).lenBytes) fun _ => 0) := by
  simp only [padFirst, if_pos hfit]

/-- What it writes when the length field needs a second block (R83). -/
theorem padFirst_buf_of_not_fits {s : State}
    (hfit : ¬s.bufcnt.toNat ≤ (params s.alg).blockBytes - (params s.alg).lenBytes - 1) : (padFirst s).buf =
      fill (fill s.buf s.bufcnt.toNat (s.bufcnt.toNat + 1) fun _ => 0x80) (s.bufcnt.toNat + 1)
        (params s.alg).blockBytes fun _ => 0 := by
  simp only [padFirst, if_neg hfit]

/-- Byte i of a block in which the length field is put: of the field's F bytes, the last stands at B - 1 (R84). -/
theorem getElem_putLength (s : State) (buf : Vector Byte 128) {i : Nat} (hi : i < 128) : (putLength s buf)[i] =
    if (params s.alg).blockBytes - (params s.alg).lenBytes ≤ i ∧ i < (params s.alg).blockBytes then
      BitVec.ofNat 8 (8 * s.msglen.toNat / 256 ^ ((params s.alg).blockBytes - 1 - i))
    else buf[i] := by
  obtain ⟨hsize, -⟩ := params_block_sizes s.alg
  rw [putLength, getElem_fill]
  by_cases hfield : (params s.alg).blockBytes - (params s.alg).lenBytes ≤ i ∧ i < (params s.alg).blockBytes
  · have hlast : (params s.alg).lenBytes - 1 - (i - ((params s.alg).blockBytes - (params s.alg).lenBytes)) =
        (params s.alg).blockBytes - 1 - i := by omega
    rw [if_pos hfield, if_pos hfield, beByte_eq_div, hlast]
  · rw [if_neg hfield, if_neg hfield]

/-- BUF after `pad_first`: the message bytes, 0x80, zeros, and the length field where it has its place in this block
(R83, R84). -/
theorem getElem_padFirst_buf {s : State} (hroom : s.bufcnt.toNat < (params s.alg).blockBytes) {i : Nat} (hi : i < 128) :
    (padFirst s).buf[i] =
      if i < s.bufcnt.toNat then s.buf[i]
      else if i = s.bufcnt.toNat then 0x80
      else if (params s.alg).blockBytes ≤ i then s.buf[i]
      else if (padFirst s).npb = .two ∨ i < (params s.alg).blockBytes - (params s.alg).lenBytes then 0
      else BitVec.ofNat 8 (8 * s.msglen.toNat / 256 ^ ((params s.alg).blockBytes - 1 - i)) := by
  obtain ⟨hsize, -⟩ := params_block_sizes s.alg
  simp only [padFirst_npb_eq_two_iff]
  by_cases hfit : s.bufcnt.toNat ≤ (params s.alg).blockBytes - (params s.alg).lenBytes - 1
  · have hregion : i < s.bufcnt.toNat ∨ i = s.bufcnt.toNat ∨ (params s.alg).blockBytes ≤ i ∨
        s.bufcnt.toNat < i ∧ i < (params s.alg).blockBytes - (params s.alg).lenBytes ∨
        s.bufcnt.toNat < i ∧ i < (params s.alg).blockBytes ∧
          (params s.alg).blockBytes - (params s.alg).lenBytes ≤ i := by omega
    -- The region of `i` decides every choice on both sides, by arithmetic.
    simp only [padFirst_buf_of_fits hfit, getElem_putLength, getElem_fill]
    rcases hregion with h | h | h | h | h <;> simp (disch := omega) only [if_pos, if_neg]
  · have hregion : i < s.bufcnt.toNat ∨ i = s.bufcnt.toNat ∨ (params s.alg).blockBytes ≤ i ∨
        s.bufcnt.toNat < i ∧ i < (params s.alg).blockBytes := by omega
    simp only [padFirst_buf_of_not_fits hfit, getElem_fill]
    rcases hregion with h | h | h | h <;> simp (disch := omega) only [if_pos, if_neg]

/-- Settles O25: the tail bytes leave room in the block for 0x80, and `pad_first` fills the rest of it. -/
theorem finalAppendsAndPads : Obligations.FinalAppendsAndPads := by
  intro s nb tb0 tb1 tb2 hs hidle hjs hmax
  obtain ⟨hlen, hcnt, hmod, h4⟩ := appendBytes_counts hs ((not_busy_iff s).1 hidle) hjs (by omega) hmax
    (tailByte tb0 tb1 tb2)
  obtain ⟨hsize, -⟩ := params_block_sizes s.alg
  have hroom : s.bufcnt.toNat + nb.toNat < (params s.alg).blockBytes := by
    rcases hsize with ⟨hB, -⟩ | ⟨hB, -⟩ <;> rw [hB] at hmod ⊢ <;> omega
  have hstart := (opFinal_accepted hjs hmax tb0 tb1 tb2).trans
    (congrArg (fun t : State => { t with opk := .final, pb := 0, ph := .load }) (padFirst_eq _))
  set t := appendBytes nb.toNat (tailByte tb0 tb1 tb2) s with ht
  refine ⟨_, t.bufcnt, t.msglen, _, congrArg Host.Outcome.next hstart, hcnt, by omega, hlen,
    padFirst_npb_eq_one_iff t, fun i hi => (getElem_padFirst_buf (s := t) (hcnt.trans_lt hroom) hi).trans ?_⟩
  rw [ht, getElem_appendBytes_buf, appendBytes_alg, ← ht]
  by_cases hnew : s.bufcnt.toNat ≤ i ∧ i < s.bufcnt.toNat + nb.toNat
  · rw [if_pos hnew]
    simp (disch := omega) only [if_pos, if_neg, tailByte_eq_getD]
  · rw [if_neg hnew]
    by_cases hold : i < s.bufcnt.toNat
    · simp (disch := omega) only [if_pos]
    · simp (disch := omega) only [if_neg]

/-! ## Held accesses (R116) -/

/-- T is in the range that the phase counts through, while the engine works (R17). -/
theorem State.JobInv.control_inRange {s : State} (hs : s.JobInv) (hbusy : s.busy = true) : s.control.InRange :=
  ⟨fun hp => (hs.expand_range hbusy hp).2, fun hp => hs.round_range hbusy hp⟩

/-- Every busy period ends (R102). -/
theorem State.JobInv.finishes {s : State} (hs : s.JobInv) : ∃ t, s.FinishesAs t ∧ t.busy = false := by
  cases hbusy : s.busy with
  | false => exact ⟨s, s.finishesAs_self, hbusy⟩
  | true =>
    have hrange := hs.control_inRange hbusy
    have hend := (engineSteps_busy_iff hrange le_rfl).not.2 (Nat.lt_irrefl _)
    exact ⟨_, ⟨s.control.stepsLeft, fun k hk => (engineSteps_busy_iff hrange hk.le).2 hk, rfl⟩,
      Bool.eq_false_iff.2 hend⟩

/-- Settles O9: the access is held for the steps of the busy period, and is the host's next one when it ends. -/
theorem heldAccessWaitsForTheEngine : Obligations.HeldAccessWaitsForTheEngine := by
  intro s a rest i hbus hdec
  have hheld : s.busy = true → i ≠ .rdStatus → s.holds = true := fun hbusy hi => holds_eq_true hbus hdec hbusy hi
  refine ⟨fun hbusy hi hturn => ⟨step_of_waiting hturn (.inr (hheld hbusy hi)), (engineStep_bus _).trans hbus⟩,
    fun hi hturn => stepRunsTheDecodedAccess s a rest i hbus hdec (.inr ⟨hi, hturn⟩), fun hs hi hreset => ?_⟩
  obtain ⟨_, ⟨n, hbusy, rfl⟩, hidle⟩ := hs.finishes
  obtain ⟨hubus, -, hucfg⟩ := engineSteps_keeps_host n s
  have hturn : (s.turns.drop n).head? ≠ some .reset := fun h => hreset (List.mem_of_mem_drop (List.mem_of_mem_head? h))
  refine ⟨n, { engineSteps n s with turns := s.turns.drop n }, rfl,
    run_of_waiting n hreset (fun hb => .inr (hheld hb hi)) hbusy, hidle, hubus.trans hbus, ?_⟩
  exact stepRunsTheDecodedAccess _ a rest i (hubus.trans hbus) (hucfg ▸ hdec) (.inl ⟨hidle, hturn⟩)

/-! ## The hash sequence (R127) -/

/-- The digest is DLEN bytes of the 64 in DIG (R110). -/
theorem State.HasFinished.take_dig {s : State} {a : BitVec 3} {m : List Byte} (hs : s.HasFinished a m) :
    s.dig.toList.take (params a).dlen = Reference.hash a m := by
  obtain ⟨-, h64⟩ := params_dlen_le a
  have hlen := congrArg List.length hs.digest
  rw [Vector.length_toList, List.length_append, List.length_replicate] at hlen
  rw [hs.digest, List.take_left' (by omega)]

/-- Settles O44: the sequence ends with the job finished and nothing left to issue. -/
theorem hashSequenceComputesTheDigest : Obligations.HashSequenceComputesTheDigest := by
  intro s a m ha hidle hc hissue hmax
  obtain ⟨t, ⟨n, hrun⟩, ht, hbus⟩ := leads_of_hash ha ((not_busy_iff s).1 hidle) hc hissue hmax
  exact ⟨n, t, hrun, hbus, (not_busy_iff t).2 ht.idle, ht.done, ht.no_error, ht.algorithm, ht.length, ht.take_dig⟩

end Sys2Proof.Machine
end

section
/-! Errors (60_exceptions.md): the order in which an access is checked (O19), and the ways out of JS = ERROR (O53). -/

namespace Sys2Proof.Machine

/-! ## The checks of an access (R130, R133) -/

/-- A word that sets a bit its opcode reserves, or has a reserved opcode, selects a malformed command (R57, R122). -/
theorem exec_wrCmd_of_malformed {v : BusWord}
    (h : opcodeOf v = 0 ∧ v ≠ 0 ∨ opcodeOf v = 1 ∧ v.extractLsb' 7 25 ≠ 0 ∨ opcodeOf v = 2 ∧ v.extractLsb' 6 2 ≠ 0 ∨
      3 ≤ (opcodeOf v).toNat) (s : State) : exec (.wrCmd v) s = .next (raiseError .badCmd s) := by
  rw [exec_wrCmd_eq_exec_decodeCmd]
  rcases h with ⟨hop, hbits⟩ | ⟨hop, hbits⟩ | ⟨hop, hbits⟩ | hop
  · rw [decodeCmd_of_opcode_zero hop, if_neg hbits]
    rfl
  · rw [decodeCmd_of_opcode_one hop, if_neg hbits]
    rfl
  · rw [decodeCmd_of_opcode_two hop, if_neg hbits]
    rfl
  · rw [decodeCmd_of_opcode_reserved ((cmdRsvd_wf_iff v).1 (decide_eq_true hop))]
    rfl

section Checks

variable {s : State}

theorem opData_not_active (hjs : s.js ≠ .active) (v : BusWord) : opData v s = raiseError .notActive s := by
  rw [opData, if_pos hjs]

theorem opFinal_not_active (hjs : s.js ≠ .active) (nb : BitVec 2) (tb0 tb1 tb2 : Byte) :
    opFinal nb tb0 tb1 tb2 s = raiseError .notActive s := by
  rw [opFinal, if_pos hjs]

theorem opData_past_lmax (hjs : s.js = .active) (hover : lmax s.alg < s.msglen.toNat + 4) (v : BusWord) :
    opData v s = raiseError .lenOverflow s := by
  rw [opData, if_neg (not_not.2 hjs), lenOverflows, if_pos (decide_eq_true hover)]

theorem opFinal_past_lmax (hjs : s.js = .active) {nb : BitVec 2} (hover : lmax s.alg < s.msglen.toNat + nb.toNat)
    (tb0 tb1 tb2 : Byte) : opFinal nb tb0 tb1 tb2 s = raiseError .lenOverflow s := by
  rw [opFinal, if_neg (not_not.2 hjs), lenOverflows, if_pos (decide_eq_true hover)]

end Checks

/-- Settles O19: each failed check is `raiseError` with its code. -/
theorem errorsAreRecordedInPriorityOrder : Obligations.ErrorsAreRecordedInPriorityOrder := by
  intro s
  refine ⟨fun v hbad => exec_wrCmd_of_malformed hbad s, congrArg Host.Outcome.next (opInit_reserved s),
    fun hjs => ⟨fun v => ?_, fun nb tb0 tb1 tb2 => ?_⟩, fun hjs => ⟨fun v hover => ?_, fun nb tb0 tb1 tb2 hover => ?_⟩⟩
  · exact congrArg Host.Outcome.next (opData_not_active hjs v)
  · exact congrArg Host.Outcome.next (opFinal_not_active hjs nb tb0 tb1 tb2)
  · exact congrArg Host.Outcome.next (opData_past_lmax hjs hover v)
  · exact congrArg Host.Outcome.next (opFinal_past_lmax hjs hover tb0 tb1 tb2)

/-! ## The ways out of ERROR (R135) -/

section KeepsError

variable {s : State} (hjs : s.js = .error)

include hjs

/-- An error recorded already is kept (R129). -/
theorem raiseError_keeps_error (c : ErrCode) :
    (raiseError c s).js = .error ∧ (raiseError c s).errcode = s.errcode := by
  simp [hjs]

theorem opData_keeps_error (v : BusWord) : (opData v s).js = .error ∧ (opData v s).errcode = s.errcode := by
  rw [opData_not_active (by simp [hjs])]
  exact raiseError_keeps_error hjs .notActive

theorem opFinal_keeps_error (nb : BitVec 2) (tb0 tb1 tb2 : Byte) :
    (opFinal nb tb0 tb1 tb2 s).js = .error ∧ (opFinal nb tb0 tb1 tb2 s).errcode = s.errcode := by
  rw [opFinal_not_active (by simp [hjs])]
  exact raiseError_keeps_error hjs .notActive

/-- The engine works only for an active job, so that no step of it leaves or rewrites the error state (R129). -/
theorem EngineMove.keeps_error {t : State} (h : EngineMove s t) (hs : s.JobInv) :
    t.js = .error ∧ t.errcode = s.errcode := by
  obtain ⟨-, herr, -⟩ := h.keeps_job
  rcases h.final_or_keeps with ⟨ho, -, -⟩ | ⟨hkeep, -⟩
  · have hactive := hs.busy_active ((busy_iff s).2 (by simp [ho]))
    simp [hjs] at hactive
  · exact ⟨hkeep.trans hjs, herr⟩

end KeepsError

/-- Settles O53, by the transition that the step is: DATA and FINAL find no active job, and a recorded error is kept. -/
theorem errorIsLeftOnlyByInitOrReset : Obligations.ErrorIsLeftOnlyByInitOrReset := by
  intro s t hs hjs hstep
  have hhost : ∀ rest, State.js { s with bus := rest, turns := s.turns.tail } = .error := fun _ => hjs
  cases transition_of_step hstep with
  | reset ts hturn => exact .inr (.inr ⟨by simp [hturn], by simp, by simp⟩)
  | engine _ t hmove => exact .inl (hmove.keeps_error (hhost s.bus) (hs.withHostSide s.rdata s.bus s.turns.tail))
  | answered => exact .inl ⟨hjs, rfl⟩
  | init _ _ a rest v k hbus hdec hcmd =>
    by_cases hk : k = 7
    · rw [hk, opInit_reserved]
      exact .inl (raiseError_keeps_error (hhost rest) .badAlg)
    · obtain ⟨-, hactive, hnone, -⟩ := opInit_accepted hk { s with bus := rest, turns := s.turns.tail }
      exact .inr (.inl ⟨hactive, hnone, a, rest, v, k, hbus, hdec, hcmd, hk⟩)
  | final _ _ _ rest _ nb tb0 tb1 tb2 => exact .inl (opFinal_keeps_error (hhost rest) nb tb0 tb1 tb2)
  | malformed _ _ _ rest => exact .inl (raiseError_keeps_error (hhost rest) .badCmd)
  | data _ _ _ rest v => exact .inl (opData_keeps_error (hhost rest) v)

end Sys2Proof.Machine
end

section
/-! Power-up and the hardware reset (70_reset_and_hazards.md section 1): the state after power-up (O46), and a reset in any
state (O47). -/

namespace Sys2Proof.Machine

/-- An idle SHAENG with no job, ALG = 7 and no valid cache shows 0x00000700: ALG is the only field that is not 0 (R24,
R33). -/
theorem status_of_no_job {s : State} (hopk : s.opk = .none) (hjs : s.js = .none) (herr : s.errcode = .none)
    (halg : s.alg = 7) (h224 : s.divv224 = false) (h256 : s.divv256 = false) : s.status = 0x00000700 := by
  have hbusy : s.busy = false := (not_busy_iff s).2 hopk
  simp only [State.status, hbusy, hjs, herr, halg, h224, h256]
  decide

/-- A reset on the environment's choice takes precedence over everything: the step is the reset, whatever the engine or
the host was about to do (R133, R143). -/
theorem step_of_reset {s : State} {ts : List Turn} (hturn : s.turns = .reset :: ts) :
    step s = .next (hardReset { s with turns := ts }) := by
  rcases step_by_agent s with ⟨-, hstep⟩ | ⟨hengine, -⟩ | ⟨hreset, -⟩
  · rw [hstep, hturn, List.tail_cons]
  · simp [hturn] at hengine
  · simp [hturn] at hreset

/-- STATUS after a hardware reset (R143). -/
theorem hardReset_status (s : State) : (hardReset s).status = 0x00000700 :=
  status_of_no_job (hardReset_opk s) (hardReset_js s) (hardReset_errcode s) (hardReset_alg s) (hardReset_divv224 s)
    (hardReset_divv256 s)

/-- Settles O46: the valued elements are those of `State.reset`, and a STATUS read returns the word they make up. -/
theorem powerUpStateIsIdleWithoutJob : Obligations.PowerUpStateIsIdleWithoutJob := by
  have hstatus : State.reset.status = 0x00000700 := status_of_no_job rfl rfl rfl rfl rfl rfl
  exact ⟨rfl, rfl, rfl, rfl, rfl, rfl, rfl, rfl, rfl, hstatus,
    { State.reset with rdata := State.reset.status }, rfl, hstatus⟩

/-- Settles O47: the step is the hardware reset, and what it ends and what outlasts it are the reset's own field rules. -/
theorem hardwareResetAbortsEverything : Obligations.HardwareResetAbortsEverything := by
  intro s ts hturn
  exact ⟨_, step_of_reset hturn, (not_busy_iff _).2 (hardReset_opk _), hardReset_opk _, hardReset_js _, hardReset_errcode _,
    hardReset_alg _, hardReset_msglen _, hardReset_bufcnt _, hardReset_divv224 _, hardReset_divv256 _, hardReset_status _,
    hardReset_cfg _, hardReset_turns _, hardReset_rdata _, hardReset_bus _⟩

end Sys2Proof.Machine
end
